-- ==== Sys2Proof/Word.lean ====
section
/-! DEFINITION. The word types of the core: a byte of the two byte ports (R67) and a word of the register
port and of DBUF (R61, R67). -/

namespace Sys2Proof

/-- One byte of the input port, of the output port or of the symbol alphabet (R67). -/
abbrev Byte := BitVec 8

/-- One 32-bit word: a register of the register port, a DBUF word or a CRC (R61, R67). -/
abbrev Word := BitVec 32

end Sys2Proof
end

