-- ==== Sys2Proof/Config.lean ====
section
/-! DEFINITION. What is fixed for every core (the parameters of R7, R8 and R62), and the free values: constants
without a body, so that no proof can know their value. -/

namespace Sys2Proof

/-- The internal memories of R62 that are state (CRC_TABLE is a constant, R216). -/
inductive MemId where
  | dbuf | symToByte | selectors | groupMtf | mtfSym | byteCount
  | minLen | maxLen | limit | base | permute | length | temp
  deriving DecidableEq, Repr

namespace Config

/-- `DBUF_UNIT`: words of intermediate buffer per block-size digit (R7). -/
def dbufUnit : Nat := 100000

/-- `DBUF_WORDS`: physical words of DBUF (R7, R62). -/
def dbufWords : Nat := 900000

/-- `MAX_SELECTORS`: entries of SELECTORS (R7, R62). -/
def maxSelectors : Nat := 32767

/-- `MIN_GROUPS`: fewest group tables of a block (R7). -/
def minGroups : Nat := 2

/-- `MAX_GROUPS`: most group tables of a block (R7). -/
def maxGroups : Nat := 6

/-- `GROUP_SIZE`: symbols decoded per selector (R7). -/
def groupSize : Nat := 50

/-- `MAX_HUFCODE_BITS`: the longest code length (R7). -/
def maxCodeBits : Nat := 20

/-- `MAX_SYMBOLS`: entries of PERMUTE per group and of LENGTH (R7, R62). -/
def maxSymbols : Nat := 258

/-- `MAX_READ`: the widest single bit-field read (R7). -/
def maxRead : Nat := 24

/-- FREE VALUE. What entry `i` of an internal memory holds before any rule has written it since draw `epoch`:
"unspecified: a model gives them arbitrary contents (a draw)" (R301, `93_implementation_defined.md` I5).
A narrower memory takes the low bits. Log entry 3. -/
opaque freeMem (epoch : Nat) (m : MemId) (i : Nat) : Word

/-- FREE VALUE. What the `k`-th draw gives the host that reads a register other than STATUS while BUSY = 1 (R70, I1).
Log entry 4. -/
opaque freeRead (k : Nat) : Word

end Config

end Sys2Proof
end

