-- ==== Sys2Proof/Syntax.lean ====
section
/-! DEFINITION. The operations of the core: one constructor of `Instr` for each row of `spec/opcode_table.json`
(the eight command words, the bitstream elements, the internal steps), with the names they are made of. -/

namespace Sys2Proof

/-- STATUS.ERRCODE, the codes that can be stored (R271). -/
inductive ErrCode where
  | none | notBzipData | dataError | obsoleteFormat | unexpectedEof | crcMismatch | ioError
  deriving DecidableEq, Repr

/-- STATUS.ERRSTAGE, the stages that can be stored (R278). -/
inductive Stage where
  | none | sig | level | magic | hcrc | rand | origptr | map1 | map2 | ngroups | nsel | sel | len
  | symsel | huff | runFlush | literal | origchk | blockCrc | streamCrc | output
  deriving DecidableEq, Repr

/-- The place inside the current operation: "the element of `30_encoding.md` rule R86 being read or the output rule
being applied" (R55 b). `idle` is the place when no command runs. -/
inductive Pos where
  | idle
  -- the stream header (R130, R131)
  | sig | level
  -- the block header (R133 to R145) and the end-of-stream block (R219)
  | magic | crcData | crcEos | eosCheck | rand | origptr | map1 | map2 | ngroups | nsel | sel | lenStart | lenDelta
  -- the group tables (R146 to R149)
  | minmax | permute | temp | limitBase
  -- the symbol loop (R170 to R182); at `symbol` a decoded symbol waits to be acted on
  | symInit | groupSwitch | huff | symbol
  -- the chain constructor (R200 to R204)
  | origCheck | bucketStart | chainBuild | chainSeed
  -- the command loop (R247) and the output steps it chooses (R210)
  | drive | blockEnd | emitPend | chainStep
  deriving DecidableEq, Repr

/-- A bit string taken from the stream, as the unsigned number it is read as, first bit most significant (R64):
`len` bits of value `val`. -/
structure Field where
  len : Nat
  val : Nat
  deriving DecidableEq, Repr

/-- One constructor per row of `spec/opcode_table.json`. -/
inductive Instr where
  -- the command words (R81, R82); bits 31:3 are ignored, so a command has no operand
  /-- NOP, OP = 0 (R241). -/
  | nop
  /-- START, OP = 1 (R242). -/
  | start
  /-- READ, OP = 2 (R243). -/
  | read
  /-- DRAIN, OP = 3 (R244). -/
  | drain
  /-- RELEASE, OP = 4 (R245). -/
  | release
  /-- Reserved OP 5 (R246). -/
  | reserved5
  /-- Reserved OP 6 (R246). -/
  | reserved6
  /-- Reserved OP 7 (R246). -/
  | reserved7
  -- the bitstream elements (R84 to R93), each with the field it was read as
  /-- SIG: the three bytes "BZh" (R130). -/
  | sig
  /-- LEVEL: the byte read as the level digit (R131). -/
  | level (b : Byte)
  /-- MAGIC.DATA (R133). -/
  | magicData
  /-- MAGIC.EOS (R133). -/
  | magicEos
  /-- CRC (data block): the stored block CRC (R134). -/
  | crcDataBlock (c : Word)
  /-- CRC (end of stream): the stored combined CRC (R219). -/
  | crcEndOfStream (c : Word)
  /-- RAND: the randomised flag (R136). -/
  | rand (r : BitVec 1)
  /-- ORIGPTR: the origin pointer (R137). -/
  | origptr (p : BitVec 24)
  /-- MAP1: the map of used groups of 16 byte values (R138). -/
  | map1 (m : BitVec 16)
  /-- MAP2: the map of used byte values of one group (R139). -/
  | map2 (u : BitVec 16)
  /-- NGROUPS: the raw group count (R140). -/
  | ngroups (n : BitVec 3)
  /-- NSEL: the raw selector count (R141). -/
  | nsel (n : BitVec 15)
  /-- SEL: `j` one-bits and a zero-bit (R143). -/
  | sel (j : Nat)
  /-- LEN_START: the starting code length of a group (R144). -/
  | lenStart (t : BitVec 5)
  /-- LEN_DELTA.STOP: the code `0` (R145). -/
  | lenDeltaStop
  /-- LEN_DELTA.INC: the code `10` (R145). -/
  | lenDeltaInc
  /-- LEN_DELTA.DEC: the code `11` (R145). -/
  | lenDeltaDec
  /-- SYM.RUNA: symbol 0 (R174). -/
  | symRunA
  /-- SYM.RUNB: symbol 1 (R175). -/
  | symRunB
  /-- SYM.LITERAL: a symbol 2..SYM_TOTAL (R178). -/
  | symLiteral (sym : BitVec 9)
  /-- SYM.EOB: symbol SYM_TOTAL + 1 (R177). -/
  | symEob
  -- the internal steps (no encoding)
  /-- READ_BITS: `ReadBits(n)` (R121). -/
  | readBits (n : Nat)
  /-- FETCH_BYTE: one input token (R122). -/
  | fetchByte
  /-- READ_WIDE: an `m`-bit field in two reads (R125). -/
  | readWide (m : Nat)
  /-- MINMAX (R146). -/
  | minmax
  /-- PERMUTE (R147). -/
  | permute
  /-- TEMP (R148). -/
  | temp
  /-- LIMIT_BASE (R149). -/
  | limitBase
  /-- SYM_INIT (R170). -/
  | symInit
  /-- GROUP_SWITCH (R171). -/
  | groupSwitch
  /-- HUFF_DECODE (R172). -/
  | huffDecode
  /-- RUN_FLUSH (R176). -/
  | runFlush
  /-- ORIG_CHECK (R200). -/
  | origCheck
  /-- BUCKET_START (R201). -/
  | bucketStart
  /-- CHAIN_BUILD (R203). -/
  | chainBuild
  /-- CHAIN_SEED (R204). -/
  | chainSeed
  /-- CHAIN_STEP (R211). -/
  | chainStep
  /-- RLE4: the chain step whose byte is a count (R212). -/
  | rle4
  /-- EMIT_PEND (R214). -/
  | emitPend
  /-- EMIT: `Emit(b)` (R215). -/
  | emit (b : Byte)
  /-- BLOCK_END (R217). -/
  | blockEnd
  /-- EOS_CHECK: `EosCheck(crc)` (R219). -/
  | eosCheck (crc : Word)
  /-- DRIVE: one turn of the command loop (R247). -/
  | drive
  /-- ERROR_ENTRY: `raise Error(code, stage)` (R280). -/
  | errorEntry (c : ErrCode) (st : Stage)
  /-- RESET: the reset input (R300). -/
  | reset
  deriving DecidableEq, Repr

end Sys2Proof
end

