-- ==== Sys2Proof/WellFormed.lean ====
section
/-! DEFINITION. Which terms of `Instr` stand for a legal element, command or internal step: the ranges of R86, R90
and R93 and of the operations' operands. An ill-formed element still has the meaning the spec gives an illegal
encoding (the error of R98); this predicate says only that it is illegal. -/

namespace Sys2Proof

/-- The operand ranges: LEVEL R85; RAND, NGROUPS, NSEL, LEN_START R86; SEL R90; SYM.LITERAL R93 (at most SYM_TOTAL <= 256);
READ_BITS R121; READ_WIDE R125; ERROR_ENTRY R271 and R278. -/
def Instr.wellFormed : Instr → Bool
  | .level b => decide (0x31 ≤ b.toNat) && decide (b.toNat ≤ 0x39)
  | .rand r => r == 0#1
  | .ngroups n => decide (Config.minGroups ≤ n.toNat) && decide (n.toNat ≤ Config.maxGroups)
  | .nsel n => decide (n ≠ 0#15)
  | .sel j => decide (j < Config.maxGroups)
  | .lenStart t => decide (1 ≤ t.toNat) && decide (t.toNat ≤ Config.maxCodeBits)
  | .symLiteral sym => decide (2 ≤ sym.toNat) && decide (sym.toNat ≤ 256)
  | .readBits n => decide (1 ≤ n) && decide (n ≤ Config.maxRead)
  | .readWide m => decide (m = 32) || decide (m = 48)
  | .errorEntry c st => decide (c ≠ .none) && decide (st ≠ .none)
  | .nop | .start | .read | .drain | .release | .reserved5 | .reserved6 | .reserved7
  | .sig | .magicData | .magicEos | .crcDataBlock _ | .crcEndOfStream _ | .origptr _ | .map1 _ | .map2 _
  | .lenDeltaStop | .lenDeltaInc | .lenDeltaDec | .symRunA | .symRunB | .symEob
  | .fetchByte | .minmax | .permute | .temp | .limitBase | .symInit | .groupSwitch | .huffDecode | .runFlush
  | .origCheck | .bucketStart | .chainBuild | .chainSeed | .chainStep | .rle4 | .emitPend | .emit _ | .blockEnd
  | .eosCheck _ | .drive | .reset => true

end Sys2Proof
end

