-- ==== Sys2Proof/Decode.lean ====
section
/-! DEFINITION. The two decoders of R80, each total: a command word (R81 to R83) and a bitstream field read so far
(R84 to R97). After them the encoder, written from the same encodings. A field that is no legal encoding is
rejected by the name of its error (R98). -/

namespace Sys2Proof

/-- The command word, decoded by OP = bits 2:0 alone (R81, R82, R83). -/
def decodeCmd (v : Word) : Instr :=
  match (v.setWidth 3).toNat with
  | 0 => .nop
  | 1 => .start
  | 2 => .read
  | 3 => .drain
  | 4 => .release
  | 5 => .reserved5
  | 6 => .reserved6
  | _ => .reserved7

/-- The signature "BZh" as one 24-bit field (R85). -/
def sigWord : Nat := 0x425A68

/-- The magic of a data block (R87). -/
def dataMagic : Nat := 0x314159265359

/-- The magic of the end-of-stream block (R87). -/
def eosMagic : Nat := 0x177245385090

/-- What the decoder answers on the bits read so far. -/
inductive Decoded where
  /-- the element is complete: run this -/
  | run (i : Instr)
  /-- `ReadBits(n)` comes next -/
  | more (n : Nat)
  /-- a field of `m` bits comes next, read in two halves (R125) -/
  | wide (m : Nat)
  /-- no legal encoding: the error of R98 -/
  | illegal (c : ErrCode) (st : Stage)
  deriving DecidableEq, Repr

/-- What the length of an element can depend on (R97): the place, GROUP_COUNT, the working length `t`, and for a codeword
MIN_LEN, MAX_LEN and LIMIT[L] of the current group at the length L read so far. -/
structure Ctx where
  pos : Pos
  groupCount : Nat
  lenT : Nat
  minLen : Nat
  maxLen : Nat
  limit : Int
  deriving DecidableEq, Repr

/-- A field of the fixed width `n` (R86). -/
def fixedField (n : Nat) (f : Field) (i : Instr) : Decoded :=
  if f.len < n then .more (n - f.len) else .run i

/-- The three signature bytes, each checked before the next is read (R130). -/
def decodeSig (f : Field) : Decoded :=
  if f.len < 8 then .more (8 - f.len)
  else if f.len < 16 then
    if f.val = 0x42 then .more (16 - f.len) else .illegal .notBzipData .sig
  else if f.len < 24 then
    if f.val = 0x425A then .more (24 - f.len) else .illegal .notBzipData .sig
  else if f.val = sigWord then .run .sig
  else .illegal .notBzipData .sig

/-- The 48-bit magic. One that is neither of the two is classified only after the 32 bits of its CRC field (R133). -/
def decodeMagic (f : Field) : Decoded :=
  if f.len = 0 then .wide 48
  else if f.len < 48 then .more (48 - f.len)
  else if f.len = 48 then
    if f.val = dataMagic then .run .magicData
    else if f.val = eosMagic then .run .magicEos
    else .wide 32
  else if f.len < 80 then .more (80 - f.len)
  else .illegal .notBzipData .magic

/-- A 32-bit field, read in two halves (R125). -/
def wideField32 (f : Field) (i : Instr) : Decoded :=
  if f.len = 0 then .wide 32
  else if f.len < 32 then .more (32 - f.len)
  else .run i

/-- One selector code: `j` one-bits and a zero-bit, illegal at the GROUP_COUNT-th one-bit (R90, R143). -/
def decodeSel (groupCount : Nat) (f : Field) : Decoded :=
  if f.val + 1 = 2 ^ f.len then
    if f.len ≠ 0 ∧ groupCount ≤ f.len then .illegal .dataError .sel else .more 1
  else if f.val + 2 = 2 ^ f.len then .run (.sel (f.len - 1))
  else .illegal .dataError .sel

/-- One delta code: `0` stop, `10` increment, `11` decrement; `t` must be in 1..20 before it is read (R91, R145). -/
def decodeDelta (t : Nat) (f : Field) : Decoded :=
  if t < 1 ∨ Config.maxCodeBits < t then .illegal .dataError .len
  else if f.len = 0 then .more 1
  else if f.len = 1 then
    if f.val = 0 then .run .lenDeltaStop else .more 1
  else if f.val = 2 then .run .lenDeltaInc
  else .run .lenDeltaDec

/-- One codeword: MIN_LEN bits, then one more bit while the value is above LIMIT of the length read, never past
MAX_LEN (R92, R172). -/
def decodeHuff (minLen maxLen : Nat) (limit : Int) (f : Field) : Decoded :=
  if f.len = 0 then .more minLen
  else if limit < (f.val : Int) then
    if f.len = maxLen then .illegal .dataError .huff else .more 1
  else .run .huffDecode

/-- The bitstream decoder: what the bits read so far are at the place `ctx.pos` (R86, R97). A place that reads no field has
nothing to decode, and none is ever read there. -/
def decodeField (ctx : Ctx) (f : Field) : Decoded :=
  match ctx.pos with
  | .sig => decodeSig f
  | .level => fixedField 8 f (.level (BitVec.ofNat 8 f.val))
  | .magic => decodeMagic f
  | .crcData => wideField32 f (.crcDataBlock (BitVec.ofNat 32 f.val))
  | .crcEos => wideField32 f (.crcEndOfStream (BitVec.ofNat 32 f.val))
  | .rand => fixedField 1 f (.rand (BitVec.ofNat 1 f.val))
  | .origptr => fixedField 24 f (.origptr (BitVec.ofNat 24 f.val))
  | .map1 => fixedField 16 f (.map1 (BitVec.ofNat 16 f.val))
  | .map2 => fixedField 16 f (.map2 (BitVec.ofNat 16 f.val))
  | .ngroups => fixedField 3 f (.ngroups (BitVec.ofNat 3 f.val))
  | .nsel => fixedField 15 f (.nsel (BitVec.ofNat 15 f.val))
  | .sel => decodeSel ctx.groupCount f
  | .lenStart => fixedField 5 f (.lenStart (BitVec.ofNat 5 f.val))
  | .lenDelta => decodeDelta ctx.lenT f
  | .huff => decodeHuff ctx.minLen ctx.maxLen ctx.limit f
  | .idle | .eosCheck | .minmax | .permute | .temp | .limitBase | .symInit | .groupSwitch | .symbol | .origCheck
  | .bucketStart | .chainBuild | .chainSeed | .drive | .blockEnd | .emitPend | .chainStep => .illegal .none .none

/-- The encoder: a command as the 32-bit word written to CMD with its reserved bits 0 (R82), an element as the bits of
the stream (R85 to R91). A symbol's codeword depends on the group table and an internal step has no encoding. -/
def encode : Instr → Option Field
  | .nop => some ⟨32, 0⟩
  | .start => some ⟨32, 1⟩
  | .read => some ⟨32, 2⟩
  | .drain => some ⟨32, 3⟩
  | .release => some ⟨32, 4⟩
  | .reserved5 => some ⟨32, 5⟩
  | .reserved6 => some ⟨32, 6⟩
  | .reserved7 => some ⟨32, 7⟩
  | .sig => some ⟨24, sigWord⟩
  | .level b => some ⟨8, b.toNat⟩
  | .magicData => some ⟨48, dataMagic⟩
  | .magicEos => some ⟨48, eosMagic⟩
  | .crcDataBlock c => some ⟨32, c.toNat⟩
  | .crcEndOfStream c => some ⟨32, c.toNat⟩
  | .rand r => some ⟨1, r.toNat⟩
  | .origptr p => some ⟨24, p.toNat⟩
  | .map1 m => some ⟨16, m.toNat⟩
  | .map2 u => some ⟨16, u.toNat⟩
  | .ngroups n => some ⟨3, n.toNat⟩
  | .nsel n => some ⟨15, n.toNat⟩
  | .sel j => some ⟨j + 1, 2 ^ (j + 1) - 2⟩
  | .lenStart t => some ⟨5, t.toNat⟩
  | .lenDeltaStop => some ⟨1, 0⟩
  | .lenDeltaInc => some ⟨2, 2⟩
  | .lenDeltaDec => some ⟨2, 3⟩
  | .symRunA | .symRunB | .symLiteral _ | .symEob
  | .readBits _ | .fetchByte | .readWide _ | .minmax | .permute | .temp | .limitBase | .symInit | .groupSwitch
  | .huffDecode | .runFlush | .origCheck | .bucketStart | .chainBuild | .chainSeed | .chainStep | .rle4
  | .emitPend | .emit _ | .blockEnd | .eosCheck _ | .drive | .errorEntry _ _ | .reset => none

/-- The place at which an element is read (R86). -/
def Instr.place : Instr → Pos
  | .sig => .sig
  | .level _ => .level
  | .magicData | .magicEos => .magic
  | .crcDataBlock _ => .crcData
  | .crcEndOfStream _ => .crcEos
  | .rand _ => .rand
  | .origptr _ => .origptr
  | .map1 _ => .map1
  | .map2 _ => .map2
  | .ngroups _ => .ngroups
  | .nsel _ => .nsel
  | .sel _ => .sel
  | .lenStart _ => .lenStart
  | .lenDeltaStop | .lenDeltaInc | .lenDeltaDec => .lenDelta
  | .nop | .start | .read | .drain | .release | .reserved5 | .reserved6 | .reserved7
  | .symRunA | .symRunB | .symLiteral _ | .symEob
  | .readBits _ | .fetchByte | .readWide _ | .minmax | .permute | .temp | .limitBase | .symInit | .groupSwitch
  | .huffDecode | .runFlush | .origCheck | .bucketStart | .chainBuild | .chainSeed | .chainStep | .rle4
  | .emitPend | .emit _ | .blockEnd | .eosCheck _ | .drive | .errorEntry _ _ | .reset => .idle

/-- Which of the two encodings a word of `spec/opcode_table.json` belongs to: the place of the bitstream element it is, or
none for a command word. A command word ignores its bits 31:3, so the two are told apart by the row's width and fixed
bits: SIG has 24 bits, LEVEL is a byte 0x30..0x3F, a magic has 48 bits. Log entry 12. -/
def tablePlace (nbits w : Nat) : Option Pos :=
  if nbits = 24 ∧ w = sigWord then some .sig
  else if nbits = 8 ∧ w / 16 = 3 then some .level
  else if nbits = 48 ∧ (w = dataMagic ∨ w = eosMagic) then some .magic
  else none

/-- The instruction the decoders read from a word numbered as `spec/opcode_table.json` numbers it. A bitstream element is
read most significant bit first, so its bits are the field of value `w`; a command word is the 32-bit value written to
CMD, the bits above `nbits` zero. -/
def decodeTableWord (nbits w : Nat) : Option Instr :=
  match tablePlace nbits w with
  | some p =>
    match decodeField ⟨p, 0, 0, 0, 0, 0⟩ ⟨nbits, w⟩ with
    | .run i => some i
    | _ => none
  | none => if nbits ≤ 32 then some (decodeCmd (BitVec.ofNat 32 w)) else none

end Sys2Proof
end

