-- ==== Sys2Proof/Machine/State.lean ====
section
/-! DEFINITION. The state of the core as plain data (R20 to R57), its reset value (R53), and the reasons a step can stop. -/

namespace Sys2Proof.Machine

/-- The control state (R21). Values 9..15 are never entered, so they have no name. -/
inductive Ctl where
  | idle | starting | blockHeader | symbols | bwt | output | paused | done | error
  deriving DecidableEq, Repr

/-- One token of the input port (R120). -/
inductive Token where
  | byte (b : Byte)
  | endOfInput
  | ioErr
  deriving DecidableEq, Repr

/-- The host's answer to a byte offered on the output port (R215). -/
inductive Answer where
  | accept
  | fail
  deriving DecidableEq, Repr

/-- One thing the host does (R260), or one turn it leaves to the core. Offsets are byte offsets of the register port and
`size` is the width of the access in bytes. -/
inductive HostAct where
  /-- the core takes one step -/
  | core
  | write (off size : Nat) (v : Word)
  | read (off size : Nat)
  /-- from now on the host presents these tokens, one for each request -/
  | offer (ts : List Token)
  /-- from now on the host gives these answers, one for each byte offered -/
  | answer (xs : List Answer)
  /-- the reset input -/
  | reset
  deriving DecidableEq, Repr

/-- An internal memory (R62) of entries `w` bits wide: the entries written since the last draw, by index. -/
abbrev Cells (w : Nat) := List (Nat × BitVec w)

/-- Why the machine stops with a fault. -/
inductive Fault where
  /-- A rule would use an index outside an internal memory of R62. Raised by every meaning that indexes a memory with a
  value its rule does not bound in every state. "A rule never uses an index outside a memory's range" (R11), so no run from
  reset raises it. SAFE. Log entry 8. -/
  | memRange (m : MemId) (i : Nat)
  deriving DecidableEq, Repr

/-- Why a step is refused. -/
inductive Refusal where
  /-- An instruction without a meaning yet: only an arm of `exec` could answer it, and none does. SAFE. -/
  | notModelled (mnemonic : String)
  /-- A register access that is not an aligned 32-bit access: "outside this spec: a model refuses it" (R61). Raised by the
  host's register access. SAFE. Log entry 9. -/
  | registerAccess (off size : Nat)
  /-- READ_BITS with a width outside 1..24 (R121), or READ_WIDE with a width other than 32 and 48 (R125): the spec gives no
  such operation and no rule calls one. Raised by those two meanings. SAFE. Log entry 10. -/
  | readWidth (n : Nat)
  deriving DecidableEq, Repr

/-- The whole state: the five parts of R20, the place in the current operation (R55), the two byte ports with the host's
side of them, and the counters of the free values. -/
structure State where
  -- (1) the control state and the command registers (R21 to R31)
  ctl : Ctl
  cmdRej : Bool
  errCode : ErrCode
  errStage : Stage
  len : Word
  mode : Bool
  limit : Word
  count : Word
  -- (2) the stream state (R45, R46)
  level : BitVec 4
  dbufSize : BitVec 20
  totalCrc : Word
  streamCrc : Word
  blocks : Word
  inBytes : Word
  outBytes : Word
  acc : BitVec 32
  accN : BitVec 5
  -- (3) the block header state (R47) and the group tables (R48)
  headerCrc : Word
  origPtr : BitVec 24
  symTotal : BitVec 9
  symToByte : Cells 8
  groupCount : BitVec 3
  nSel : BitVec 15
  selectors : Cells 3
  groupMtf : Cells 3
  minLen : Cells 5
  maxLen : Cells 5
  limitTab : Cells 32
  baseTab : Cells 32
  permute : Cells 9
  lengths : Cells 5
  temp : Cells 9
  -- (4) the symbol-decode state (R49, R50)
  mtfSym : Cells 8
  byteCount : Cells 20
  dbuf : Cells 32
  dbufCount : BitVec 20
  selIdx : BitVec 15
  gsymLeft : BitVec 6
  curGroup : BitVec 3
  runActive : Bool
  runPos : Nat
  runVal : Nat
  -- (5) the output state (R51)
  wPos : BitVec 24
  wCur : BitVec 9
  wRun : BitVec 3
  wRemain : BitVec 20
  pend : BitVec 8
  pendByte : Byte
  blkLoaded : Bool
  dataCrc : Word
  -- the place in the current operation and the working values of the rules (R55 b)
  pos : Pos
  fLen : Nat
  fVal : Nat
  mapUsed : BitVec 16
  lenT : BitVec 5
  loopI : Nat
  loopG : Nat
  loopS : Nat
  sym : BitVec 9
  -- the byte ports and the host (R60, R260)
  inPort : List Token
  outAns : List Answer
  out : List Byte
  host : List HostAct
  rdata : Word
  -- the free values drawn so far (R70, R301)
  draws : Nat
  epoch : Nat
  deriving DecidableEq, Repr

/-- The machine right after reset (R53, R300, R301), with a host that does nothing and nothing yet drawn. The registers
R53 leaves unspecified hold 0 (log entry 5), and so do the working values of the rules (log entry 6). -/
def State.reset : State where
  ctl := .idle
  cmdRej := false
  errCode := .none
  errStage := .none
  len := 0
  mode := false
  limit := 0
  count := 0
  level := 0
  dbufSize := 0
  totalCrc := 0
  streamCrc := 0
  blocks := 0
  inBytes := 0
  outBytes := 0
  acc := 0
  accN := 0
  headerCrc := 0
  origPtr := 0
  symTotal := 0
  symToByte := []
  groupCount := 0
  nSel := 0
  selectors := []
  groupMtf := []
  minLen := []
  maxLen := []
  limitTab := []
  baseTab := []
  permute := []
  lengths := []
  temp := []
  mtfSym := []
  byteCount := []
  dbuf := []
  dbufCount := 0
  selIdx := 0
  gsymLeft := 0
  curGroup := 0
  runActive := false
  runPos := 0
  runVal := 0
  wPos := 0
  wCur := 0
  wRun := 0
  wRemain := 0
  pend := 0
  pendByte := 0
  blkLoaded := false
  dataCrc := 0
  pos := .idle
  fLen := 0
  fVal := 0
  mapUsed := 0
  lenT := 0
  loopI := 0
  loopG := 0
  loopS := 0
  sym := 0
  inPort := []
  outAns := []
  out := []
  host := []
  rdata := 0
  draws := 1
  epoch := 0

end Sys2Proof.Machine
end

