-- ==== Sys2Proof/Machine/Ops.lean ====
section
/-! DEFINITION. The named operations every meaning is written with: the internal memories (R11, R62), the place in the
current operation, taking an error (R280) and leaving it, and the bit reader (R120 to R128). -/

namespace Sys2Proof.Machine

/-! ## What one operation answers -/

/-- The answer of an operation called by a rule. -/
inductive Act where
  /-- done: the calling rule goes on from here -/
  | go (s : State)
  /-- the step ends here: an error has been raised (R280) -/
  | halt (s : State)
  /-- the operation holds for the host: the whole step changes nothing (R12) -/
  | hold
  /-- an index outside an internal memory -/
  | fault (f : Fault)
  /-- an operation the spec does not have -/
  | refuse (r : Refusal)
  deriving DecidableEq, Repr

/-- The calling rule goes on with `k` where the operation is done. -/
def Act.bind (a : Act) (k : State → Act) : Act :=
  match a with
  | .go s => k s
  | .halt s => .halt s
  | .hold => .hold
  | .fault f => .fault f
  | .refuse r => .refuse r

/-- The operation carried out whole from the state `s0`, and nothing after it. A hold is before any change of state: the
answer is `s0` itself, whatever the operation had done by then (R12). -/
def Act.out (a : Act) (s0 : State) : Host.Outcome State Fault Refusal :=
  match a with
  | .go s => .next s
  | .halt s => .next s
  | .hold => .next s0
  | .fault f => .fault f
  | .refuse r => .refused r

/-- `k`, where the index `i` is inside the `n` entries of the memory `m` (R11, R62). -/
def guardIx (m : MemId) (n i : Nat) (k : Act) : Act :=
  if i < n then k else .fault (.memRange m i)

/-! ## The internal memories (R11, R62) -/

/-- The entry written at index `i` since the last draw. -/
def cellFind {w : Nat} : Cells w → Nat → Option (BitVec w)
  | [], _ => none
  | (j, v) :: m, i => if j = i then some v else cellFind m i

/-- `MemRead(M, i)`: the entry, or the free value drawn for it where no rule has written it (R301). -/
def memRead {w : Nat} (epoch : Nat) (id : MemId) (m : Cells w) (i : Nat) : BitVec w :=
  (cellFind m i).getD ((Config.freeMem epoch id i).setWidth w)

/-- `MemWrite(M, i, v)`, keeping the entries sorted by index. -/
def memWrite {w : Nat} : Cells w → Nat → BitVec w → Cells w
  | [], i, v => [(i, v)]
  | (j, u) :: m, i, v =>
    if j = i then (i, v) :: m
    else if i < j then (i, v) :: (j, u) :: m
    else (j, u) :: memWrite m i v

/-- `M[a] <- v0; M[a+1] <- v1; …` -/
def memWriteSeq {w : Nat} (m : Cells w) (a : Nat) : List (BitVec w) → Cells w
  | [] => m
  | v :: vs => memWriteSeq (memWrite m a v) (a + 1) vs

/-- The canonical form: indices strictly rising. An unlisted entry has no value of its own, so no listed entry can equal it. -/
def cellsSorted {w : Nat} : Cells w → Bool
  | [] => true
  | [_] => true
  | (i, _) :: (j, v) :: m => decide (i < j) && cellsSorted ((j, v) :: m)

/-- Every index of a two-dimensional table entry `[g][k]` of `n` columns (R48, R62). -/
def tableIx (n g k : Nat) : Nat := n * g + k

/-- Columns of a row of LIMIT and BASE: L = 1..20, and the unused column 0. -/
def lenColumns : Nat := Config.maxCodeBits + 1

/-- The values of a move-to-front list after its entry `j` is moved to the front (R143, R178):
`u <- M[j]; for k in j down to 1: M[k] <- M[k-1]; M[0] <- u`. -/
def moveToFront {w : Nat} (epoch : Nat) (id : MemId) (m : Cells w) (j : Nat) : Cells w :=
  memWriteSeq m 0 (memRead epoch id m j :: (List.range j).map (memRead epoch id m))

/-! ## The place in the current operation (R55) -/

/-- Go to the place `p`: nothing has been read there yet. -/
def goto (p : Pos) (s : State) : State :=
  { s with pos := p, fLen := 0, fVal := 0 }

/-- A busy state: STARTING, BLOCK_HEADER, SYMBOLS, BWT or OUTPUT (R21). -/
def Ctl.busy : Ctl → Bool
  | .starting | .blockHeader | .symbols | .bwt | .output => true
  | .idle | .paused | .done | .error => false

/-- SYM_TOTAL + 2, the size of the alphabet (R144). -/
def symCount (s : State) : Nat := s.symTotal.toNat + 2

/-! ## Errors (R270 to R284) -/

/-- `raise Error(code, stage)`: the one way an error is taken (R280). The command ends, so no place is left; nothing else
changes. -/
def raiseError (c : ErrCode) (st : Stage) (s : State) : State :=
  goto .idle { s with errCode := c, errStage := st, ctl := .error }

/-- Leaving ERROR clears the error record: START, RELEASE and reset do (R29, R283). -/
def clearError (s : State) : State :=
  { s with errCode := .none, errStage := .none }

/-- The stage of the element being read, "the calling rule's ERRSTAGE" (R121, R122, R278). The CRC field after any magic has
the stage HCRC (R133). At a place that reads no element there is no calling rule, and the spec names no stage: the model records
NONE there, which only FETCH_BYTE, READ_BITS or READ_WIDE run by itself can do (log entry 20). -/
def stageOf (s : State) : Stage :=
  match s.pos with
  | .sig => .sig
  | .level => .level
  | .magic => if s.fLen < 48 then .magic else .hcrc
  | .crcData | .crcEos => .hcrc
  | .rand => .rand
  | .origptr => .origptr
  | .map1 => .map1
  | .map2 => .map2
  | .ngroups => .ngroups
  | .nsel => .nsel
  | .sel => .sel
  | .lenStart | .lenDelta => .len
  | .huff => .huff
  | .idle | .eosCheck | .minmax | .permute | .temp | .limitBase | .symInit | .groupSwitch | .symbol | .origCheck
  | .bucketStart | .chainBuild | .chainSeed | .drive | .blockEnd | .emitPend | .chainStep => .none

/-! ## The bit reader (R120 to R128) -/

/-- What `FetchByte()` answers: the byte taken, no token presented yet, or an error raised. -/
inductive Fetched where
  | byte (b : Byte) (s : State)
  | hold
  | ended (s : State)
  deriving DecidableEq, Repr

/-- `FetchByte()` (R122). With no token presented it holds. -/
def fetchToken (s : State) : Fetched :=
  match s.inPort with
  | [] => .hold
  | .byte b :: ts => .byte b { s with inPort := ts, inBytes := s.inBytes + 1 }
  | .endOfInput :: ts => .ended (raiseError .unexpectedEof (stageOf s) { s with inPort := ts })
  | .ioErr :: ts => .ended (raiseError .ioError (stageOf s) { s with inPort := ts })

/-- The refill of R121: `ACC <- ((ACC << 8) | zext_32(b))[31:0]; ACC_N <- ACC_N + 8`. -/
def refillAcc (b : Byte) (s : State) : State :=
  { s with acc := (s.acc <<< 8) ||| b.setWidth 32, accN := s.accN + 8 }

/-- One turn of the refill loop of R121. -/
def refillOnce (s : State) : Act :=
  match fetchToken s with
  | .byte b s' => .go (refillAcc b s')
  | .hold => .hold
  | .ended s' => .halt s'

/-- `while ACC_N < n`, at most `fuel` turns. Three turns are enough for n <= 24. -/
def refill (n : Nat) : Nat → State → Act
  | 0, s => .go s
  | fuel + 1, s => if s.accN.toNat < n then (refillOnce s).bind (refill n fuel) else .go s

/-- `(ACC >> (ACC_N - n)) & ((1 << n) - 1)` (R121). -/
def accBits (n : Nat) (s : State) : Nat :=
  (s.acc.toNat >>> (s.accN.toNat - n)) % 2 ^ n

/-- The end of R121: the `n` bits leave the reader and are appended to the field being read (R64, R125). -/
def takeBits (n : Nat) (s : State) : State :=
  { s with
    accN := s.accN - BitVec.ofNat 5 n
    fLen := s.fLen + n
    fVal := s.fVal * 2 ^ n + accBits n s }

/-- `ReadBits(n)` for n in 1..24 (R121). -/
def readBits (n : Nat) (s : State) : Act :=
  if 1 ≤ n ∧ n ≤ Config.maxRead then (refill n 3 s).bind fun s' => .go (takeBits n s')
  else .refuse (.readWidth n)

end Sys2Proof.Machine
end

