-- ==== Sys2Proof/Machine/Flags.lean ====
section
/-! DEFINITION. The computed words: STATUS and BLOCK_INFO (R25 to R30, R40), the CRC-32 and the combined CRC (R215 to R217). -/

namespace Sys2Proof.Machine

/-- The 4-bit value of the control state (R21). -/
def Ctl.code : Ctl → BitVec 4
  | .idle => 0
  | .starting => 1
  | .blockHeader => 2
  | .symbols => 3
  | .bwt => 4
  | .output => 5
  | .paused => 6
  | .done => 7
  | .error => 8

/-- The 4-bit error code (R271). -/
def errCodeBits : ErrCode → BitVec 4
  | .none => 0
  | .notBzipData => 1
  | .dataError => 2
  | .obsoleteFormat => 3
  | .unexpectedEof => 4
  | .crcMismatch => 5
  | .ioError => 6

/-- The 5-bit stage code (R278). -/
def stageBits : Stage → BitVec 5
  | .none => 0
  | .sig => 1
  | .level => 2
  | .magic => 3
  | .hcrc => 4
  | .rand => 5
  | .origptr => 6
  | .map1 => 7
  | .map2 => 8
  | .ngroups => 9
  | .nsel => 10
  | .sel => 11
  | .len => 12
  | .symsel => 13
  | .huff => 14
  | .runFlush => 15
  | .literal => 16
  | .origchk => 17
  | .blockCrc => 18
  | .streamCrc => 19
  | .output => 20

/-- STATUS (R25): STATE 3:0, BUSY 4, DONE 5, ERR 6, CMD_REJ 7, ERRCODE 11:8, ERRSTAGE 16:12, BLK_LOADED 17, the rest 0. -/
def statusWord (s : State) : Word :=
  (0 : BitVec 14) ++ BitVec.ofBool s.blkLoaded ++ stageBits s.errStage ++ errCodeBits s.errCode ++
    BitVec.ofBool s.cmdRej ++ BitVec.ofBool (s.ctl == .error) ++ BitVec.ofBool (s.ctl == .done) ++
    BitVec.ofBool s.ctl.busy ++ s.ctl.code

/-- BLOCK_INFO (R40): SYM_TOTAL 8:0, GROUP_COUNT 11:9, N_SEL 26:12, the rest 0. -/
def blockInfoWord (s : State) : Word :=
  (0 : BitVec 5) ++ s.nSel ++ s.groupCount ++ s.symTotal

/-- `rotl32(v, 1)` (R10). -/
def rotl32One (v : Word) : Word := (v <<< 1) ||| (v >>> 31)

/-- One turn of the loop of R216, for the generator 0x04C11DB7. -/
def crcShift (c : Word) : Word :=
  if c.msb then (c <<< 1) ^^^ 0x04C11DB7 else c <<< 1

/-- `n` turns of the loop of R216. -/
def crcShifts : Nat → Word → Word
  | 0, c => c
  | n + 1, c => crcShifts n (crcShift c)

/-- `CRC_TABLE[i]`, the constant table of R52 and R216. -/
def crcTable (i : BitVec 8) : Word := crcShifts 8 (i.setWidth 32 <<< 24)

/-- The CRC after one more byte (R34, R215): `((crc << 8)[31:0]) ^ CRC_TABLE[(crc >> 24) ^ b]`. -/
def crcUpdate (crc : Word) (b : Byte) : Word :=
  (crc <<< 8) ^^^ crcTable ((crc >>> 24).setWidth 8 ^^^ b)

/-- The CRC of a list of bytes before the final complement, from a given start (R215, R221). -/
def crcBytes (crc : Word) : List Byte → Word
  | [] => crc
  | b :: bs => crcBytes (crcUpdate crc b) bs

/-- The combined CRC after one more block (R35, R217): `rotl32(total, 1) ^ crc`. -/
def combineCrc (total crc : Word) : Word := rotl32One total ^^^ crc

end Sys2Proof.Machine
end

