-- ==== Sys2Proof/Machine/Operands.lean ====
section
/-! DEFINITION. The operand forms of the core: the register port (R23 to R44, R60, R61, R69, R70), and the reads of an
internal memory by the rule's own indices. -/

namespace Sys2Proof.Machine

/-! ## The register port -/

/-- The value of the register at byte offset `off` while the core is not busy, and of STATUS always (R23 to R44, R69). Every
offset without a register reads 0 (R44). -/
def regValue (s : State) (off : Nat) : Word :=
  if off = 0x00 then 0
  else if off = 0x04 then s.len
  else if off = 0x08 then statusWord s
  else if off = 0x0C then s.count
  else if off = 0x10 then s.level.setWidth 32
  else if off = 0x14 then s.headerCrc
  else if off = 0x18 then s.dataCrc
  else if off = 0x1C then s.totalCrc
  else if off = 0x20 then s.streamCrc
  else if off = 0x24 then s.origPtr.setWidth 32
  else if off = 0x28 then s.dbufCount.setWidth 32
  else if off = 0x2C then blockInfoWord s
  else if off = 0x30 then s.blocks
  else if off = 0x34 then s.inBytes
  else if off = 0x38 then s.outBytes
  else if off = 0x3C then 0x425A6831
  else 0

/-- The only access of the register port is an aligned 32-bit access (R61). -/
def regAccessOk (off size : Nat) : Bool := decide (size = 4) && decide (off % 4 = 0)

/-- The host reads the register at `off` (R61, R68): the value goes to the host and nothing of the core changes. While
busy a register other than STATUS gives a fresh draw (R70, I1); an offset without a register still reads 0 (R44). -/
def readRegister (off : Nat) (s : State) : State :=
  if s.ctl.busy && decide (off ≠ 0x08) && decide (off < 0x40) then
    { s with rdata := Config.freeRead s.draws, draws := s.draws + 1 }
  else { s with rdata := regValue s off }

/-- The host writes `v` at `off`, CMD apart: LEN stores it, in any state; every other offset ignores it (R24, R44, R61). -/
def writeRegister (off : Nat) (v : Word) (s : State) : State :=
  if off = 0x04 then { s with len := v } else s

/-! ## Reads of the internal memories -/

/-- DBUF[i] (R50). -/
def dbufAt (s : State) (i : Nat) : Word := memRead s.epoch .dbuf s.dbuf i

/-- The byte of a DBUF word, `w[7:0]` (R99). -/
def wordByte (w : Word) : Byte := w.setWidth 8

/-- The next position of a DBUF word, `w[31:8]` (R99). -/
def wordNext (w : Word) : BitVec 24 := (w >>> 8).setWidth 24

/-- SYM_TO_BYTE[i] (R47). -/
def symToByteAt (s : State) (i : Nat) : Byte := memRead s.epoch .symToByte s.symToByte i

/-- SELECTORS[i] (R47). -/
def selectorAt (s : State) (i : Nat) : BitVec 3 := memRead s.epoch .selectors s.selectors i

/-- GROUP_MTF[k] (R47). -/
def groupMtfAt (s : State) (k : Nat) : BitVec 3 := memRead s.epoch .groupMtf s.groupMtf k

/-- MTF_SYM[i] (R49). -/
def mtfSymAt (s : State) (i : Nat) : BitVec 8 := memRead s.epoch .mtfSym s.mtfSym i

/-- BYTE_COUNT[c] (R49). -/
def byteCountAt (s : State) (c : Nat) : BitVec 20 := memRead s.epoch .byteCount s.byteCount c

/-- MIN_LEN[g] (R48). -/
def minLenAt (s : State) (g : Nat) : Nat := (memRead s.epoch .minLen s.minLen g).toNat

/-- MAX_LEN[g] (R48). -/
def maxLenAt (s : State) (g : Nat) : Nat := (memRead s.epoch .maxLen s.maxLen g).toNat

/-- LIMIT[g][L], signed (R48). -/
def limitAt (s : State) (g l : Nat) : Int := (memRead s.epoch .limit s.limitTab (tableIx lenColumns g l)).toInt

/-- BASE[g][L], unsigned (R48). -/
def baseAt (s : State) (g l : Nat) : Nat := (memRead s.epoch .base s.baseTab (tableIx lenColumns g l)).toNat

/-- PERMUTE[g][k] (R48). -/
def permuteAt (s : State) (g k : Nat) : BitVec 9 :=
  memRead s.epoch .permute s.permute (tableIx Config.maxSymbols g k)

/-- TEMP[L] (R48). -/
def tempAt (s : State) (l : Nat) : Nat := (memRead s.epoch .temp s.temp l).toNat

/-- LENGTH[i] (R48). -/
def lengthAt (s : State) (i : Nat) : Nat := (memRead s.epoch .length s.lengths i).toNat

/-- LENGTH[0..symCount-1] (R48). -/
def lengthList (s : State) : List Nat := (List.range (symCount s)).map (lengthAt s)

/-- What the decoder of the bitstream needs of the state (R97): the group is the one in use (R171), the length the one read. -/
def readCtx (s : State) : Ctx where
  pos := s.pos
  groupCount := s.groupCount.toNat
  lenT := s.lenT.toNat
  minLen := minLenAt s s.curGroup.toNat
  maxLen := maxLenAt s s.curGroup.toNat
  limit := limitAt s s.curGroup.toNat s.fLen

/-- The bits read so far of the element at the current place. -/
def fieldRead (s : State) : Field := ⟨s.fLen, s.fVal⟩

end Sys2Proof.Machine
end

