-- ==== Sys2Proof/Machine/BitReader.lean ====
section
/-! DEFINITION. The bit-field reader's operations: READ_BITS (R121), FETCH_BYTE (R122), READ_WIDE (R125). -/

namespace Sys2Proof.Machine

/-- READ_BITS: `ReadBits(n)` whole, its refills included; the bits go to the field being read (R121). With too few tokens
presented it holds, and then nothing has changed (R12). -/
def execReadBits (n : Nat) (s : State) : Host.Outcome State Fault Refusal :=
  (readBits n s).out s

/-- FETCH_BYTE: one input token, whose byte goes where its only caller, the refill loop of R121, puts it (R122). -/
def execFetchByte (s : State) : Host.Outcome State Fault Refusal :=
  (refillOnce s).out s

/-- READ_WIDE: a 48-bit field as 24 + 24 bits, a 32-bit field as 16 + 16, the first read more significant (R125). A hold
anywhere in the field leaves all of it unread (R12). -/
def execReadWide (m : Nat) (s : State) : Host.Outcome State Fault Refusal :=
  if m = 32 ∨ m = 48 then ((readBits (m / 2) s).bind (readBits (m / 2))).out s
  else .refused (.readWidth m)

end Sys2Proof.Machine
end

