-- ==== Sys2Proof/Machine/Chain.lean ====
section
/-! DEFINITION. The inverse BWT: origin check, bucket starts, successor chain, seed of the output walk (R200 to R206). -/

namespace Sys2Proof.Machine

/-- ORIG_CHECK: `ORIG_PTR < DBUF_COUNT` (R200). -/
def execOrigCheck (s : State) : Host.Outcome State Fault Refusal :=
  if s.dbufCount.toNat ≤ s.origPtr.toNat then .next (raiseError .dataError .origchk s)
  else .next (goto .bucketStart s)

/-- The loop of R201 over `k` byte values from `c` on, with the exact sum `acc`. -/
def bucketLoop : Nat → Nat → Nat → State → State
  | 0, _, _, s => s
  | k + 1, c, acc, s =>
    bucketLoop k (c + 1) (acc + (byteCountAt s c).toNat)
      { s with byteCount := memWrite s.byteCount c (BitVec.ofNat 20 acc) }

/-- BUCKET_START: BYTE_COUNT becomes its own prefix sums (R201). -/
def execBucketStart (s : State) : Host.Outcome State Fault Refusal :=
  .next (goto .chainBuild (bucketLoop 256 0 0 s))

/-- Position `i` goes into the next slot of its byte's bucket (R203). -/
def chainLink (i : Nat) (s : State) : Act :=
  let c := (wordByte (dbufAt s i)).toNat
  let j := (byteCountAt s c).toNat
  guardIx .dbuf Config.dbufWords j (.go { s with
    dbuf := memWrite s.dbuf j (dbufAt s j ||| (BitVec.ofNat 32 i <<< 8))
    byteCount := memWrite s.byteCount c (BitVec.ofNat 20 (j + 1)) })

/-- The loop of R203 over `k` positions from `i` on. -/
def chainLoop : Nat → Nat → State → Act
  | 0, _, s => .go s
  | k + 1, i, s => (chainLink i s).bind (chainLoop k (i + 1))

/-- CHAIN_BUILD: the successor chain (R203). -/
def execChainBuild (s : State) : Host.Outcome State Fault Refusal :=
  (guardIx .dbuf (Config.dbufWords + 1) s.dbufCount.toNat
    ((chainLoop s.dbufCount.toNat 0 s).bind fun s1 => .go (goto .chainSeed s1))).out s

/-- CHAIN_SEED: the output walk starts after the context byte (R204). -/
def execChainSeed (s : State) : Host.Outcome State Fault Refusal :=
  let w := dbufAt s s.origPtr.toNat
  (guardIx .dbuf Config.dbufWords s.origPtr.toNat (.go (goto .drive { s with
    wCur := (wordByte w).setWidth 9
    wPos := wordNext w
    wRun := BitVec.ofInt 3 (-1)
    wRemain := s.dbufCount
    pend := 0
    dataCrc := 0xFFFFFFFF
    blkLoaded := true
    ctl := .output }))).out s

end Sys2Proof.Machine
end

