-- ==== Sys2Proof/Machine/Control.lean ====
section
/-! DEFINITION. The control sequencer's own steps: DRIVE (R247), ERROR_ENTRY (R280), RESET (R300). -/

namespace Sys2Proof.Machine

/-- One turn of the loop of R247, its tests in its order: which engine runs next, or the READ pauses. -/
def driveTurn (s : State) : State :=
  if s.blkLoaded ∧ s.pend = 0 ∧ s.wRemain = 0 then goto .blockEnd { s with ctl := .output }
  else if s.mode ∧ s.count = s.limit then goto .idle { s with ctl := .paused }
  else if ¬ s.blkLoaded then goto .magic { s with ctl := .blockHeader }
  else if s.pend ≠ 0 then goto .emitPend { s with ctl := .output }
  else goto .chainStep { s with ctl := .output }

/-- DRIVE: one turn of the command loop of READ and DRAIN (R247). -/
def execDrive (s : State) : Host.Outcome State Fault Refusal :=
  .next (driveTurn s)

/-- ERROR_ENTRY: `raise Error(code, stage)` (R280). -/
def execErrorEntry (c : ErrCode) (st : Stage) (s : State) : Host.Outcome State Fault Refusal :=
  .next (raiseError c st s)

/-- Every register and field at its reset value (R53), the internal memories drawn anew (R301). What is outside the core
stays: the tokens and answers the host will give, the bytes already delivered, what the host still does. -/
def resetCore (s : State) : State :=
  { State.reset with
    inPort := s.inPort
    outAns := s.outAns
    out := s.out
    host := s.host
    rdata := s.rdata
    epoch := s.draws
    draws := s.draws + 1 }

/-- RESET: at any time; a held byte is not delivered and a held token not taken (R300). -/
def execReset (s : State) : Host.Outcome State Fault Refusal :=
  .next (resetCore s)

end Sys2Proof.Machine
end

