-- ==== Sys2Proof/Machine/Commands.lean ====
section
/-! DEFINITION. The host commands (R240 to R246). Each is accepted or refused by the table of R240; a refused command is a
defined outcome (R246). -/

namespace Sys2Proof.Machine

/-- A refused command sets STATUS.CMD_REJ and changes nothing else (R240). -/
def refuseCmd (s : State) : State := { s with cmdRej := true }

/-- READ and DRAIN are accepted in PAUSED and DONE only (R240). -/
def Ctl.acceptsRead : Ctl → Bool
  | .paused | .done => true
  | .idle | .starting | .blockHeader | .symbols | .bwt | .output | .error => false

/-- NOP: no effect, in any state (R241). -/
def execNop (s : State) : Host.Outcome State Fault Refusal :=
  .next s

/-- START: drop any old stream and read the stream header (R242). -/
def execStart (s : State) : Host.Outcome State Fault Refusal :=
  if s.ctl.busy then .next (refuseCmd s)
  else
    .next (goto .sig { clearError s with
      cmdRej := false
      accN := 0
      inBytes := 0
      outBytes := 0
      blocks := 0
      count := 0
      totalCrc := 0
      streamCrc := 0
      headerCrc := 0
      dataCrc := 0
      origPtr := 0
      dbufCount := 0
      symTotal := 0
      groupCount := 0
      nSel := 0
      level := 0
      dbufSize := 0
      blkLoaded := false
      pend := 0
      wRemain := 0
      ctl := .starting })

/-- READ: emit up to LEN bytes (R243, R250). The first turn of the loop belongs to the step that accepts the command, so
the core is busy as soon as it has (R251). -/
def execRead (s : State) : Host.Outcome State Fault Refusal :=
  if s.len ≠ 0 ∧ s.ctl.acceptsRead then
    let s1 := { s with cmdRej := false, mode := true, limit := s.len, count := 0 }
    if s1.ctl = .done then .next s1 else .next (driveTurn s1)
  else .next (refuseCmd s)

/-- DRAIN: emit the rest of the stream (R244, R250). -/
def execDrain (s : State) : Host.Outcome State Fault Refusal :=
  if s.ctl.acceptsRead then
    let s1 := { s with cmdRej := false, mode := false, count := 0 }
    if s1.ctl = .done then .next s1 else .next (driveTurn s1)
  else .next (refuseCmd s)

/-- RELEASE: drop the stream; every register and field gets its reset value, LEN included (R245). -/
def execRelease (s : State) : Host.Outcome State Fault Refusal :=
  if s.ctl.busy then .next (refuseCmd s) else .next (resetCore s)

/-- Reserved OP 5: refused in every state (R246). -/
def execReserved5 (s : State) : Host.Outcome State Fault Refusal :=
  .next (refuseCmd s)

/-- Reserved OP 6: refused in every state (R246). -/
def execReserved6 (s : State) : Host.Outcome State Fault Refusal :=
  .next (refuseCmd s)

/-- Reserved OP 7: refused in every state (R246). -/
def execReserved7 (s : State) : Host.Outcome State Fault Refusal :=
  .next (refuseCmd s)

end Sys2Proof.Machine
end

