-- ==== Sys2Proof/Machine/Header.lean ====
section
/-! DEFINITION. The elements of the stream header and of the block header (R130 to R145), each run on the field read for
it: the value stored, the check, the next element. -/

namespace Sys2Proof.Machine

/-- SIG: the three bytes were "BZh", so the level digit comes next (R130). Any other byte is no SIG: the decoder rejects
it and ERROR_ENTRY is run in its place. -/
def execSig (s : State) : Host.Outcome State Fault Refusal :=
  .next (goto .level s)

/-- LEVEL: check the digit, set LEVEL and DBUF_SIZE; the stream is open and START ends in PAUSED (R131, R132, R242). -/
def execLevel (b : Byte) (s : State) : Host.Outcome State Fault Refusal :=
  if b.toNat < 0x31 ∨ 0x39 < b.toNat then .next (raiseError .notBzipData .level s)
  else
    .next (goto .idle { s with
      level := BitVec.ofNat 4 (b.toNat - 0x30)
      dbufSize := BitVec.ofNat 20 (Config.dbufUnit * (b.toNat - 0x30))
      ctl := .paused })

/-- MAGIC.DATA: a data block; its CRC field comes next (R133). -/
def execMagicData (s : State) : Host.Outcome State Fault Refusal :=
  .next (goto .crcData s)

/-- MAGIC.EOS: the end-of-stream block; its CRC field comes next (R133). -/
def execMagicEos (s : State) : Host.Outcome State Fault Refusal :=
  .next (goto .crcEos s)

/-- CRC (data block): stored in HEADER_CRC unchanged (R33, R134). -/
def execCrcDataBlock (c : Word) (s : State) : Host.Outcome State Fault Refusal :=
  .next (goto .rand { s with headerCrc := c })

/-- CRC (end of stream): stored in STREAM_CRC before it is checked; the check comes next (R37, R219). -/
def execCrcEndOfStream (c : Word) (s : State) : Host.Outcome State Fault Refusal :=
  .next (goto .eosCheck { s with streamCrc := c })

/-- RAND: a randomised block is refused (R136, R274). -/
def execRand (r : BitVec 1) (s : State) : Host.Outcome State Fault Refusal :=
  if r = 1 then .next (raiseError .obsoleteFormat .rand s) else .next (goto .origptr s)

/-- ORIGPTR: stored unchecked (R137). -/
def execOrigptr (p : BitVec 24) (s : State) : Host.Outcome State Fault Refusal :=
  .next (goto .map1 { s with origPtr := p })

/-- The first group number `k >= i` of 16 byte values that MAP1 marks as used: bit `15 - k` is 1 (R88). -/
def nextUsedGroup (used : BitVec 16) (i : Nat) : Option Nat :=
  (List.range 16).find? fun k => decide (i ≤ k) && used.getLsbD (15 - k)

/-- After MAP1 or a MAP2: the MAP2 of the next used group, or NGROUPS when none is left (R139). -/
def gotoNextMap2 (i : Nat) (s : State) : State :=
  match nextUsedGroup s.mapUsed i with
  | some k => goto .map2 { s with loopI := k }
  | none => goto .ngroups s

/-- MAP1: `used <- …; SYM_TOTAL <- 0` (R138). -/
def execMap1 (m : BitVec 16) (s : State) : Host.Outcome State Fault Refusal :=
  .next (gotoNextMap2 0 { s with mapUsed := m, symTotal := 0 })

/-- The byte values one MAP2 field marks as used in group `i`, in increasing order (R88, R139). -/
def usedBytes (i : Nat) (u : BitVec 16) : List Byte :=
  ((List.range 16).filter fun j => u.getLsbD (15 - j)).map fun j => BitVec.ofNat 8 (16 * i + j)

/-- MAP2: append the group's used byte values to SYM_TO_BYTE (R139). -/
def execMap2 (u : BitVec 16) (s : State) : Host.Outcome State Fault Refusal :=
  let bytes := usedBytes s.loopI u
  (guardIx .symToByte 257 (s.symTotal.toNat + bytes.length) (.go (gotoNextMap2 (s.loopI + 1) { s with
    symToByte := memWriteSeq s.symToByte s.symTotal.toNat bytes
    symTotal := s.symTotal + BitVec.ofNat 9 bytes.length }))).out s

/-- NGROUPS: stored raw, then checked (R40, R140). -/
def execNgroups (n : BitVec 3) (s : State) : Host.Outcome State Fault Refusal :=
  let s1 := { s with groupCount := n }
  if n.toNat < Config.minGroups ∨ Config.maxGroups < n.toNat then .next (raiseError .dataError .ngroups s1)
  else .next (goto .nsel s1)

/-- `GROUP_MTF[c] <- c` for c in 0..GROUP_COUNT-1, before the first selector (R142). -/
def initGroupMtf (s : State) : State :=
  { s with groupMtf := memWriteSeq s.groupMtf 0 ((List.range s.groupCount.toNat).map (BitVec.ofNat 3)) }

/-- NSEL: stored raw, then checked (R141); the group MTF list starts from the identity (R142). -/
def execNsel (n : BitVec 15) (s : State) : Host.Outcome State Fault Refusal :=
  let s1 := { s with nSel := n }
  if n = 0 then .next (raiseError .dataError .nsel s1)
  else (guardIx .groupMtf (Config.maxGroups + 1) s1.groupCount.toNat
    (.go (goto .sel { initGroupMtf s1 with loopI := 0 }))).out s

/-- SEL: position `j` of the group MTF list is selector `i`, and moves to the front; after the last selector the code
lengths of group 0 come next (R143, R144). -/
def execSel (j : Nat) (s : State) : Host.Outcome State Fault Refusal :=
  if s.groupCount.toNat ≤ j then .next (raiseError .dataError .sel s)
  else (guardIx .groupMtf Config.maxGroups j <| guardIx .selectors Config.maxSelectors s.loopI <|
    let s1 := { s with
      groupMtf := moveToFront s.epoch .groupMtf s.groupMtf j
      selectors := memWrite s.selectors s.loopI (groupMtfAt s j)
      loopI := s.loopI + 1 }
    if s1.loopI < s1.nSel.toNat then .go (goto .sel s1)
    else .go (goto .lenStart { s1 with loopG := 0 })).out s

/-- LEN_START: `t <- ReadBits(5)`, unchecked; symbol 0 comes next (R144). -/
def execLenStart (t : BitVec 5) (s : State) : Host.Outcome State Fault Refusal :=
  .next (goto .lenDelta { s with lenT := t, loopS := 0 })

/-- The check of R145 before a delta code: `t` in 1..20. -/
def lenCheck (s : State) (k : Act) : Act :=
  if s.lenT.toNat < 1 ∨ Config.maxCodeBits < s.lenT.toNat then .halt (raiseError .dataError .len s) else k

/-- LEN_DELTA.STOP: `LENGTH[s] <- t`; the next symbol, or the group's tables after the last (R145, R146). -/
def execLenDeltaStop (s : State) : Host.Outcome State Fault Refusal :=
  (lenCheck s <| guardIx .length Config.maxSymbols s.loopS <|
    let s1 := { s with lengths := memWrite s.lengths s.loopS s.lenT, loopS := s.loopS + 1 }
    if s1.loopS < symCount s1 then .go (goto .lenDelta s1) else .go (goto .minmax s1)).out s

/-- LEN_DELTA.INC: `t <- t + 1` (R145). -/
def execLenDeltaInc (s : State) : Host.Outcome State Fault Refusal :=
  (lenCheck s (.go (goto .lenDelta { s with lenT := s.lenT + 1 }))).out s

/-- LEN_DELTA.DEC: `t <- t - 1` (R145). -/
def execLenDeltaDec (s : State) : Host.Outcome State Fault Refusal :=
  (lenCheck s (.go (goto .lenDelta { s with lenT := s.lenT - 1 }))).out s

end Sys2Proof.Machine
end

