-- ==== Sys2Proof/Machine/Output.lean ====
section
/-! DEFINITION. The output engine: chain walk, RLE-4, emit, block end, end of stream (R210 to R222). -/

namespace Sys2Proof.Machine

/-- The marker NONE of W_CUR, which equals no byte (R51). -/
def noByte : BitVec 9 := 0x100

/-- The first half of R211: one chain step fewer is left, and the walk follows the word's pointer. -/
def chainAdvance (s : State) : State :=
  { s with wRemain := s.wRemain - 1, wPos := wordNext (dbufAt s s.wPos.toNat) }

/-- R211 where W_RUN = 3, the case of R212: the chain byte is a count of extra copies of the byte before it. -/
def chainCount (s : State) : State :=
  { chainAdvance s with
    pend := wordByte (dbufAt s s.wPos.toNat)
    pendByte := s.wCur.setWidth 8
    wCur := noByte
    wRun := 0 }

/-- R211 where W_RUN is not 3: the chain byte is a byte of output, and the run of equal bytes is counted (R213). -/
def chainByte (s : State) : State :=
  let cur := (wordByte (dbufAt s s.wPos.toNat)).setWidth 9
  { chainAdvance s with
    pend := 1
    pendByte := cur.setWidth 8
    wRun := if cur = s.wCur then s.wRun + 1 else 0
    wCur := cur }

/-- CHAIN_STEP: follow the chain one position (R211). -/
def execChainStep (s : State) : Host.Outcome State Fault Refusal :=
  (guardIx .dbuf Config.dbufWords s.wPos.toNat
    (.go (goto .drive (if s.wRun = 3 then chainCount s else chainByte s)))).out s

/-- RLE4: the chain step that reads a count, after four equal bytes; where W_RUN is not 3 there is none (R212). -/
def execRle4 (s : State) : Host.Outcome State Fault Refusal :=
  if s.wRun = 3 then (guardIx .dbuf Config.dbufWords s.wPos.toNat (.go (goto .drive (chainCount s)))).out s
  else .next s

/-- `Emit(b)` (R215). With no answer given it holds; a Fail delivers nothing (R220). -/
def emitByte (b : Byte) (s : State) : Act :=
  match s.outAns with
  | [] => .hold
  | .accept :: xs => .go { s with outAns := xs, out := s.out ++ [b], dataCrc := crcUpdate s.dataCrc b }
  | .fail :: xs => .halt (raiseError .ioError .output { s with outAns := xs })

/-- EMIT: one byte on the output port and its CRC update (R215). -/
def execEmit (b : Byte) (s : State) : Host.Outcome State Fault Refusal :=
  (emitByte b s).out s

/-- EMIT_PEND: emit one pending copy and count it (R214). -/
def execEmitPend (s : State) : Host.Outcome State Fault Refusal :=
  ((emitByte s.pendByte s).bind fun s1 => .go (goto .drive { s1 with
    pend := s1.pend - 1
    count := s1.count + 1
    outBytes := s1.outBytes + 1 })).out s

/-- BLOCK_END: close the block and check its CRC (R217, R218). -/
def execBlockEnd (s : State) : Host.Outcome State Fault Refusal :=
  let s1 := { s with
    dataCrc := ~~~ s.dataCrc
    totalCrc := combineCrc s.totalCrc (~~~ s.dataCrc)
    blkLoaded := false }
  if s1.dataCrc ≠ s1.headerCrc then .next (raiseError .crcMismatch .blockCrc s1)
  else .next (goto .drive { s1 with blocks := s1.blocks + 1 })

/-- EOS_CHECK: `EosCheck(crc)`, the combined CRC (R219). -/
def execEosCheck (crc : Word) (s : State) : Host.Outcome State Fault Refusal :=
  let s1 := { s with streamCrc := crc }
  if crc ≠ s1.totalCrc then .next (raiseError .crcMismatch .streamCrc s1)
  else .next (goto .idle { s1 with ctl := .done })

end Sys2Proof.Machine
end

