-- ==== Sys2Proof/Machine/Symbols.lean ====
section
/-! DEFINITION. The symbol loop: group switch, codewords, runs and the move-to-front list (R170 to R182). -/

namespace Sys2Proof.Machine

/-- SYM_INIT: the start of symbol decoding (R170). -/
def execSymInit (s : State) : Host.Outcome State Fault Refusal :=
  .next (goto .groupSwitch { s with
    ctl := .symbols
    mtfSym := memWriteSeq s.mtfSym 0 ((List.range 256).map (BitVec.ofNat 8))
    byteCount := memWriteSeq s.byteCount 0 (List.replicate 256 0)
    dbufCount := 0
    selIdx := 0
    gsymLeft := 0
    runActive := false })

/-- GROUP_SWITCH: run before every symbol; at every 50th, from the first, the next selector names the group table (R171). -/
def execGroupSwitch (s : State) : Host.Outcome State Fault Refusal :=
  if s.gsymLeft = 0 then
    if s.nSel.toNat ≤ s.selIdx.toNat then .next (raiseError .dataError .symsel s)
    else .next (goto .huff { s with
      curGroup := selectorAt s s.selIdx.toNat
      selIdx := s.selIdx + 1
      gsymLeft := BitVec.ofNat 6 (Config.groupSize - 1) })
  else .next (goto .huff { s with gsymLeft := s.gsymLeft - 1 })

/-- The end of R172: `k <- v - BASE[g][L]`, its range check, and `sym <- PERMUTE[g][k]`. -/
def huffSymbol (s : State) : Act :=
  let g := s.curGroup.toNat
  let k : Int := (s.fVal : Int) - baseAt s g s.fLen
  if k < 0 ∨ (Config.maxSymbols : Int) ≤ k then .halt (raiseError .dataError .huff s)
  else .go (goto .symbol { s with sym := permuteAt s g k.toNat })

/-- The loop of R172 from the bits already read, at most `fuel` turns. The length read is an index of LIMIT and BASE: one
above 20 is outside them (R62; log entry 8). -/
def huffLoop : Nat → State → Act
  | 0, s => .go s
  | fuel + 1, s =>
    let g := s.curGroup.toNat
    guardIx .limit lenColumns s.fLen <|
    match decodeHuff (minLenAt s g) (maxLenAt s g) (limitAt s g s.fLen) (fieldRead s) with
    | .more n => (readBits n s).bind (huffLoop fuel)
    | .illegal c st => .halt (raiseError c st s)
    | .run _ => huffSymbol s
    | .wide _ => .go s

/-- HUFF_DECODE: one codeword of the current group, from the bits already read of it (R172). Its reads have the stage HUFF, so
they are done at the place of a codeword, wherever it is run. With too few tokens presented it
holds, and then nothing has changed (R12). -/
def execHuffDecode (s : State) : Host.Outcome State Fault Refusal :=
  (guardIx .minLen Config.maxGroups s.curGroup.toNat (huffLoop (Config.maxCodeBits + 2) { s with pos := .huff })).out s

/-- One run digit of weight `RUN_POS << d`, in exact arithmetic (R174, R175). -/
def runDigit (d : Nat) (s : State) : State :=
  let p := if s.runActive then s.runPos else 1
  let v := if s.runActive then s.runVal else 0
  { s with runActive := true, runVal := v + p * 2 ^ d, runPos := p * 2 }

/-- SYM.RUNA: symbol 0 (R174). -/
def execSymRunA (s : State) : Host.Outcome State Fault Refusal :=
  .next (goto .groupSwitch (runDigit 0 s))

/-- SYM.RUNB: symbol 1 (R175). -/
def execSymRunB (s : State) : Host.Outcome State Fault Refusal :=
  .next (goto .groupSwitch (runDigit 1 s))

/-- The byte at the front of the move-to-front list (R176). -/
def frontByte (s : State) : Byte := symToByteAt s (mtfSymAt s 0).toNat

/-- Append `n` copies of byte `b` to DBUF and count them (R176, R178). -/
def appendBytes (n : Nat) (b : Byte) (s : State) : State :=
  { s with
    byteCount := memWrite s.byteCount b.toNat (byteCountAt s b.toNat + BitVec.ofNat 20 n)
    dbuf := memWriteSeq s.dbuf s.dbufCount.toNat (List.replicate n (b.setWidth 32))
    dbufCount := s.dbufCount + BitVec.ofNat 20 n }

/-- `RunFlush()` (R176): nothing to do where no run is pending. -/
def runFlush (s : State) : Act :=
  if s.runActive then
    let s1 := { s with runActive := false }
    if s.dbufSize.toNat < s.dbufCount.toNat + s.runVal then .halt (raiseError .dataError .runFlush s1)
    else guardIx .dbuf (Config.dbufWords + 1) (s.dbufCount.toNat + s.runVal) (.go (appendBytes s.runVal (frontByte s1) s1))
  else .go s

/-- RUN_FLUSH: write out a finished run; the symbol that ended it is still to be acted on (R176). -/
def execRunFlush (s : State) : Host.Outcome State Fault Refusal :=
  (runFlush s).out s

/-- `Literal(sym)` (R178). -/
def literal (sym : Nat) (s : State) : Act :=
  if s.dbufSize.toNat ≤ s.dbufCount.toNat then .halt (raiseError .dataError .literal s)
  else guardIx .mtfSym 256 (sym - 1) <| guardIx .dbuf Config.dbufWords s.dbufCount.toNat <|
    .go (appendBytes 1 (symToByteAt s (mtfSymAt s (sym - 1)).toNat)
      { s with mtfSym := moveToFront s.epoch .mtfSym s.mtfSym (sym - 1) })

/-- SYM.LITERAL: flush a pending run, then the literal (R176, R178). -/
def execSymLiteral (sym : BitVec 9) (s : State) : Host.Outcome State Fault Refusal :=
  ((runFlush s).bind fun s1 => (literal sym.toNat s1).bind fun s2 => .go (goto .groupSwitch s2)).out s

/-- SYM.EOB: flush a pending run; the block's symbols end (R176, R177). -/
def execSymEob (s : State) : Host.Outcome State Fault Refusal :=
  ((runFlush s).bind fun s1 => .go (goto .origCheck { s1 with ctl := .bwt })).out s

end Sys2Proof.Machine
end

