-- ==== Sys2Proof/Machine/Tables.lean ====
section
/-! DEFINITION. The tables of one group, built from its code lengths (R146 to R151). The group is the one whose lengths
were just read. -/

namespace Sys2Proof.Machine

/-- The group being built is one of the six, and its alphabet fits LENGTH and PERMUTE (R62). -/
def tableGuard (s : State) (k : Act) : Act :=
  guardIx .minLen Config.maxGroups s.loopG <| guardIx .length (Config.maxSymbols + 1) (symCount s) k

/-- The least length of a list of 5-bit lengths. -/
def leastLen (ls : List Nat) : Nat := ls.foldl min 31

/-- The greatest length of a list. -/
def greatestLen (ls : List Nat) : Nat := ls.foldl max 0

/-- MINMAX: MIN_LEN[g] and MAX_LEN[g] (R146). -/
def execMinmax (s : State) : Host.Outcome State Fault Refusal :=
  (tableGuard s (.go (goto .permute { s with
    minLen := memWrite s.minLen s.loopG (BitVec.ofNat 5 (leastLen (lengthList s)))
    maxLen := memWrite s.maxLen s.loopG (BitVec.ofNat 5 (greatestLen (lengthList s))) }))).out s

/-- `lo, lo+1, …, hi`. -/
def lenRange (lo hi : Nat) : List Nat := (List.range (hi + 1 - lo)).map (lo + ·)

/-- The symbols of one length, in increasing order. -/
def symbolsOfLen (ls : List Nat) (l : Nat) : List Nat :=
  (ls.zipIdx.filter fun p => decide (p.1 = l)).map Prod.snd

/-- The symbols sorted by code length, ties broken by symbol value (R147). -/
def permOrder (ls : List Nat) (lo hi : Nat) : List Nat := (lenRange lo hi).flatMap (symbolsOfLen ls)

/-- PERMUTE: `PERMUTE[g][p]` for p = 0, 1, … (R147). -/
def execPermute (s : State) : Host.Outcome State Fault Refusal :=
  let order := permOrder (lengthList s) (minLenAt s s.loopG) (maxLenAt s s.loopG)
  (tableGuard s (.go (goto .temp { s with
    permute := memWriteSeq s.permute (tableIx Config.maxSymbols s.loopG 0) (order.map (BitVec.ofNat 9)) }))).out s

/-- `k`, where the length `l` is an index of the memory `m`: L is in 1..20, and column 0 is no entry (R48, R62; log entries 8
and 17). -/
def lenIx (m : MemId) (l : Nat) (k : Act) : Act :=
  if 1 ≤ l then guardIx m lenColumns l k else .fault (.memRange m l)

/-- MIN_LEN is an index of TEMP, and no length up to MAX_LEN is above the last (R48, R146). Where MAX_LEN is below MIN_LEN there
is no entry to index, so TEMP runs also on a MAX_LEN of 0. -/
def lenGuard (s : State) (k : Act) : Act :=
  lenIx .temp (minLenAt s s.loopG) <| guardIx .temp lenColumns (maxLenAt s s.loopG) k

/-- TEMP: the number of symbols of each length (R148). -/
def execTemp (s : State) : Host.Outcome State Fault Refusal :=
  let lo := minLenAt s s.loopG
  let counts := (lenRange lo (maxLenAt s s.loopG)).map fun l => BitVec.ofNat 9 (symbolsOfLen (lengthList s) l).length
  (tableGuard s <| lenGuard s (.go (goto .limitBase { s with temp := memWriteSeq s.temp lo counts }))).out s

/-- LIMIT[g][l] <- v (R48). -/
def setLimit (g l : Nat) (v : Int) (s : State) : State :=
  { s with limitTab := memWrite s.limitTab (tableIx lenColumns g l) (BitVec.ofInt 32 v) }

/-- BASE[g][l] <- v (R48). -/
def setBase (g l : Nat) (v : Int) (s : State) : State :=
  { s with baseTab := memWrite s.baseTab (tableIx lenColumns g l) (BitVec.ofInt 32 v) }

/-- The loop of R149 over `k` lengths from `l` on, with its exact integers `pp` and `hh`, and the two assignments after it. -/
def limitBaseLoop (g : Nat) : Nat → Nat → Int → Int → State → State
  | 0, _, pp, _, s => setBase g (minLenAt s g) 0 (setLimit g (maxLenAt s g) (pp + tempAt s (maxLenAt s g) - 1) s)
  | k + 1, l, pp, hh, s =>
    let pp1 := pp + tempAt s l
    let hh1 := hh + tempAt s l
    limitBaseLoop g k (l + 1) (2 * pp1) hh1 (setBase g (l + 1) (2 * pp1 - hh1) (setLimit g l (pp1 - 1) s))

/-- After a group's tables: the code lengths of the next group, or the symbols once every group is built (R144, R151). -/
def gotoNextGroup (s : State) : State :=
  if s.loopG + 1 < s.groupCount.toNat then goto .lenStart { s with loopG := s.loopG + 1 } else goto .symInit s

/-- LIMIT_BASE: the canonical decode tables (R149). It writes LIMIT at MAX_LEN in any case, so MAX_LEN is an index too: 0 stops
here (log entry 8). -/
def execLimitBase (s : State) : Host.Outcome State Fault Refusal :=
  let lo := minLenAt s s.loopG
  (tableGuard s <| lenGuard s <| lenIx .limit (maxLenAt s s.loopG)
    (.go (gotoNextGroup (limitBaseLoop s.loopG (maxLenAt s s.loopG - lo) lo 0 0 s)))).out s

end Sys2Proof.Machine
end

