-- ==== Sys2Proof/Machine/Dispatch.lean ====
section
/-! DEFINITION. The meaning of every operation of the opcode table: one arm per constructor of Instr. -/

namespace Sys2Proof.Machine

def exec (i : Instr) (s : State) : Host.Outcome State Fault Refusal :=
  match i with
  | .nop => Sys2Proof.Machine.execNop s
  | .start => Sys2Proof.Machine.execStart s
  | .read => Sys2Proof.Machine.execRead s
  | .drain => Sys2Proof.Machine.execDrain s
  | .release => Sys2Proof.Machine.execRelease s
  | .reserved5 => Sys2Proof.Machine.execReserved5 s
  | .reserved6 => Sys2Proof.Machine.execReserved6 s
  | .reserved7 => Sys2Proof.Machine.execReserved7 s
  | .sig => Sys2Proof.Machine.execSig s
  | .level b => Sys2Proof.Machine.execLevel b s
  | .magicData => Sys2Proof.Machine.execMagicData s
  | .magicEos => Sys2Proof.Machine.execMagicEos s
  | .crcDataBlock c => Sys2Proof.Machine.execCrcDataBlock c s
  | .crcEndOfStream c => Sys2Proof.Machine.execCrcEndOfStream c s
  | .rand r => Sys2Proof.Machine.execRand r s
  | .origptr p => Sys2Proof.Machine.execOrigptr p s
  | .map1 m => Sys2Proof.Machine.execMap1 m s
  | .map2 u => Sys2Proof.Machine.execMap2 u s
  | .ngroups n => Sys2Proof.Machine.execNgroups n s
  | .nsel n => Sys2Proof.Machine.execNsel n s
  | .sel j => Sys2Proof.Machine.execSel j s
  | .lenStart t => Sys2Proof.Machine.execLenStart t s
  | .lenDeltaStop => Sys2Proof.Machine.execLenDeltaStop s
  | .lenDeltaInc => Sys2Proof.Machine.execLenDeltaInc s
  | .lenDeltaDec => Sys2Proof.Machine.execLenDeltaDec s
  | .symRunA => Sys2Proof.Machine.execSymRunA s
  | .symRunB => Sys2Proof.Machine.execSymRunB s
  | .symLiteral sym => Sys2Proof.Machine.execSymLiteral sym s
  | .symEob => Sys2Proof.Machine.execSymEob s
  | .readBits n => Sys2Proof.Machine.execReadBits n s
  | .fetchByte => Sys2Proof.Machine.execFetchByte s
  | .readWide m => Sys2Proof.Machine.execReadWide m s
  | .minmax => Sys2Proof.Machine.execMinmax s
  | .permute => Sys2Proof.Machine.execPermute s
  | .temp => Sys2Proof.Machine.execTemp s
  | .limitBase => Sys2Proof.Machine.execLimitBase s
  | .symInit => Sys2Proof.Machine.execSymInit s
  | .groupSwitch => Sys2Proof.Machine.execGroupSwitch s
  | .huffDecode => Sys2Proof.Machine.execHuffDecode s
  | .runFlush => Sys2Proof.Machine.execRunFlush s
  | .origCheck => Sys2Proof.Machine.execOrigCheck s
  | .bucketStart => Sys2Proof.Machine.execBucketStart s
  | .chainBuild => Sys2Proof.Machine.execChainBuild s
  | .chainSeed => Sys2Proof.Machine.execChainSeed s
  | .chainStep => Sys2Proof.Machine.execChainStep s
  | .rle4 => Sys2Proof.Machine.execRle4 s
  | .emitPend => Sys2Proof.Machine.execEmitPend s
  | .emit b => Sys2Proof.Machine.execEmit b s
  | .blockEnd => Sys2Proof.Machine.execBlockEnd s
  | .eosCheck crc => Sys2Proof.Machine.execEosCheck crc s
  | .drive => Sys2Proof.Machine.execDrive s
  | .errorEntry c st => Sys2Proof.Machine.execErrorEntry c st s
  | .reset => Sys2Proof.Machine.execReset s

end Sys2Proof.Machine
end

