-- ==== Sys2Proof/Machine/Sequencer.lean ====
section
/-! DEFINITION. What runs next: the core's next operation, read from the place it is at and the bits it has read (R55,
R86, R182, R247), which operations run in one step (R206), and whose turn it is, the core's or the host's (R260). -/

namespace Sys2Proof.Machine

/-- `ReadBits(n)` comes next: a FETCH_BYTE step while the reader holds too few bits, then `i` (R121). Behind such a FETCH_BYTE
step the byte is counted and its bits are not yet returned, so the equations of R126 hold again only behind `i` (log entry
19). -/
def readStep (n : Nat) (i : Instr) (s : State) : Instr :=
  if s.accN.toNat < n then .fetchByte else i

/-- The next operation at a place where an element of the bitstream is read (R86, R97). A wide field is read as its two
`ReadBits` of half its width (R125), so that no step takes bytes and then holds (R12). -/
def nextElement (s : State) : Instr :=
  match decodeField (readCtx s) (fieldRead s) with
  | .run i => i
  | .more n => readStep n (.readBits n) s
  | .wide m => readStep (m / 2) (.readBits (m / 2)) s
  | .illegal c st => .errorEntry c st

/-- The next operation of a codeword (R172). Where the group or the length read lies outside the group tables, which no run
reaches, HUFF_DECODE is run and stops there (R62; log entry 8). -/
def nextCodeword (s : State) : Instr :=
  if s.curGroup.toNat < Config.maxGroups ∧ s.fLen < lenColumns then nextElement s else .huffDecode

/-- The rule that acts on a decoded symbol: a run digit, or the flush of a pending run and then the symbol's own (R182). -/
def nextSymbol (s : State) : Instr :=
  if s.sym = 0 then .symRunA
  else if s.sym = 1 then .symRunB
  else if s.runActive then .runFlush
  else if s.symTotal.toNat < s.sym.toNat then .symEob
  else .symLiteral s.sym

/-- The core's next operation, none when no command runs. -/
def nextInstr (s : State) : Option Instr :=
  match s.pos with
  | .idle => none
  | .sig | .level | .magic | .crcData | .crcEos | .rand | .origptr | .map1 | .map2 | .ngroups | .nsel | .sel
  | .lenStart | .lenDelta => some (nextElement s)
  | .huff => some (nextCodeword s)
  | .eosCheck => some (.eosCheck s.streamCrc)
  | .minmax => some .minmax
  | .permute => some .permute
  | .temp => some .temp
  | .limitBase => some .limitBase
  | .symInit => some .symInit
  | .groupSwitch => some .groupSwitch
  | .symbol => some (nextSymbol s)
  | .origCheck => some .origCheck
  | .bucketStart => some .bucketStart
  | .chainBuild => some .chainBuild
  | .chainSeed => some .chainSeed
  | .drive => some .drive
  | .blockEnd => some .blockEnd
  | .emitPend => some .emitPend
  | .chainStep => some (if s.wRun = 3 then .rle4 else .chainStep)

/-- The operations that run behind `i` in the same step: "Rules R200 to R204 run in one step with no hold and no point at which
the host can stop them" (R206). -/
def restOfStep (i : Instr) : List Instr :=
  if i = .origCheck then [.bucketStart, .chainBuild, .chainSeed]
  else if i = .bucketStart then [.chainBuild, .chainSeed]
  else if i = .chainBuild then [.chainSeed]
  else []

/-- Run these operations one after the other, as far as each is the core's next: an error ends them (R280). -/
def runOn : List Instr → State → Host.Outcome State Fault Refusal
  | [], s => .next s
  | i :: is, s =>
    if nextInstr s = some i then
      match exec i s with
      | .next t => runOn is t
      | o => o
    else .next s

/-- One step of R12 that starts with `i`: the operation, and behind it what R206 puts in the same step. -/
def runWhole (i : Instr) (s : State) : Host.Outcome State Fault Refusal :=
  match exec i s with
  | .next t => runOn (restOfStep i) t
  | o => o

/-- What a step does: run one operation, only change what is outside the core's operations, or refuse. -/
inductive Turn where
  | run (i : Instr) (s : State)
  | stay (s : State)
  | refuse (r : Refusal)
  deriving DecidableEq, Repr

/-- The core's turn: its next operation, or nothing where no command runs (R303). -/
def coreTurn (s : State) : Turn :=
  match nextInstr s with
  | some i => .run i s
  | none => .stay s

/-- The host's turn (R260): a write to CMD issues the command (R240), any other access of the register port acts at once
(R61), tokens and answers are what the host will give when asked, reset is the reset input (R300). -/
def hostTurn (a : HostAct) (s : State) : Turn :=
  match a with
  | .core => coreTurn s
  | .write off size v =>
    if regAccessOk off size then
      if off = 0 then .run (decodeCmd v) s else .stay (writeRegister off v s)
    else .refuse (.registerAccess off size)
  | .read off size =>
    if regAccessOk off size then .stay (readRegister off s) else .refuse (.registerAccess off size)
  | .offer ts => .stay { s with inPort := ts }
  | .answer xs => .stay { s with outAns := xs }
  | .reset => .run .reset s

/-- Whose turn it is: what the host does next, in its order, and the core's own turn once the host does nothing more (R9). -/
def nextTurn (s : State) : Turn :=
  match s.host with
  | [] => coreTurn s
  | a :: rest => hostTurn a { s with host := rest }

/-- Place a word of `spec/opcode_table.json` where the next step takes its instruction from: a command word as the host's
next act, a write to CMD; an element as the bits just read at its place, the core's turn next. Log entry 12. -/
def placeWord (s : State) (nbits w : Nat) : State :=
  match tablePlace nbits w with
  | some p =>
    { s with
      ctl := if p = .magic then .blockHeader else .starting
      pos := p
      fLen := nbits
      fVal := w
      host := .core :: s.host }
  | none => { s with host := .write 0 4 (BitVec.ofNat 32 w) :: s.host }

end Sys2Proof.Machine
end

