-- ==== Sys2Proof/Machine/Step.lean ====
section
/-! DEFINITION. One step of the machine: one operation of the core, or one thing the host does (R9, R12, R260). -/

namespace Sys2Proof.Machine

/-- One step (R12): an operation, with what runs in the same step behind it (R206), or a host's access of the register port. A
core that holds for the host, or has no command, steps to its own state unchanged. -/
def step (s : State) : Host.Outcome State Fault Refusal :=
  match nextTurn s with
  | .run i s' => runWhole i s'
  | .stay s' => .next s'
  | .refuse r => .refused r

/-- `s` with the word placed where `step` takes its next instruction from. -/
def State.withFetchWord (s : State) (nbits w : Nat) : State := placeWord s nbits w

end Sys2Proof.Machine
end

