-- ==== Sys2Proof/Safety.lean ====
section
/-! DEFINITION. What a sound state is, in the terms the claims use: the memories in canonical form, the place and the
control state in agreement, the error record, the size of DBUF, the move-to-front list, the byte counts. -/

namespace Sys2Proof.Machine

/-- A memory of `n` entries: indices strictly rising, all below `n` (R62). -/
def cellsWf {w : Nat} (n : Nat) (m : Cells w) : Bool :=
  cellsSorted m && m.all fun c => decide (c.1 < n)

/-- Every internal memory holds its canonical form, inside its size (R62). -/
def State.memWf (s : State) : Bool :=
  cellsWf Config.dbufWords s.dbuf && cellsWf 256 s.symToByte && cellsWf Config.maxSelectors s.selectors &&
  cellsWf Config.maxGroups s.groupMtf && cellsWf 256 s.mtfSym && cellsWf 256 s.byteCount &&
  cellsWf Config.maxGroups s.minLen && cellsWf Config.maxGroups s.maxLen &&
  cellsWf (lenColumns * Config.maxGroups) s.limitTab && cellsWf (lenColumns * Config.maxGroups) s.baseTab &&
  cellsWf (Config.maxSymbols * Config.maxGroups) s.permute && cellsWf Config.maxSymbols s.lengths &&
  cellsWf lenColumns s.temp

/-- The control state in which each place is (R21, R251); none for the place of a core that runs no command. -/
def placeCtl : Pos → Option Ctl
  | .idle => none
  | .sig | .level => some .starting
  | .magic | .crcData | .crcEos | .eosCheck | .rand | .origptr | .map1 | .map2 | .ngroups | .nsel | .sel | .lenStart
  | .lenDelta | .minmax | .permute | .temp | .limitBase | .symInit => some .blockHeader
  | .groupSwitch | .huff | .symbol => some .symbols
  | .origCheck | .bucketStart | .chainBuild | .chainSeed => some .bwt
  | .drive | .blockEnd | .emitPend | .chainStep => some .output

/-- The place agrees with the control state: a busy core is at a place of its control state, any other at none. -/
def State.placeWf (s : State) : Bool :=
  match placeCtl s.pos with
  | some c => s.ctl == c
  | none => !s.ctl.busy

/-- The error record is there in ERROR and nowhere else, and a stage is recorded with every code (R29, R30, R284). -/
def State.errWf (s : State) : Bool :=
  ((s.errCode != .none) == (s.ctl == .error)) && ((s.errStage != .none) == (s.errCode != .none))

/-- DBUF_SIZE = 100000 * LEVEL with LEVEL at most 9, and DBUF_COUNT never exceeds it (R32, R39); while the stream header is
read nothing is in DBUF. -/
def State.sizeWf (s : State) : Bool :=
  decide (s.level.toNat ≤ 9) && decide (s.dbufSize.toNat = Config.dbufUnit * s.level.toNat) &&
  decide (s.dbufCount.toNat ≤ s.dbufSize.toNat) && (!(s.ctl == .starting) || decide (s.dbufCount.toNat = 0))

/-- MTF_SYM[0..SYM_TOTAL-1] is a permutation of 0..SYM_TOTAL-1 while symbols are decoded (R179). -/
def State.mtfWf (s : State) : Prop :=
  s.symTotal.toNat ≤ 256 ∧
  (s.ctl = .symbols →
    (∀ k, k < s.symTotal.toNat → (mtfSymAt s k).toNat < s.symTotal.toNat) ∧
    ∀ k l, k < s.symTotal.toNat → l < s.symTotal.toNat → mtfSymAt s k = mtfSymAt s l → k = l)

/-- How many of the first `n` words of DBUF have the low byte `b`. -/
def bytesOf (s : State) (n : Nat) (b : Byte) : Nat :=
  ((List.range n).filter fun i => decide (wordByte (dbufAt s i) = b)).length

/-- While symbols are decoded, BYTE_COUNT[b] is the number of DBUF words with low byte `b`, and a word holds its byte and
zeros (R50, R180). -/
def State.countWf (s : State) : Prop :=
  s.ctl = .symbols →
    (∀ b : Byte, (byteCountAt s b.toNat).toNat = bytesOf s s.dbufCount.toNat b) ∧
    ∀ i, i < s.dbufCount.toNat → wordNext (dbufAt s i) = 0

/-- W_RUN takes the values -1, 0, 1, 2, 3 (R51, R213). -/
def State.runWf (s : State) : Bool := decide (-1 ≤ s.wRun.toInt)

/-- The number a list of bytes is read as, first byte most significant (R63, R64). -/
def bytesVal (bs : List Byte) : Nat := bs.foldl (fun a b => a * 256 + b.toNat) 0

/-- The unconsumed bits of the reader followed by `bs`, as one number (R45, R121). -/
def unreadVal (s : State) (bs : List Byte) : Nat :=
  (s.acc.toNat % 2 ^ s.accN.toNat) * 256 ^ bs.length + bytesVal bs

/-- The length of the run that a sequence of run digits encodes, `true` for RUNB, first digit first (R94). -/
def runLength : List Bool → Nat
  | [] => 0
  | d :: ds => (if d then 2 else 1) + 2 * runLength ds

/-- How many of the symbol-map bits `15, 14, …` before bit `15 - j` are 1 (R88). -/
def usedBefore (u : BitVec 16) (j : Nat) : Nat := ((List.range j).filter fun k => u.getLsbD (15 - k)).length

/-- The first codeword value of length `lo + k`, for `T l` symbols of each length `l`: F(lo) = 0, F(L+1) = 2 * (F(L) + T L) (R149). -/
def firstCode (T : Nat → Nat) (lo : Nat) : Nat → Nat
  | 0 => 0
  | k + 1 => 2 * (firstCode T lo k + T (lo + k))

/-- The number of symbols of the lengths `lo, …, lo + k - 1` (R149). -/
def symbolsBelow (T : Nat → Nat) (lo k : Nat) : Nat := ((List.range k).map fun i => T (lo + i)).sum

/-- The place of word `i` in the stable sort of the first `n` words of DBUF by their low byte (R202, R203). -/
def chainRank (s : State) (n i : Nat) : Nat :=
  ((List.range n).filter fun k => decide (wordByte (dbufAt s k) < wordByte (dbufAt s i))).length +
    bytesOf s i (wordByte (dbufAt s i))

/-- How many of the first `n` words of DBUF have a low byte below `c`: the start of byte `c`'s bucket (R201). -/
def bytesBelow (s : State) (n c : Nat) : Nat :=
  ((List.range n).filter fun i => decide ((wordByte (dbufAt s i)).toNat < c)).length

/-- Run the meanings of several operations one after the other, stopping at the first that gives no next state. -/
def execAll : List Instr → State → Host.Outcome State Fault Refusal
  | [], s => .next s
  | i :: is, s =>
    match exec i s with
    | .next t => execAll is t
    | o => o

/-- The transitions of R251 between control states, with staying and the reset input. -/
def ctlStep : Ctl → Ctl → Bool
  | _, .idle => true
  | .idle, .starting | .paused, .starting | .done, .starting | .error, .starting => true
  | .starting, .paused => true
  | .paused, .blockHeader | .paused, .output => true
  | .blockHeader, .symbols | .blockHeader, .done => true
  | .symbols, .bwt => true
  | .bwt, .output => true
  | .output, .blockHeader | .output, .paused => true
  | .starting, .error | .blockHeader, .error | .symbols, .error | .bwt, .error | .output, .error => true
  | a, b => a == b

end Sys2Proof.Machine
end

