-- ==== Sys2Proof/Certificates/Slice0/Obligations.lean ====
section
/-! DEFINITION. The claims for the provers. Each says what the core does by the rules of spec/ its docstring names. A state
update `{ s with … }` in a conclusion is the whole frame: every register, memory, port and counter it does not name is
unchanged. -/

open Sys2Proof Sys2Proof.Machine

/-! ## Encodings -/

/-- R84 to R97: every bitstream element, with its operand at every value, decodes from its own encoding at the place
where it is read. A selector code needs `j < GROUP_COUNT` (R90) and a delta code `t` in 1..20 (R91). -/
def Obligations.ElementDecodesToItself : Prop :=
  ∀ (ctx : Ctx) (i : Instr) (f : Field), encode i = some f → i.place ≠ .idle → ctx.pos = i.place →
    (∀ j, i = .sel j → j < ctx.groupCount) → (i.place = .lenDelta → 1 ≤ ctx.lenT ∧ ctx.lenT ≤ 20) →
    decodeField ctx f = .run i

/-- R81, R83: a command word decodes to its command whatever its reserved bits 31:3 hold. -/
def Obligations.CommandDecodesByOpAlone : Prop :=
  ∀ (i : Instr) (f : Field) (r : Nat), encode i = some f → i.place = .idle →
    decodeCmd (BitVec.ofNat 32 (f.val + 8 * r)) = i

/-- R97: while an element is only partly read, the decoder asks for more bits, never past the element's end. The signature is
read in whole bytes (R130), so of it 0, 8 or 16 bits have been read. -/
def Obligations.ReaderAsksForTheElementsBits : Prop :=
  ∀ (ctx : Ctx) (i : Instr) (f : Field) (m : Nat), encode i = some f → i.place ≠ .idle → ctx.pos = i.place →
    (∀ j, i = .sel j → j < ctx.groupCount) → (i.place = .lenDelta → 1 ≤ ctx.lenT ∧ ctx.lenT ≤ 20) → m < f.len →
    (i = .sig → m = 0 ∨ m = 8 ∨ m = 16) →
    ∃ n, 1 ≤ n ∧ m + n ≤ f.len ∧
      (decodeField ctx ⟨m, f.val / 2 ^ (f.len - m)⟩ = .more n ∨
        (m = 0 ∧ n = f.len ∧ decodeField ctx ⟨m, f.val / 2 ^ (f.len - m)⟩ = .wide n))

/-- R82, R85, R87, R90, R91: a few encodings written out. -/
def Obligations.WrittenOutWordsDecode : Prop :=
  decodeCmd 0x00000002 = .read ∧ decodeCmd 0xFFFFFFF9 = .start ∧
  decodeField ⟨.level, 0, 0, 0, 0, 0⟩ ⟨8, 0x39⟩ = .run (.level 0x39) ∧
  decodeField ⟨.magic, 0, 0, 0, 0, 0⟩ ⟨48, 0x314159265359⟩ = .run .magicData ∧
  decodeField ⟨.sel, 3, 0, 0, 0, 0⟩ ⟨3, 0b110⟩ = .run (.sel 2) ∧
  decodeField ⟨.lenDelta, 2, 4, 0, 0, 0⟩ ⟨2, 0b11⟩ = .run .lenDeltaDec

/-- R12, R55, R86, R182, R206, R240, R247: a step runs the operation decoded at the core's place, or the command the host
writes; a core that runs no command is left as it is. ORIG_CHECK, BUCKET_START, CHAIN_BUILD and CHAIN_SEED run in one step,
unless ORIG_CHECK ends in its error (R206). The rest is the model's reading of the rules. Around the operation a host's act is
only taken off the host's list (log entry 2). The list of operations is log entry 1. Log entry 11 makes FETCH_BYTE a step of its
own before READ_BITS, reads a wide field as two READ_BITS, runs ERROR_ENTRY for an illegal encoding, flushes a pending run by a
step of its own, and runs RLE4 as the chain step at W_RUN = 3. A codeword at a group or a length outside the tables is log
entry 8. -/
def Obligations.StepRunsTheDecodedOperation : Prop :=
  (∀ s : State,
    (s.host = [] → s.pos = .idle → step s = .next s) ∧
    (∀ rest v, s.host = .write 0 4 v :: rest → step s = exec (decodeCmd v) { s with host := rest }) ∧
    (∀ rest, s.host = .reset :: rest → step s = exec .reset { s with host := rest })) ∧
  (∀ s u : State, (s.host = [] ∧ u = s) ∨ (∃ rest, s.host = .core :: rest ∧ u = { s with host := rest }) →
    (∀ i, nextInstr u = some i → i ≠ .origCheck → i ≠ .bucketStart → i ≠ .chainBuild → step s = exec i u) ∧
    (u.pos = .origCheck → u.dbufCount.toNat ≤ u.origPtr.toNat → step s = exec .origCheck u) ∧
    (∀ a b c d, u.pos = .origCheck → u.origPtr.toNat < u.dbufCount.toNat → exec .origCheck u = .next a →
      exec .bucketStart a = .next b → exec .chainBuild b = .next c → exec .chainSeed c = .next d → step s = .next d)) ∧
  (∀ s : State,
    (s.pos ∈ [.sig, .level, .magic, .crcData, .crcEos, .rand, .origptr, .map1, .map2, .ngroups, .nsel, .sel,
        .lenStart, .lenDelta, .huff] → (s.pos = .huff → s.curGroup.toNat < 6 ∧ s.fLen ≤ 20) →
      (∀ i, decodeField (readCtx s) (fieldRead s) = .run i → nextInstr s = some i) ∧
      (∀ n, decodeField (readCtx s) (fieldRead s) = .more n →
        nextInstr s = some (if s.accN.toNat < n then .fetchByte else .readBits n)) ∧
      (∀ m, decodeField (readCtx s) (fieldRead s) = .wide m →
        nextInstr s = some (if s.accN.toNat < m / 2 then .fetchByte else .readBits (m / 2))) ∧
      (∀ c st, decodeField (readCtx s) (fieldRead s) = .illegal c st → nextInstr s = some (.errorEntry c st))) ∧
    (s.pos = .huff → 6 ≤ s.curGroup.toNat ∨ 20 < s.fLen → nextInstr s = some .huffDecode) ∧
    (s.pos = .symbol → nextInstr s = some
      (if s.sym = 0 then .symRunA else if s.sym = 1 then .symRunB else if s.runActive then .runFlush
        else if s.symTotal.toNat < s.sym.toNat then .symEob else .symLiteral s.sym)) ∧
    (s.pos = .idle → nextInstr s = none) ∧
    (s.pos = .eosCheck → nextInstr s = some (.eosCheck s.streamCrc)) ∧
    (s.pos = .chainStep → nextInstr s = some (if s.wRun = 3 then .rle4 else .chainStep)) ∧
    (∀ p i, (p, i) ∈ [(Pos.minmax, Instr.minmax), (.permute, .permute), (.temp, .temp), (.limitBase, .limitBase),
        (.symInit, .symInit), (.groupSwitch, .groupSwitch), (.origCheck, .origCheck), (.bucketStart, .bucketStart),
        (.chainBuild, .chainBuild), (.chainSeed, .chainSeed), (.drive, .drive), (.blockEnd, .blockEnd),
        (.emitPend, .emitPend)] → s.pos = p → nextInstr s = some i))

/-! ## Invariants that every step keeps -/

/-- R53, R62: the state after reset is sound in every sense the invariants below keep. W_RUN is in its range there because the
model gives it 0; R53 leaves it unspecified (log entry 5). -/
def Obligations.ResetStateIsSound : Prop :=
  State.reset.memWf = true ∧ State.reset.placeWf = true ∧ State.reset.errWf = true ∧ State.reset.sizeWf = true ∧
  State.reset.runWf = true ∧ State.reset.mtfWf ∧ State.reset.countWf

/-- R62, R74: every internal memory keeps its canonical form and never holds an entry outside its size. -/
def Obligations.MemoriesStayCanonical : Prop :=
  ∀ s t : State, s.memWf = true → step s = .next t → t.memWf = true

/-- R21, R55: a core in a busy state is at a place of that state, and a core in no busy state is at no place. R206: no step ends
between ORIG_CHECK and the end of CHAIN_SEED, so the host gets no turn there. -/
def Obligations.PlaceAgreesWithControlState : Prop :=
  ∀ s t : State, s.placeWf = true → step s = .next t →
    t.placeWf = true ∧
    (s.pos ∉ [.bucketStart, .chainBuild, .chainSeed] → t.pos ∉ [.bucketStart, .chainBuild, .chainSeed])

/-- R29, R30, R280, R283: the error record is there in ERROR and nowhere else, and its stage with its code. -/
def Obligations.ErrorRecordExactlyInError : Prop :=
  ∀ s t : State, s.placeWf = true → s.errWf = true → step s = .next t → t.errWf = true

/-- R32, R39: DBUF_SIZE = 100000 * LEVEL, and DBUF_COUNT never exceeds it. -/
def Obligations.BufferNeverExceedsItsSize : Prop :=
  ∀ s t : State, s.placeWf = true → s.sizeWf = true → step s = .next t → t.sizeWf = true

/-- R179: MTF_SYM[0..SYM_TOTAL-1] is a permutation of 0..SYM_TOTAL-1 at every point of symbol decoding. -/
def Obligations.MtfListStaysAPermutation : Prop :=
  ∀ s t : State, s.placeWf = true → s.mtfWf → step s = .next t → t.mtfWf

/-- R180: at every point of symbol decoding BYTE_COUNT[b] is the number of DBUF words with low byte b. -/
def Obligations.ByteCountsCountTheBuffer : Prop :=
  ∀ s t : State, s.placeWf = true → s.sizeWf = true → s.countWf → step s = .next t → t.countWf

/-- R51, R213: W_RUN takes the values -1, 0, 1, 2, 3 only. After RESET and RELEASE, where R53 leaves it unspecified, this rests
on the model's 0 (log entry 5). -/
def Obligations.RunCounterStaysInRange : Prop :=
  ∀ s t : State, s.runWf = true → step s = .next t → t.runWf = true

/-! ## Rules of the whole machine -/

/-- R251: the control state changes only by the transitions of the table, and a busy core becomes IDLE only by reset. -/
def Obligations.TransitionsAreOnlyThese : Prop :=
  ∀ s t : State, s.placeWf = true → step s = .next t →
    ctlStep s.ctl t.ctl = true ∧ (s.ctl.busy = true → t.ctl = .idle → ∃ rest, s.host = .reset :: rest)

/-- R249, R283: nothing leaves ERROR but START, RELEASE and reset; DONE is reached only by the end-of-stream check, with
the combined CRC matching. -/
def Obligations.ErrorLeftAndDoneReachedOnlySo : Prop :=
  ∀ s t : State, s.placeWf = true → step s = .next t →
    (s.ctl = .error → t.ctl ≠ .error →
      (∃ rest v, s.host = .write 0 4 v :: rest ∧ (decodeCmd v = .start ∨ decodeCmd v = .release)) ∨
        ∃ rest, s.host = .reset :: rest) ∧
    (s.ctl ≠ .done → t.ctl = .done → s.pos = .eosCheck ∧ s.streamCrc = s.totalCrc)

/-- R24, R122, R123, R214, R245: only the bit reader's operations take a token, only EMIT and EMIT_PEND deliver a byte, and
only RELEASE and RESET change LEN. -/
def Obligations.PortsAndLenOnlyByTheirOperations : Prop :=
  ∀ (i : Instr) (s t : State), exec i s = .next t →
    (t.inPort ≠ s.inPort → i = .fetchByte ∨ (∃ n, i = .readBits n) ∨ (∃ m, i = .readWide m) ∨ i = .huffDecode) ∧
    (t.out ≠ s.out ∨ t.outAns ≠ s.outAns → i = .emitPend ∨ ∃ b, i = .emit b) ∧
    (t.len ≠ s.len → i = .release ∨ i = .reset)

/-- R261: while the core is busy, no access of the register port changes anything of it but CMD_REJ and LEN. -/
def Obligations.HostCannotDisturbABusyCore : Prop :=
  ∀ (s t : State) (a : HostAct) (rest : List HostAct), s.ctl.busy = true → s.host = a :: rest →
    ((∃ off size v, a = .write off size v) ∨ ∃ off size, a = .read off size) → step s = .next t →
    t = { s with host := rest, cmdRej := t.cmdRej, len := t.len, rdata := t.rdata, draws := t.draws }

/-- R248, R253: a bounded READ and a DRAIN take the same steps. The mode and the limit have no effect on any step of the
core but the turn of the loop that pauses. -/
def Obligations.LimitOnlyDecidesPauses : Prop :=
  ∀ (s : State) (m : Bool) (l : Word), s.host = [] →
    (s.pos = .drive → ¬ (s.mode = true ∧ s.count = s.limit) ∧ ¬ (m = true ∧ s.count = l)) →
    step { s with mode := m, limit := l } =
      match step s with
      | .next t => .next { t with mode := m, limit := l }
      | .fault f => .fault f
      | .refused r => .refused r

/-- R12, R122, R215, R262: a core that waits for a token or for an answer does not change. -/
def Obligations.HeldCoreIsUnchanged : Prop :=
  ∀ s : State, s.host = [] →
    ((nextInstr s = some .fetchByte ∧ s.inPort = []) ∨ (s.pos = .emitPend ∧ s.outAns = [])) → step s = .next s

/-! ## The register port -/

/-- R24, R44, R61, R68, R69, R70: reads give the register, or a draw while busy, and change nothing of the core; only LEN
stores a write; any access that is not an aligned 32-bit access is refused. The register map of R69 is written out. That an
offset without a register reads 0 also while busy is the model's reading of R44 (log entry 14). -/
def Obligations.RegisterPortAccesses : Prop :=
  ∀ (s : State) (rest : List HostAct) (off size : Nat) (v : Word),
    (s.host = .read off 4 :: rest → off % 4 = 0 →
      ((s.ctl.busy = false ∨ off = 0x08) → step s = .next { s with host := rest, rdata := regValue s off }) ∧
      (s.ctl.busy = true → off ≠ 0x08 → off < 0x40 →
        ∃ x, step s = .next { s with host := rest, rdata := x, draws := s.draws + 1 }) ∧
      (0x40 ≤ off → step s = .next { s with host := rest, rdata := 0 })) ∧
    (s.host = .write off 4 v :: rest → off % 4 = 0 →
      (off = 0x04 → step s = .next { s with host := rest, len := v }) ∧
      (off ≠ 0x00 → off ≠ 0x04 → step s = .next { s with host := rest })) ∧
    ((s.host = .read off size :: rest ∨ s.host = .write off size v :: rest) → size ≠ 4 ∨ off % 4 ≠ 0 →
      step s = .refused (.registerAccess off size)) ∧
    (regValue s 0x00 = 0 ∧ regValue s 0x04 = s.len ∧ regValue s 0x08 = statusWord s ∧ regValue s 0x0C = s.count ∧
      regValue s 0x10 = s.level.setWidth 32 ∧ regValue s 0x14 = s.headerCrc ∧ regValue s 0x18 = s.dataCrc ∧
      regValue s 0x1C = s.totalCrc ∧ regValue s 0x20 = s.streamCrc ∧ regValue s 0x24 = s.origPtr.setWidth 32 ∧
      regValue s 0x28 = s.dbufCount.setWidth 32 ∧ regValue s 0x2C = blockInfoWord s ∧ regValue s 0x30 = s.blocks ∧
      regValue s 0x34 = s.inBytes ∧ regValue s 0x38 = s.outBytes ∧ regValue s 0x3C = 0x425A6831)

/-- R21, R25 to R30, R40, R271, R278: the fields of STATUS and of BLOCK_INFO stand at their bits. STATE reads 0 to 8, and the
numbers of the control states, the error codes and the stages are those of the tables. -/
def Obligations.StatusAndBlockInfoFields : Prop :=
  ∀ s : State,
    ((statusWord s).extractLsb' 0 4).toNat = (match s.ctl with
      | .idle => 0 | .starting => 1 | .blockHeader => 2 | .symbols => 3 | .bwt => 4 | .output => 5
      | .paused => 6 | .done => 7 | .error => 8) ∧
    (statusWord s).getLsbD 4 = decide (s.ctl ∈ [.starting, .blockHeader, .symbols, .bwt, .output]) ∧
    (statusWord s).getLsbD 5 = decide (s.ctl = .done) ∧
    (statusWord s).getLsbD 6 = decide (s.ctl = .error) ∧ (statusWord s).getLsbD 7 = s.cmdRej ∧
    ((statusWord s).extractLsb' 8 4).toNat = (match s.errCode with
      | .none => 0 | .notBzipData => 1 | .dataError => 2 | .obsoleteFormat => 3 | .unexpectedEof => 4
      | .crcMismatch => 5 | .ioError => 6) ∧
    ((statusWord s).extractLsb' 12 5).toNat = (match s.errStage with
      | .none => 0 | .sig => 1 | .level => 2 | .magic => 3 | .hcrc => 4 | .rand => 5 | .origptr => 6 | .map1 => 7
      | .map2 => 8 | .ngroups => 9 | .nsel => 10 | .sel => 11 | .len => 12 | .symsel => 13 | .huff => 14
      | .runFlush => 15 | .literal => 16 | .origchk => 17 | .blockCrc => 18 | .streamCrc => 19 | .output => 20) ∧
    (statusWord s).getLsbD 17 = s.blkLoaded ∧ (statusWord s).extractLsb' 18 14 = 0 ∧
    (blockInfoWord s).extractLsb' 0 9 = s.symTotal ∧ (blockInfoWord s).extractLsb' 9 3 = s.groupCount ∧
    (blockInfoWord s).extractLsb' 12 15 = s.nSel ∧ (blockInfoWord s).extractLsb' 27 5 = 0

/-! ## Commands, reset -/

/-- R240, R241, R246: the table of acceptance. A refused command sets CMD_REJ and changes nothing else, an accepted one
clears it, and NOP changes nothing. -/
def Obligations.CommandsAcceptedByTheTable : Prop :=
  ∀ s : State,
    exec .nop s = .next s ∧
    (s.ctl ∈ [.idle, .paused, .done, .error] →
      (∃ t, exec .start s = .next t ∧ t.cmdRej = false) ∧ ∃ t, exec .release s = .next t ∧ t.cmdRej = false) ∧
    (s.ctl ∈ [.starting, .blockHeader, .symbols, .bwt, .output] →
      exec .start s = .next { s with cmdRej := true } ∧ exec .release s = .next { s with cmdRej := true }) ∧
    (s.ctl ∈ [.paused, .done] →
      (s.len ≠ 0 → ∃ t, exec .read s = .next t ∧ t.cmdRej = false) ∧ ∃ t, exec .drain s = .next t ∧ t.cmdRej = false) ∧
    (s.len = 0 → exec .read s = .next { s with cmdRej := true }) ∧
    (s.ctl ∈ [.idle, .error, .starting, .blockHeader, .symbols, .bwt, .output] →
      exec .read s = .next { s with cmdRej := true } ∧ exec .drain s = .next { s with cmdRej := true }) ∧
    exec .reserved5 s = .next { s with cmdRej := true } ∧ exec .reserved6 s = .next { s with cmdRej := true } ∧
    exec .reserved7 s = .next { s with cmdRej := true }

/-- R128, R242, up to the stream header: START drops the old stream and empties the bit reader. That it keeps the internal
memories and the registers R242 does not name is the model's reading (log entry 15). -/
def Obligations.StartClearsTheStream : Prop :=
  ∀ s : State, s.ctl.busy = false →
    exec .start s = .next { s with
      cmdRej := false, accN := 0, inBytes := 0, outBytes := 0, blocks := 0, count := 0, totalCrc := 0, streamCrc := 0,
      headerCrc := 0, dataCrc := 0, origPtr := 0, dbufCount := 0, symTotal := 0, groupCount := 0, nSel := 0, level := 0,
      dbufSize := 0, errCode := .none, errStage := .none, blkLoaded := false, pend := 0, wRemain := 0,
      ctl := .starting, pos := .sig, fLen := 0, fVal := 0 }

/-- R130, R131, R132, R242: START on the four bytes of a stream header takes those four bytes and, after some number of steps,
ends in PAUSED. -/
def Obligations.StartOpensAStream : Prop :=
  ∀ (s : State) (d : Byte) (rest : List Token), s.ctl.busy = false → s.host = [.write 0 4 1] →
    s.inPort = [.byte 0x42, .byte 0x5A, .byte 0x68, .byte d] ++ rest → 0x31 ≤ d.toNat → d.toNat ≤ 0x39 →
    ∃ n t, Host.Core.run Sys2Proof.core n s = .next t ∧ t.ctl = .paused ∧ t.level.toNat = d.toNat - 0x30 ∧
      t.dbufSize.toNat = 100000 * (d.toNat - 0x30) ∧ t.inBytes = 4 ∧ t.accN = 0 ∧ t.inPort = rest ∧
      t.blkLoaded = false ∧ t.totalCrc = 0 ∧ t.errCode = .none ∧ t.cmdRej = false ∧ t.len = s.len

/-- R243, R244, R247: READ (with LEN latched) and DRAIN accepted in PAUSED clear COUNT and enter the command loop. That the
loop's first turn belongs to the accepting step, so that the core is busy at once, is the model's reading of R251 (log entry
13). -/
def Obligations.ReadAndDrainEnterTheLoop : Prop :=
  ∀ s : State, s.ctl = .paused →
    (s.len ≠ 0 → exec .read s = .next
      (if s.blkLoaded = false then { s with
          cmdRej := false, mode := true, limit := s.len, count := 0, ctl := .blockHeader, pos := .magic, fLen := 0, fVal := 0 }
        else { s with
          cmdRej := false, mode := true, limit := s.len, count := 0, ctl := .output, fLen := 0, fVal := 0
          pos := if s.pend = 0 ∧ s.wRemain = 0 then .blockEnd else if s.pend ≠ 0 then .emitPend else .chainStep })) ∧
    exec .drain s = .next
      (if s.blkLoaded = false then { s with
          cmdRej := false, mode := false, count := 0, ctl := .blockHeader, pos := .magic, fLen := 0, fVal := 0 }
        else { s with
          cmdRej := false, mode := false, count := 0, ctl := .output, fLen := 0, fVal := 0
          pos := if s.pend = 0 ∧ s.wRemain = 0 then .blockEnd else if s.pend ≠ 0 then .emitPend else .chainStep })

/-- R250: READ or DRAIN in DONE ends at once with COUNT = 0; no input is read and nothing is emitted. -/
def Obligations.ReadInDoneEndsAtOnce : Prop :=
  ∀ s : State, s.ctl = .done →
    (s.len ≠ 0 → exec .read s = .next { s with cmdRej := false, mode := true, limit := s.len, count := 0 }) ∧
    exec .drain s = .next { s with cmdRej := false, mode := false, count := 0 }

/-- R245, R300, R301: RESET in any state and RELEASE in one that is not busy give every register its reset value. The
registers R53 leaves unspecified get the model's value 0 (log entry 5), and so do the working values of the rules (log entry
6). That the ports, the bytes delivered and the host's list are outside the core and stay, and that the memories belong to a
new draw afterwards, is the model's reading (log entries 3 and 15). -/
def Obligations.ReleaseAndResetGiveResetValues : Prop :=
  ∀ s : State, ∃ t : State,
    exec .reset s = .next t ∧ (s.ctl.busy = false → exec .release s = .next t) ∧
    t = { State.reset with
      inPort := s.inPort, outAns := s.outAns, out := s.out, host := s.host, rdata := s.rdata, epoch := s.draws
      draws := s.draws + 1 } ∧
    (∀ off, regValue t off = regValue State.reset off) ∧ t.ctl = .idle

/-- R301 in register terms: after reset every register reads 0, ID its constant. -/
def Obligations.RegistersAfterReset : Prop :=
  ∀ off : Nat, regValue State.reset off = if off = 0x3C then 0x425A6831 else 0

/-! ## The bit reader -/

/-- R122, R275, R277, R278: one token of the input port: a byte is counted and shifted into ACC, End and IoErr raise their
errors with the stage of the element being read, MAGIC up to its 48th bit and HCRC behind it (R133), and with no token nothing
changes. That the step also does the refill of R121, its only caller, is the model's (log entry 11). -/
def Obligations.FetchByteTakesOneToken : Prop :=
  ∀ (s : State) (b : Byte) (ts : List Token),
    (s.inPort = [] → exec .fetchByte s = .next s) ∧
    (s.inPort = .byte b :: ts → exec .fetchByte s = .next { s with
      inPort := ts, inBytes := s.inBytes + 1, acc := (s.acc <<< 8) ||| b.setWidth 32, accN := s.accN + 8 }) ∧
    (∀ st : Stage,
      (s.pos, st) ∈ [(Pos.sig, Stage.sig), (.level, .level), (.crcData, .hcrc), (.crcEos, .hcrc), (.rand, .rand),
          (.origptr, .origptr), (.map1, .map1), (.map2, .map2), (.ngroups, .ngroups), (.nsel, .nsel), (.sel, .sel),
          (.lenStart, .len), (.lenDelta, .len), (.huff, .huff)] ∨
        (s.pos = .magic ∧ s.fLen < 48 ∧ st = .magic) ∨ (s.pos = .magic ∧ 48 ≤ s.fLen ∧ st = .hcrc) →
      (s.inPort = .endOfInput :: ts → exec .fetchByte s = .next { s with
        inPort := ts, errCode := .unexpectedEof, errStage := st, ctl := .error, pos := .idle, fLen := 0, fVal := 0 }) ∧
      (s.inPort = .ioErr :: ts → exec .fetchByte s = .next { s with
        inPort := ts, errCode := .ioError, errStage := st, ctl := .error, pos := .idle, fLen := 0, fVal := 0 }))

/-- R12, R63, R64, R121: `ReadBits(n)` gives the next n bits of the stream, the first bit most significant, and takes just the
bytes `bs` it needs. With too few tokens presented it holds and changes nothing (R12). A width outside 1..24 is no operation:
the model refuses it (log entry 10). -/
def Obligations.ReadBitsTakesTheNextBits : Prop :=
  ∀ (s : State) (n : Nat) (bs : List Byte) (rest : List Token),
    (1 ≤ n → n ≤ 24 → s.inPort = bs.map Token.byte ++ rest → n ≤ s.accN.toNat + 8 * bs.length →
      (bs ≠ [] → s.accN.toNat + 8 * (bs.length - 1) < n) →
      ∃ t, exec (.readBits n) s = .next t ∧
        t.fLen = s.fLen + n ∧
        t.fVal = s.fVal * 2 ^ n + unreadVal s bs / 2 ^ (s.accN.toNat + 8 * bs.length - n) ∧
        t.accN.toNat = s.accN.toNat + 8 * bs.length - n ∧
        unreadVal t [] = unreadVal s bs % 2 ^ (s.accN.toNat + 8 * bs.length - n) ∧
        t.inPort = rest ∧ t.inBytes = s.inBytes + BitVec.ofNat 32 bs.length ∧
        t = { s with
          inPort := t.inPort, inBytes := t.inBytes, acc := t.acc, accN := t.accN, fLen := t.fLen, fVal := t.fVal }) ∧
    (1 ≤ n → n ≤ 24 → s.inPort = bs.map Token.byte → s.accN.toNat + 8 * bs.length < n →
      exec (.readBits n) s = .next s) ∧
    (n < 1 ∨ 24 < n → exec (.readBits n) s = .refused (.readWidth n))

/-- R125: a 32-bit or 48-bit field read in two halves is the next 32 or 48 bits, with the bytes one read would take, whether
READ_WIDE reads it or two READ_BITS do. With too few tokens presented it holds and changes nothing (R12). Other widths are no
operation: the model refuses them (log entry 10). -/
def Obligations.WideReadEqualsOneRead : Prop :=
  ∀ (s : State) (m : Nat) (bs : List Byte) (rest : List Token),
    (m = 32 ∨ m = 48 → s.inPort = bs.map Token.byte ++ rest → m ≤ s.accN.toNat + 8 * bs.length →
      s.accN.toNat + 8 * (bs.length - 1) < m →
      ∃ t, exec (.readWide m) s = .next t ∧ execAll [.readBits (m / 2), .readBits (m / 2)] s = .next t ∧
        t.fLen = s.fLen + m ∧
        t.fVal = s.fVal * 2 ^ m + unreadVal s bs / 2 ^ (s.accN.toNat + 8 * bs.length - m) ∧
        t.accN.toNat = s.accN.toNat + 8 * bs.length - m ∧
        unreadVal t [] = unreadVal s bs % 2 ^ (s.accN.toNat + 8 * bs.length - m) ∧
        t.inPort = rest ∧ t.inBytes = s.inBytes + BitVec.ofNat 32 bs.length ∧
        t = { s with
          inPort := t.inPort, inBytes := t.inBytes, acc := t.acc, accN := t.accN, fLen := t.fLen, fVal := t.fVal }) ∧
    (m = 32 ∨ m = 48 → s.inPort = bs.map Token.byte → s.accN.toNat + 8 * bs.length < m →
      exec (.readWide m) s = .next s) ∧
    (m ≠ 32 → m ≠ 48 → exec (.readWide m) s = .refused (.readWidth m))

/-! ## The stream header and the block header -/

/-- R130, R131, R132: each signature byte is checked before the next is read: the first that differs is NotBzipData with stage
SIG. The whole signature leads to the level digit; the digit sets LEVEL and DBUF_SIZE and ends START in PAUSED; any other byte
is NotBzipData with stage LEVEL. That the error of an illegal signature is a step of its own, as is each byte taken, is the
model's reading (log entry 11). -/
def Obligations.SignatureAndLevel : Prop :=
  ∀ (s : State) (b : Byte),
    (s.pos = .sig →
      ((s.fLen = 8 ∧ s.fVal ≠ 0x42) ∨ (s.fLen = 16 ∧ s.fVal ≠ 0x425A) ∨ (s.fLen = 24 ∧ s.fVal ≠ 0x425A68) →
        nextInstr s = some (.errorEntry .notBzipData .sig) ∧
        exec (.errorEntry .notBzipData .sig) s = .next { s with
          errCode := .notBzipData, errStage := .sig, ctl := .error, pos := .idle, fLen := 0, fVal := 0 }) ∧
      (s.fLen = 0 ∨ (s.fLen = 8 ∧ s.fVal = 0x42) ∨ (s.fLen = 16 ∧ s.fVal = 0x425A) →
        nextInstr s = some (if s.accN.toNat < 8 then .fetchByte else .readBits 8)) ∧
      (s.fLen = 24 ∧ s.fVal = 0x425A68 → nextInstr s = some .sig)) ∧
    exec .sig s = .next { s with pos := .level, fLen := 0, fVal := 0 } ∧
    (0x31 ≤ b.toNat → b.toNat ≤ 0x39 → exec (.level b) s = .next { s with
      level := BitVec.ofNat 4 (b.toNat - 0x30), dbufSize := BitVec.ofNat 20 (100000 * (b.toNat - 0x30))
      ctl := .paused, pos := .idle, fLen := 0, fVal := 0 }) ∧
    (b.toNat < 0x31 ∨ 0x39 < b.toNat → exec (.level b) s = .next { s with
      errCode := .notBzipData, errStage := .level, ctl := .error, pos := .idle, fLen := 0, fVal := 0 })

/-- R133, R134, R136, R137: the magics, the stored block CRC, the randomised flag and the origin pointer. A magic that is
neither is reported after its CRC field has been read. -/
def Obligations.BlockHeaderFields : Prop :=
  ∀ (s : State) (c : Word) (p : BitVec 24) (v w : Nat) (ctx : Ctx),
    exec .magicData s = .next { s with pos := .crcData, fLen := 0, fVal := 0 } ∧
    exec .magicEos s = .next { s with pos := .crcEos, fLen := 0, fVal := 0 } ∧
    (ctx.pos = .magic → v ≠ 0x314159265359 → v ≠ 0x177245385090 →
      decodeField ctx ⟨48, v⟩ = .wide 32 ∧ decodeField ctx ⟨80, w⟩ = .illegal .notBzipData .magic) ∧
    exec (.crcDataBlock c) s = .next { s with headerCrc := c, pos := .rand, fLen := 0, fVal := 0 } ∧
    exec (.rand 1) s = .next { s with
      errCode := .obsoleteFormat, errStage := .rand, ctl := .error, pos := .idle, fLen := 0, fVal := 0 } ∧
    exec (.rand 0) s = .next { s with pos := .origptr, fLen := 0, fVal := 0 } ∧
    exec (.origptr p) s = .next { s with origPtr := p, pos := .map1, fLen := 0, fVal := 0 }

/-- R88, R138, R139: MAP1 clears SYM_TOTAL and names the used groups in order; each MAP2 appends its used byte values in
increasing order to SYM_TO_BYTE, and leaves every other entry. -/
def Obligations.MapsBuildTheAlphabet : Prop :=
  ∀ (s : State) (m u : BitVec 16),
    (∃ t, exec (.map1 m) s = .next t ∧ t.mapUsed = m ∧ t.symTotal = 0 ∧
      (m = 0 → t.pos = .ngroups) ∧
      (∀ k, k < 16 → m.getLsbD (15 - k) = true → (∀ l, l < k → m.getLsbD (15 - l) = false) →
        t.pos = .map2 ∧ t.loopI = k) ∧
      t = { s with mapUsed := t.mapUsed, symTotal := t.symTotal, pos := t.pos, loopI := t.loopI, fLen := 0, fVal := 0 }) ∧
    (s.symTotal.toNat + usedBefore u 16 ≤ 256 →
      ∃ t, exec (.map2 u) s = .next t ∧ t.symTotal.toNat = s.symTotal.toNat + usedBefore u 16 ∧
        (∀ j, j < 16 → u.getLsbD (15 - j) = true →
          symToByteAt t (s.symTotal.toNat + usedBefore u j) = BitVec.ofNat 8 (16 * s.loopI + j)) ∧
        (∀ e, e < s.symTotal.toNat ∨ s.symTotal.toNat + usedBefore u 16 ≤ e → symToByteAt t e = symToByteAt s e) ∧
        ((∀ k, s.loopI < k → k < 16 → s.mapUsed.getLsbD (15 - k) = false) → t.pos = .ngroups) ∧
        (∀ k, s.loopI < k → k < 16 → s.mapUsed.getLsbD (15 - k) = true →
          (∀ l, s.loopI < l → l < k → s.mapUsed.getLsbD (15 - l) = false) → t.pos = .map2 ∧ t.loopI = k) ∧
        t = { s with
          symToByte := t.symToByte, symTotal := t.symTotal, pos := t.pos, loopI := t.loopI, fLen := 0, fVal := 0 })

/-- R89, R140: the raw group count is stored before it is checked; 0, 1 and 7 are DataError. -/
def Obligations.GroupCountStoredThenChecked : Prop :=
  ∀ (s : State) (n : BitVec 3),
    (2 ≤ n.toNat → n.toNat ≤ 6 → exec (.ngroups n) s = .next { s with groupCount := n, pos := .nsel, fLen := 0, fVal := 0 }) ∧
    (n.toNat < 2 ∨ 6 < n.toNat → exec (.ngroups n) s = .next { s with
      groupCount := n, errCode := .dataError, errStage := .ngroups, ctl := .error, pos := .idle, fLen := 0, fVal := 0 })

/-- R141, R142: the raw selector count is stored before it is checked, 0 is DataError; the group list starts from the
identity. That R142 is part of this step is the model's (log entry 13). -/
def Obligations.SelectorCountStoredThenChecked : Prop :=
  ∀ (s : State) (n : BitVec 15),
    exec (.nsel 0) s = .next { s with
      nSel := 0, errCode := .dataError, errStage := .nsel, ctl := .error, pos := .idle, fLen := 0, fVal := 0 } ∧
    (n ≠ 0 → s.groupCount.toNat ≤ 6 →
      ∃ t, exec (.nsel n) s = .next t ∧
        (∀ c, c < s.groupCount.toNat → groupMtfAt t c = BitVec.ofNat 3 c) ∧
        (∀ c, s.groupCount.toNat ≤ c → groupMtfAt t c = groupMtfAt s c) ∧
        t = { s with nSel := n, groupMtf := t.groupMtf, loopI := 0, pos := .sel, fLen := 0, fVal := 0 })

/-- R143: the group at position j of the list becomes the selector and moves to the front; a code of GROUP_COUNT one-bits
is DataError. -/
def Obligations.SelectorMovesItsGroupToFront : Prop :=
  ∀ (s : State) (j : Nat),
    (j < s.groupCount.toNat → s.groupCount.toNat ≤ 6 → s.loopI < s.nSel.toNat →
      ∃ t, exec (.sel j) s = .next t ∧
        selectorAt t s.loopI = groupMtfAt s j ∧ (∀ e, e ≠ s.loopI → selectorAt t e = selectorAt s e) ∧
        groupMtfAt t 0 = groupMtfAt s j ∧ (∀ k, 1 ≤ k → k ≤ j → groupMtfAt t k = groupMtfAt s (k - 1)) ∧
        (∀ k, j < k → groupMtfAt t k = groupMtfAt s k) ∧
        t = { s with
          groupMtf := t.groupMtf, selectors := t.selectors, loopI := s.loopI + 1, fLen := 0, fVal := 0
          pos := if s.loopI + 1 < s.nSel.toNat then .sel else .lenStart
          loopG := if s.loopI + 1 < s.nSel.toNat then s.loopG else 0 }) ∧
    (s.groupCount.toNat ≤ j → exec (.sel j) s = .next { s with
      errCode := .dataError, errStage := .sel, ctl := .error, pos := .idle, fLen := 0, fVal := 0 }) ∧
    (∀ ctx : Ctx, ctx.pos = .sel → 1 ≤ ctx.groupCount →
      decodeField ctx ⟨ctx.groupCount, 2 ^ ctx.groupCount - 1⟩ = .illegal .dataError .sel)

/-- R144, R145: a group's code lengths: the start value, the stop that stores LENGTH[s], the steps by one. A length outside
1..20 is DataError before another bit is read; the meanings check it too, for a step run by itself (log entry 11). -/
def Obligations.CodeLengthsOfAGroup : Prop :=
  ∀ (s : State) (t0 : BitVec 5),
    exec (.lenStart t0) s = .next { s with lenT := t0, loopS := 0, pos := .lenDelta, fLen := 0, fVal := 0 } ∧
    (1 ≤ s.lenT.toNat → s.lenT.toNat ≤ 20 →
      (s.loopS < 258 → ∃ t, exec .lenDeltaStop s = .next t ∧
        lengthAt t s.loopS = s.lenT.toNat ∧ (∀ e, e ≠ s.loopS → lengthAt t e = lengthAt s e) ∧
        t = { s with
          lengths := t.lengths, loopS := s.loopS + 1, fLen := 0, fVal := 0
          pos := if s.loopS + 1 < s.symTotal.toNat + 2 then .lenDelta else .minmax }) ∧
      exec .lenDeltaInc s = .next { s with lenT := s.lenT + 1, pos := .lenDelta, fLen := 0, fVal := 0 } ∧
      exec .lenDeltaDec s = .next { s with lenT := s.lenT - 1, pos := .lenDelta, fLen := 0, fVal := 0 }) ∧
    (s.lenT.toNat < 1 ∨ 20 < s.lenT.toNat →
      (∀ i, i = .lenDeltaStop ∨ i = .lenDeltaInc ∨ i = .lenDeltaDec → exec i s = .next { s with
        errCode := .dataError, errStage := .len, ctl := .error, pos := .idle, fLen := 0, fVal := 0 }) ∧
      (s.pos = .lenDelta → nextInstr s = some (.errorEntry .dataError .len)))

/-! ## The group tables -/

/-- R146: MIN_LEN and MAX_LEN are the least and the greatest code length of the group, both in 1..20. -/
def Obligations.MinMaxAreTheExtremeLengths : Prop :=
  ∀ s : State, s.loopG < 6 → s.symTotal.toNat ≤ 256 → (∀ l ∈ lengthList s, 1 ≤ l ∧ l ≤ 20) →
    ∃ t, exec .minmax s = .next t ∧
      (∀ l ∈ lengthList s, minLenAt t s.loopG ≤ l ∧ l ≤ maxLenAt t s.loopG) ∧
      minLenAt t s.loopG ∈ lengthList s ∧ maxLenAt t s.loopG ∈ lengthList s ∧
      1 ≤ minLenAt t s.loopG ∧ minLenAt t s.loopG ≤ maxLenAt t s.loopG ∧ maxLenAt t s.loopG ≤ 20 ∧
      (∀ g, g ≠ s.loopG → minLenAt t g = minLenAt s g ∧ maxLenAt t g = maxLenAt s g) ∧
      t = { s with minLen := t.minLen, maxLen := t.maxLen, pos := .permute, fLen := 0, fVal := 0 }

/-- R147: PERMUTE[g][0..symCount-1] holds every symbol once, sorted by code length and then by symbol number. -/
def Obligations.PermuteSortsTheSymbols : Prop :=
  ∀ s : State, s.loopG < 6 → s.symTotal.toNat ≤ 256 →
    (∀ l ∈ lengthList s, minLenAt s s.loopG ≤ l ∧ l ≤ maxLenAt s s.loopG) →
    ∃ t, exec .permute s = .next t ∧
      (∀ p, p < s.symTotal.toNat + 2 → (permuteAt t s.loopG p).toNat < s.symTotal.toNat + 2) ∧
      (∀ p q, p < q → q < s.symTotal.toNat + 2 →
        lengthAt s (permuteAt t s.loopG p).toNat < lengthAt s (permuteAt t s.loopG q).toNat ∨
        (lengthAt s (permuteAt t s.loopG p).toNat = lengthAt s (permuteAt t s.loopG q).toNat ∧
          (permuteAt t s.loopG p).toNat < (permuteAt t s.loopG q).toNat)) ∧
      (∀ g k, k < 258 → g ≠ s.loopG ∨ s.symTotal.toNat + 2 ≤ k → permuteAt t g k = permuteAt s g k) ∧
      t = { s with permute := t.permute, pos := .temp, fLen := 0, fVal := 0 }

/-- R148: TEMP[L] is the number of symbols of length L, for every L in MIN_LEN..MAX_LEN. -/
def Obligations.TempCountsTheLengths : Prop :=
  ∀ s : State, s.loopG < 6 → s.symTotal.toNat ≤ 256 → 1 ≤ minLenAt s s.loopG → minLenAt s s.loopG ≤ 20 →
    maxLenAt s s.loopG ≤ 20 →
    ∃ t, exec .temp s = .next t ∧
      (∀ l, minLenAt s s.loopG ≤ l → l ≤ maxLenAt s s.loopG → tempAt t l = (lengthList s).count l) ∧
      (∀ l, l < minLenAt s s.loopG ∨ maxLenAt s s.loopG < l → tempAt t l = tempAt s l) ∧
      t = { s with temp := t.temp, pos := .limitBase, fLen := 0, fVal := 0 }

/-- R149, R173: LIMIT and BASE follow the canonical derivation, and wherever decoding stops with a value v at a length L, the
index v - BASE[g][L] is one of the symCount entries of PERMUTE. -/
def Obligations.CanonicalTablesIndexPermute : Prop :=
  ∀ s : State, s.loopG < 6 → s.symTotal.toNat ≤ 256 →
    1 ≤ minLenAt s s.loopG → minLenAt s s.loopG ≤ maxLenAt s s.loopG → maxLenAt s s.loopG ≤ 20 →
    symbolsBelow (tempAt s) (minLenAt s s.loopG) (maxLenAt s s.loopG + 1 - minLenAt s s.loopG) = s.symTotal.toNat + 2 →
    ∃ t, exec .limitBase s = .next t ∧
      (∀ k, minLenAt s s.loopG + k ≤ maxLenAt s s.loopG →
        limitAt t s.loopG (minLenAt s s.loopG + k) =
          (firstCode (tempAt s) (minLenAt s s.loopG) k : Int) + tempAt s (minLenAt s s.loopG + k) - 1 ∧
        baseAt t s.loopG (minLenAt s s.loopG + k) + symbolsBelow (tempAt s) (minLenAt s s.loopG) k =
          firstCode (tempAt s) (minLenAt s s.loopG) k) ∧
      (∀ l v : Nat, minLenAt s s.loopG ≤ l → l ≤ maxLenAt s s.loopG → (v : Int) ≤ limitAt t s.loopG l →
        (minLenAt s s.loopG < l → limitAt t s.loopG (l - 1) < ((v / 2 : Nat) : Int)) →
        baseAt t s.loopG l ≤ v ∧ v < baseAt t s.loopG l + (s.symTotal.toNat + 2)) ∧
      (∀ g l, l ≤ 20 → g ≠ s.loopG ∨ l < minLenAt s s.loopG ∨ maxLenAt s s.loopG < l →
        limitAt t g l = limitAt s g l ∧ baseAt t g l = baseAt s g l) ∧
      t = { s with
        limitTab := t.limitTab, baseTab := t.baseTab, fLen := 0, fVal := 0
        pos := if s.loopG + 1 < s.groupCount.toNat then .lenStart else .symInit
        loopG := if s.loopG + 1 < s.groupCount.toNat then s.loopG + 1 else s.loopG }

/-! ## The symbols -/

/-- R170: symbol decoding starts from the identity list, zero counts and an empty buffer. -/
def Obligations.SymbolDecodingStartsFresh : Prop :=
  ∀ s : State, ∃ t, exec .symInit s = .next t ∧
    (∀ k, k < 256 → mtfSymAt t k = BitVec.ofNat 8 k ∧ byteCountAt t k = 0) ∧
    t = { s with
      ctl := .symbols, mtfSym := t.mtfSym, byteCount := t.byteCount, dbufCount := 0, selIdx := 0, gsymLeft := 0
      runActive := false, pos := .groupSwitch, fLen := 0, fVal := 0 }

/-- R171: the next selector is used at every 50th symbol, from the first; a missing one is DataError before any bit of the
symbol is read. -/
def Obligations.GroupSwitchesEveryFiftySymbols : Prop :=
  ∀ s : State,
    (s.gsymLeft ≠ 0 → exec .groupSwitch s = .next { s with gsymLeft := s.gsymLeft - 1, pos := .huff, fLen := 0, fVal := 0 }) ∧
    (s.gsymLeft = 0 → s.selIdx.toNat < s.nSel.toNat → exec .groupSwitch s = .next { s with
      curGroup := selectorAt s s.selIdx.toNat, selIdx := s.selIdx + 1, gsymLeft := 49, pos := .huff, fLen := 0, fVal := 0 }) ∧
    (s.gsymLeft = 0 → s.nSel.toNat ≤ s.selIdx.toNat → exec .groupSwitch s = .next { s with
      errCode := .dataError, errStage := .symsel, ctl := .error, pos := .idle, fLen := 0, fVal := 0 })

/-- R172: the first read of a codeword is MIN_LEN bits; the codeword stops at the first length whose LIMIT it does not exceed
and names its symbol, unless its index into PERMUTE is below 0 or at 258 and above, which is DataError; above LIMIT at MAX_LEN it
is DataError with no bit read; below MAX_LEN one more bit is read. That HUFF_DECODE runs on the bits already read, and that each
read is a READ_BITS step with its FETCH_BYTE steps before it, is the model's reading (log entry 11). A length above 20 stops
HUFF_DECODE (log entry 8). -/
def Obligations.CodewordNamesItsSymbol : Prop :=
  ∀ s : State, s.curGroup.toNat < 6 →
    (s.pos = .huff → s.fLen = 0 → nextInstr s = some
      (if s.accN.toNat < minLenAt s s.curGroup.toNat then .fetchByte else .readBits (minLenAt s s.curGroup.toNat))) ∧
    (s.fLen ≠ 0 → s.fLen ≤ 20 → (s.fVal : Int) ≤ limitAt s s.curGroup.toNat s.fLen →
      (baseAt s s.curGroup.toNat s.fLen ≤ s.fVal → s.fVal < baseAt s s.curGroup.toNat s.fLen + 258 →
        exec .huffDecode s = .next { s with
          sym := permuteAt s s.curGroup.toNat (s.fVal - baseAt s s.curGroup.toNat s.fLen), pos := .symbol, fLen := 0, fVal := 0 }) ∧
      (s.fVal < baseAt s s.curGroup.toNat s.fLen ∨ baseAt s s.curGroup.toNat s.fLen + 258 ≤ s.fVal →
        exec .huffDecode s = .next { s with
          errCode := .dataError, errStage := .huff, ctl := .error, pos := .idle, fLen := 0, fVal := 0 })) ∧
    (s.fLen ≠ 0 → s.fLen ≤ 20 → limitAt s s.curGroup.toNat s.fLen < (s.fVal : Int) →
      (s.fLen = maxLenAt s s.curGroup.toNat → exec .huffDecode s = .next { s with
        errCode := .dataError, errStage := .huff, ctl := .error, pos := .idle, fLen := 0, fVal := 0 }) ∧
      (s.fLen ≠ maxLenAt s s.curGroup.toNat → s.pos = .huff →
        nextInstr s = some (if s.accN.toNat < 1 then .fetchByte else .readBits 1))) ∧
    (20 < s.fLen → exec .huffDecode s = .fault (.memRange .limit s.fLen))

/-- R174, R175: a run digit adds RUN_POS or 2 * RUN_POS to the run, and RUN_POS doubles. -/
def Obligations.RunDigitsAccumulate : Prop :=
  ∀ s : State,
    (s.runActive = false →
      exec .symRunA s = .next { s with runActive := true, runVal := 1, runPos := 2, pos := .groupSwitch, fLen := 0, fVal := 0 } ∧
      exec .symRunB s = .next { s with runActive := true, runVal := 2, runPos := 2, pos := .groupSwitch, fLen := 0, fVal := 0 }) ∧
    (s.runActive = true →
      exec .symRunA s = .next { s with
        runVal := s.runVal + s.runPos, runPos := s.runPos * 2, pos := .groupSwitch, fLen := 0, fVal := 0 } ∧
      exec .symRunB s = .next { s with
        runVal := s.runVal + s.runPos * 2, runPos := s.runPos * 2, pos := .groupSwitch, fLen := 0, fVal := 0 })

/-- R94: a sequence of run digits leaves in RUN_VAL the length it encodes, the sum of w(d_i) * 2^i; every length from 1 on has
exactly one encoding, and none gives 0. -/
def Obligations.RunCodeIsBijective : Prop :=
  (∀ (s : State) (ds : List Bool), s.runActive = false → ds ≠ [] →
    ∃ t, execAll (ds.map fun d => if d then .symRunB else .symRunA) s = .next t ∧
      t.runVal = runLength ds ∧ t.runPos = 2 ^ ds.length ∧ t.runActive = true) ∧
  (∀ n : Nat, 1 ≤ n → ∃ ds, ds ≠ [] ∧ runLength ds = n ∧ ∀ es, runLength es = n → es = ds) ∧
  (∀ ds : List Bool, ds ≠ [] → runLength ds = ((List.range ds.length).map fun i => (if ds[i]! then 2 else 1) * 2 ^ i).sum ∧
    runLength ds ≠ 0)

/-- R176: a pending run is written out as copies of the front byte, counted, before the symbol that ended it is acted on; a
run that does not fit is DataError with no word written. -/
def Obligations.PendingRunIsFlushedFirst : Prop :=
  ∀ (s : State) (sym : BitVec 9),
    (s.runActive = false → exec .runFlush s = .next s) ∧
    (s.runActive = true → s.dbufSize.toNat < s.dbufCount.toNat + s.runVal →
      ∀ i, i = .runFlush ∨ i = .symEob ∨ i = .symLiteral sym → exec i s = .next { s with
        runActive := false, errCode := .dataError, errStage := .runFlush, ctl := .error, pos := .idle, fLen := 0, fVal := 0 }) ∧
    (s.runActive = true → s.dbufCount.toNat + s.runVal ≤ s.dbufSize.toNat → s.dbufSize.toNat ≤ 900000 →
      ∃ t, exec .runFlush s = .next t ∧
        t.dbufCount.toNat = s.dbufCount.toNat + s.runVal ∧
        (∀ a, s.dbufCount.toNat ≤ a → a < s.dbufCount.toNat + s.runVal →
          dbufAt t a = (symToByteAt s (mtfSymAt s 0).toNat).setWidth 32) ∧
        (∀ a, a < s.dbufCount.toNat ∨ s.dbufCount.toNat + s.runVal ≤ a → dbufAt t a = dbufAt s a) ∧
        byteCountAt t (symToByteAt s (mtfSymAt s 0).toNat).toNat =
          byteCountAt s (symToByteAt s (mtfSymAt s 0).toNat).toNat + BitVec.ofNat 20 s.runVal ∧
        (∀ c, c ≠ (symToByteAt s (mtfSymAt s 0).toNat).toNat → byteCountAt t c = byteCountAt s c) ∧
        t = { s with runActive := false, dbuf := t.dbuf, byteCount := t.byteCount, dbufCount := t.dbufCount } ∧
        exec .symEob s = exec .symEob t ∧ exec (.symLiteral sym) s = exec (.symLiteral sym) t)

/-- R178: a literal moves its list entry to the front and appends its byte to DBUF, counted; into a full DBUF it is DataError
with no word written. -/
def Obligations.LiteralAppendsAndMovesToFront : Prop :=
  ∀ (s : State) (sym : BitVec 9), s.runActive = false →
    (s.dbufSize.toNat ≤ s.dbufCount.toNat → exec (.symLiteral sym) s = .next { s with
      errCode := .dataError, errStage := .literal, ctl := .error, pos := .idle, fLen := 0, fVal := 0 }) ∧
    (s.dbufCount.toNat < s.dbufSize.toNat → s.dbufSize.toNat ≤ 900000 → 2 ≤ sym.toNat → sym.toNat ≤ 256 →
      ∃ t, exec (.symLiteral sym) s = .next t ∧
        mtfSymAt t 0 = mtfSymAt s (sym.toNat - 1) ∧
        (∀ k, 1 ≤ k → k ≤ sym.toNat - 1 → mtfSymAt t k = mtfSymAt s (k - 1)) ∧
        (∀ k, sym.toNat - 1 < k → mtfSymAt t k = mtfSymAt s k) ∧
        t.dbufCount.toNat = s.dbufCount.toNat + 1 ∧
        dbufAt t s.dbufCount.toNat = (symToByteAt s (mtfSymAt s (sym.toNat - 1)).toNat).setWidth 32 ∧
        (∀ a, a ≠ s.dbufCount.toNat → dbufAt t a = dbufAt s a) ∧
        byteCountAt t (symToByteAt s (mtfSymAt s (sym.toNat - 1)).toNat).toNat =
          byteCountAt s (symToByteAt s (mtfSymAt s (sym.toNat - 1)).toNat).toNat + 1 ∧
        (∀ c, c ≠ (symToByteAt s (mtfSymAt s (sym.toNat - 1)).toNat).toNat → byteCountAt t c = byteCountAt s c) ∧
        t = { s with
          mtfSym := t.mtfSym, dbuf := t.dbuf, byteCount := t.byteCount, dbufCount := t.dbufCount
          pos := .groupSwitch, fLen := 0, fVal := 0 })

/-! ## The chain constructor -/

/-- R177, R200: EOB ends the symbols; then the origin pointer must be below DBUF_COUNT. -/
def Obligations.EobThenOriginCheck : Prop :=
  ∀ s : State,
    (s.runActive = false → exec .symEob s = .next { s with ctl := .bwt, pos := .origCheck, fLen := 0, fVal := 0 }) ∧
    (s.origPtr.toNat < s.dbufCount.toNat → exec .origCheck s = .next { s with pos := .bucketStart, fLen := 0, fVal := 0 }) ∧
    (s.dbufCount.toNat ≤ s.origPtr.toNat → exec .origCheck s = .next { s with
      errCode := .dataError, errStage := .origchk, ctl := .error, pos := .idle, fLen := 0, fVal := 0 })

/-- R201: BYTE_COUNT[c] becomes the sum of the counts of the bytes below c. -/
def Obligations.BucketStartsArePrefixSums : Prop :=
  ∀ s : State, ∃ t, exec .bucketStart s = .next t ∧
    (∀ c, c < 256 →
      byteCountAt t c = BitVec.ofNat 20 ((List.range c).map fun b => (byteCountAt s b).toNat).sum) ∧
    (∀ c, 256 ≤ c → byteCountAt t c = byteCountAt s c) ∧
    t = { s with byteCount := t.byteCount, pos := .chainBuild, fLen := 0, fVal := 0 }

/-- R202, R203: from the bucket starts, CHAIN_BUILD writes each position into its slot of the stable sort of the words by
their low byte, and changes no low byte. -/
def Obligations.ChainIsTheStableSort : Prop :=
  ∀ s : State, s.dbufCount.toNat ≤ 900000 →
    (∀ i, i < s.dbufCount.toNat → wordNext (dbufAt s i) = 0) →
    (∀ c, c < 256 → (byteCountAt s c).toNat = bytesBelow s s.dbufCount.toNat c) →
    ∃ t, exec .chainBuild s = .next t ∧
      (∀ i, i < s.dbufCount.toNat →
        chainRank s s.dbufCount.toNat i < s.dbufCount.toNat ∧
        (wordNext (dbufAt t (chainRank s s.dbufCount.toNat i))).toNat = i ∧
        wordByte (dbufAt t i) = wordByte (dbufAt s i)) ∧
      (∀ a, s.dbufCount.toNat ≤ a → dbufAt t a = dbufAt s a) ∧
      t = { s with dbuf := t.dbuf, byteCount := t.byteCount, pos := .chainSeed, fLen := 0, fVal := 0 }

/-- R204: the output walk is set up at the origin pointer; its byte is context and is not emitted. -/
def Obligations.ChainSeedSetsUpTheWalk : Prop :=
  ∀ s : State, s.origPtr.toNat < 900000 →
    exec .chainSeed s = .next { s with
      wCur := ((dbufAt s s.origPtr.toNat).setWidth 8).setWidth 9, wPos := (dbufAt s s.origPtr.toNat).extractLsb' 8 24
      wRun := 7, wRemain := s.dbufCount, pend := 0, dataCrc := 0xFFFFFFFF, blkLoaded := true
      ctl := .output, pos := .drive, fLen := 0, fVal := 0 }

/-! ## The output engine -/

/-- R211, R212: a chain step follows the chain one position; after four equal bytes its byte is a count of copies, else it is
one byte of output and the run of equal bytes is counted. RLE4 is the first case alone; run by itself in the second it does
nothing, which is the model's (log entry 11). -/
def Obligations.ChainStepOrCount : Prop :=
  ∀ s : State, s.wPos.toNat < 900000 →
    (s.wRun ≠ 3 →
      exec .chainStep s = .next { s with
        wRemain := s.wRemain - 1, wPos := (dbufAt s s.wPos.toNat).extractLsb' 8 24
        pend := 1, pendByte := (dbufAt s s.wPos.toNat).setWidth 8
        wRun := if ((dbufAt s s.wPos.toNat).setWidth 8).setWidth 9 = s.wCur then s.wRun + 1 else 0
        wCur := ((dbufAt s s.wPos.toNat).setWidth 8).setWidth 9, pos := .drive, fLen := 0, fVal := 0 } ∧
      exec .rle4 s = .next s) ∧
    (s.wRun = 3 → ∀ i, i = .chainStep ∨ i = .rle4 → exec i s = .next { s with
      wRemain := s.wRemain - 1, wPos := (dbufAt s s.wPos.toNat).extractLsb' 8 24
      pend := (dbufAt s s.wPos.toNat).setWidth 8, pendByte := s.wCur.setWidth 8, wCur := 0x100, wRun := 0
      pos := .drive, fLen := 0, fVal := 0 })

/-- R214, R215, R220: an accepted byte is delivered, counted and added to the CRC; a failed one raises IO_ERROR and is none of
these; with no answer nothing changes. -/
def Obligations.EmitDeliversOneByte : Prop :=
  ∀ (s : State) (b : Byte) (xs : List Answer),
    (s.outAns = [] → exec (.emit b) s = .next s ∧ exec .emitPend s = .next s) ∧
    (s.outAns = .accept :: xs →
      exec (.emit b) s = .next { s with
        outAns := xs, out := s.out ++ [b]
        dataCrc := (s.dataCrc <<< 8) ^^^ crcTable ((s.dataCrc >>> 24).setWidth 8 ^^^ b) } ∧
      exec .emitPend s = .next { s with
        outAns := xs, out := s.out ++ [s.pendByte]
        dataCrc := (s.dataCrc <<< 8) ^^^ crcTable ((s.dataCrc >>> 24).setWidth 8 ^^^ s.pendByte)
        pend := s.pend - 1, count := s.count + 1, outBytes := s.outBytes + 1, pos := .drive, fLen := 0, fVal := 0 }) ∧
    (s.outAns = .fail :: xs → ∀ i, i = .emit b ∨ i = .emitPend → exec i s = .next { s with
      outAns := xs, errCode := .ioError, errStage := .output, ctl := .error, pos := .idle, fLen := 0, fVal := 0 })

/-- R215, R216: CRC_TABLE[i] is eight turns of the bit-serial division of i << 24 by the generator 0x04C11DB7, and the CRC
update by the table is eight turns of it on the CRC with the byte added at the top; some entries are those of R216. -/
def Obligations.CrcTableMatchesSerialDivision : Prop :=
  (∀ i : BitVec 8, crcTable i =
    (List.range 8).foldl (fun c _ => if c.getLsbD 31 then (c <<< 1) ^^^ 0x04C11DB7 else c <<< 1) (i.setWidth 32 <<< 24)) ∧
  (∀ (crc : Word) (b : Byte),
    crcUpdate crc b = (crc <<< 8) ^^^ crcTable ((crc >>> 24).setWidth 8 ^^^ b) ∧
    crcUpdate crc b = (List.range 8).foldl (fun c _ => if c.getLsbD 31 then (c <<< 1) ^^^ 0x04C11DB7 else c <<< 1)
      (crc ^^^ (b.setWidth 32 <<< 24))) ∧
  crcTable 0 = 0 ∧ crcTable 1 = 0x04C11DB7 ∧ crcTable 2 = 0x09823B6E ∧ crcTable 128 = 0x690CE0EE ∧ crcTable 255 = 0xB1F740B4

/-- R217, R218: at block end the CRC is complemented and added to the combined CRC, and then compared with the header's. -/
def Obligations.BlockEndChecksTheBlockCrc : Prop :=
  ∀ s : State,
    (~~~ s.dataCrc = s.headerCrc → exec .blockEnd s = .next { s with
      dataCrc := ~~~ s.dataCrc, totalCrc := s.totalCrc.rotateLeft 1 ^^^ ~~~ s.dataCrc, blkLoaded := false
      blocks := s.blocks + 1, pos := .drive, fLen := 0, fVal := 0 }) ∧
    (~~~ s.dataCrc ≠ s.headerCrc → exec .blockEnd s = .next { s with
      dataCrc := ~~~ s.dataCrc, totalCrc := s.totalCrc.rotateLeft 1 ^^^ ~~~ s.dataCrc, blkLoaded := false
      errCode := .crcMismatch, errStage := .blockCrc, ctl := .error, pos := .idle, fLen := 0, fVal := 0 })

/-- R219: the end-of-stream CRC is stored, then compared with TOTAL_CRC: DONE, or CRC_MISMATCH. That the CRC element stores
STREAM_CRC in a step of its own, and that EOS_CHECK then runs on STREAM_CRC, is the model's reading (log entry 11). -/
def Obligations.EndOfStreamChecksTheTotalCrc : Prop :=
  ∀ (s : State) (c : Word),
    exec (.crcEndOfStream c) s = .next { s with streamCrc := c, pos := .eosCheck, fLen := 0, fVal := 0 } ∧
    (c = s.totalCrc → exec (.eosCheck c) s = .next { s with streamCrc := c, ctl := .done, pos := .idle, fLen := 0, fVal := 0 }) ∧
    (c ≠ s.totalCrc → exec (.eosCheck c) s = .next { s with
      streamCrc := c, errCode := .crcMismatch, errStage := .streamCrc, ctl := .error, pos := .idle, fLen := 0, fVal := 0 }) ∧
    (s.pos = .eosCheck → nextInstr s = some (.eosCheck s.streamCrc))

/-- R210, R247, R248: one turn of the command loop, its tests in order: the block's end, the limit, the next block, a pending
copy, a chain step. A pause keeps everything. -/
def Obligations.DriveTestsInOrder : Prop :=
  ∀ s : State,
    exec .drive s = .next
      (if s.blkLoaded = true ∧ s.pend = 0 ∧ s.wRemain = 0 then { s with ctl := .output, pos := .blockEnd, fLen := 0, fVal := 0 }
        else if s.mode = true ∧ s.count = s.limit then { s with ctl := .paused, pos := .idle, fLen := 0, fVal := 0 }
        else if s.blkLoaded = false then { s with ctl := .blockHeader, pos := .magic, fLen := 0, fVal := 0 }
        else if s.pend ≠ 0 then { s with ctl := .output, pos := .emitPend, fLen := 0, fVal := 0 }
        else { s with ctl := .output, pos := .chainStep, fLen := 0, fVal := 0 })

/-- R280: raising an error records its code and stage and enters ERROR; the command ends and every register but STATUS keeps
its value. -/
def Obligations.ErrorEntryRecordsAndEnds : Prop :=
  ∀ (s : State) (c : ErrCode) (st : Stage), ∃ t : State,
    exec (.errorEntry c st) s = .next t ∧
    t = { s with errCode := c, errStage := st, ctl := .error, pos := .idle, fLen := 0, fVal := 0 } ∧
    t.ctl.busy = false ∧ ∀ off, off ≠ 0x08 → regValue t off = regValue s off
end

