-- ==== Sys2Proof/Laws/Memory.lean ====
section
/-! SUPPORT. The laws of the internal memories: what a read gives after a write, and that a write keeps the canonical
form. The read laws hold of any list, sorted or not. -/

namespace Sys2Proof.Machine

variable {w : Nat}

theorem cellFind_memWrite (m : Cells w) (i j : Nat) (v : BitVec w) :
    cellFind (memWrite m i v) j = if i = j then some v else cellFind m j := by
  induction m with
  | nil => simp [memWrite, cellFind]
  | cons c m ih =>
    obtain ⟨k, u⟩ := c
    simp only [memWrite]
    split
    · subst k; simp only [cellFind]; split <;> rfl
    · split
      · simp only [cellFind]
      · simp only [cellFind, ih]
        by_cases hk : k = j
        · have : i ≠ j := by omega
          simp [hk, this]
        · simp [hk]

theorem memRead_memWrite (e : Nat) (id : MemId) (m : Cells w) (i j : Nat) (v : BitVec w) :
    memRead e id (memWrite m i v) j = if i = j then v else memRead e id m j := by
  simp only [memRead, cellFind_memWrite]
  split <;> rfl

@[simp] theorem memRead_memWrite_same (e : Nat) (id : MemId) (m : Cells w) (i : Nat) (v : BitVec w) :
    memRead e id (memWrite m i v) i = v := by
  simp [memRead_memWrite]

theorem memRead_memWrite_other (e : Nat) (id : MemId) (m : Cells w) {i j : Nat} (v : BitVec w) (h : i ≠ j) :
    memRead e id (memWrite m i v) j = memRead e id m j := by
  simp [memRead_memWrite, h]

/-- Reading after `M[a] <- v0; M[a+1] <- v1; …`. -/
theorem memRead_memWriteSeq (e : Nat) (id : MemId) (vs : List (BitVec w)) (m : Cells w) (a j : Nat) :
    memRead e id (memWriteSeq m a vs) j =
      if h : a ≤ j ∧ j < a + vs.length then vs[j - a]'(by omega) else memRead e id m j := by
  induction vs generalizing m a with
  | nil =>
    simp [memWriteSeq]
  | cons v vs ih =>
    rw [memWriteSeq, ih, memRead_memWrite]
    by_cases haj : a = j
    · subst haj
      simp
    · by_cases h : a + 1 ≤ j ∧ j < a + 1 + vs.length
      · have h2 : a ≤ j ∧ j < a + (v :: vs).length := by simp only [List.length_cons]; omega
        rw [dif_pos h, dif_pos h2, List.getElem_cons, dif_neg (by omega)]
        congr 1
      · have h2 : ¬ (a ≤ j ∧ j < a + (v :: vs).length) := by simp only [List.length_cons]; omega
        rw [dif_neg h, dif_neg h2, if_neg haj]

theorem memRead_memWriteSeq_other (e : Nat) (id : MemId) (vs : List (BitVec w)) (m : Cells w) {a j : Nat}
    (h : j < a ∨ a + vs.length ≤ j) : memRead e id (memWriteSeq m a vs) j = memRead e id m j := by
  rw [memRead_memWriteSeq, dif_neg (by omega)]

/-! ### The canonical form -/

theorem cellsSorted_cons (i : Nat) (v : BitVec w) (m : Cells w) :
    cellsSorted ((i, v) :: m) = true ↔ (∀ c ∈ m.head?, i < c.1) ∧ cellsSorted m = true := by
  cases m with
  | nil => simp [cellsSorted]
  | cons c m => obtain ⟨j, u⟩ := c; simp [cellsSorted]

theorem memWrite_head (m : Cells w) (i : Nat) (v : BitVec w) :
    ∀ c ∈ (memWrite m i v).head?, c.1 = i ∨ ∃ d ∈ m.head?, c.1 = d.1 := by
  cases m with
  | nil => simp [memWrite]
  | cons c m =>
    obtain ⟨j, u⟩ := c
    simp only [memWrite]
    split
    · simp
    · split <;> simp

/-- A write keeps the indices strictly rising. -/
theorem memWrite_sorted (m : Cells w) (i : Nat) (v : BitVec w) (h : cellsSorted m = true) :
    cellsSorted (memWrite m i v) = true := by
  induction m with
  | nil => rfl
  | cons c m ih =>
    obtain ⟨j, u⟩ := c
    obtain ⟨hh, ht⟩ := (cellsSorted_cons j u m).1 h
    simp only [memWrite]
    split
    · subst j; exact (cellsSorted_cons i v m).2 ⟨hh, ht⟩
    · split
      · next hij => exact (cellsSorted_cons i v _).2 ⟨by simpa using hij, h⟩
      · next hne hij =>
        refine (cellsSorted_cons j u _).2 ⟨fun c hc => ?_, ih ht⟩
        rcases memWrite_head m i v c hc with hc' | ⟨d, hd, hc'⟩
        · omega
        · exact hc' ▸ hh d hd

theorem memWrite_all_lt (n : Nat) (m : Cells w) (i : Nat) (v : BitVec w) (hi : i < n)
    (h : m.all (fun c => decide (c.1 < n)) = true) : (memWrite m i v).all (fun c => decide (c.1 < n)) = true := by
  induction m with
  | nil => simpa [memWrite] using hi
  | cons c m ih =>
    obtain ⟨j, u⟩ := c
    simp only [List.all_cons, Bool.and_eq_true, decide_eq_true_eq] at h
    simp only [memWrite]
    split
    · simpa only [List.all_cons, Bool.and_eq_true, decide_eq_true_eq] using ⟨hi, h.2⟩
    · split
      · simpa only [List.all_cons, Bool.and_eq_true, decide_eq_true_eq] using ⟨hi, h⟩
      · simpa only [List.all_cons, Bool.and_eq_true, decide_eq_true_eq] using ⟨h.1, ih h.2⟩

/-- A write inside a memory of `n` entries keeps its canonical form. -/
theorem memWrite_wf (n : Nat) (m : Cells w) (i : Nat) (v : BitVec w) (hi : i < n) (h : cellsWf n m = true) :
    cellsWf n (memWrite m i v) = true := by
  simp only [cellsWf, Bool.and_eq_true] at h ⊢
  exact ⟨memWrite_sorted m i v h.1, memWrite_all_lt n m i v hi h.2⟩

/-- Writes inside a memory of `n` entries keep its canonical form. -/
theorem memWriteSeq_wf (n : Nat) (vs : List (BitVec w)) (m : Cells w) (a : Nat) (ha : a + vs.length ≤ n)
    (h : cellsWf n m = true) : cellsWf n (memWriteSeq m a vs) = true := by
  induction vs generalizing m a with
  | nil => exact h
  | cons v vs ih =>
    simp only [List.length_cons] at ha
    exact ih (memWrite m a v) (a + 1) (by omega) (memWrite_wf n m a v (by omega) h)

/-- Moving an entry to the front keeps the canonical form. -/
theorem moveToFront_wf (n e : Nat) (id : MemId) (m : Cells w) (j : Nat) (hj : j < n) (h : cellsWf n m = true) :
    cellsWf n (moveToFront e id m j) = true :=
  memWriteSeq_wf n _ m 0 (by simp; omega) h

/-- Reading a move-to-front list after its entry `j` is moved to the front (R143, R178). -/
theorem memRead_moveToFront (e : Nat) (id : MemId) (m : Cells w) (j k : Nat) :
    memRead e id (moveToFront e id m j) k =
      if k = 0 then memRead e id m j else if k ≤ j then memRead e id m (k - 1) else memRead e id m k := by
  rw [moveToFront, memRead_memWriteSeq]
  by_cases hk : k = 0
  · subst hk; simp
  · by_cases hkj : k ≤ j
    · have : 0 ≤ k ∧ k < 0 + (memRead e id m j :: (List.range j).map (memRead e id m)).length := by simp; omega
      rw [dif_pos this, List.getElem_cons, dif_neg (by omega)]
      simp [hk, hkj]
    · have : ¬ (0 ≤ k ∧ k < 0 + (memRead e id m j :: (List.range j).map (memRead e id m)).length) := by simp; omega
      rw [dif_neg this, if_neg hk, if_neg hkj]

/-- The empty memory is in canonical form. -/
theorem cellsWf_nil (n : Nat) : cellsWf n ([] : Cells w) = true := rfl

/-- After reset every internal memory is in canonical form (R301). -/
theorem reset_memWf : State.reset.memWf = true := rfl

end Sys2Proof.Machine
end

