-- ==== Sys2Proof/Laws/State.lean ====
section
/-! SUPPORT. What each named update of the state does to each field, so that no later proof unfolds a record update. -/

namespace Sys2Proof.Machine

/-! ### goto -/

@[simp] theorem goto_ctl (p : Pos) (s : State) : (goto p s).ctl = s.ctl := rfl
@[simp] theorem goto_cmdRej (p : Pos) (s : State) : (goto p s).cmdRej = s.cmdRej := rfl
@[simp] theorem goto_errCode (p : Pos) (s : State) : (goto p s).errCode = s.errCode := rfl
@[simp] theorem goto_errStage (p : Pos) (s : State) : (goto p s).errStage = s.errStage := rfl
@[simp] theorem goto_len (p : Pos) (s : State) : (goto p s).len = s.len := rfl
@[simp] theorem goto_mode (p : Pos) (s : State) : (goto p s).mode = s.mode := rfl
@[simp] theorem goto_limit (p : Pos) (s : State) : (goto p s).limit = s.limit := rfl
@[simp] theorem goto_count (p : Pos) (s : State) : (goto p s).count = s.count := rfl
@[simp] theorem goto_level (p : Pos) (s : State) : (goto p s).level = s.level := rfl
@[simp] theorem goto_dbufSize (p : Pos) (s : State) : (goto p s).dbufSize = s.dbufSize := rfl
@[simp] theorem goto_totalCrc (p : Pos) (s : State) : (goto p s).totalCrc = s.totalCrc := rfl
@[simp] theorem goto_streamCrc (p : Pos) (s : State) : (goto p s).streamCrc = s.streamCrc := rfl
@[simp] theorem goto_blocks (p : Pos) (s : State) : (goto p s).blocks = s.blocks := rfl
@[simp] theorem goto_inBytes (p : Pos) (s : State) : (goto p s).inBytes = s.inBytes := rfl
@[simp] theorem goto_outBytes (p : Pos) (s : State) : (goto p s).outBytes = s.outBytes := rfl
@[simp] theorem goto_acc (p : Pos) (s : State) : (goto p s).acc = s.acc := rfl
@[simp] theorem goto_accN (p : Pos) (s : State) : (goto p s).accN = s.accN := rfl
@[simp] theorem goto_headerCrc (p : Pos) (s : State) : (goto p s).headerCrc = s.headerCrc := rfl
@[simp] theorem goto_origPtr (p : Pos) (s : State) : (goto p s).origPtr = s.origPtr := rfl
@[simp] theorem goto_symTotal (p : Pos) (s : State) : (goto p s).symTotal = s.symTotal := rfl
@[simp] theorem goto_symToByte (p : Pos) (s : State) : (goto p s).symToByte = s.symToByte := rfl
@[simp] theorem goto_groupCount (p : Pos) (s : State) : (goto p s).groupCount = s.groupCount := rfl
@[simp] theorem goto_nSel (p : Pos) (s : State) : (goto p s).nSel = s.nSel := rfl
@[simp] theorem goto_selectors (p : Pos) (s : State) : (goto p s).selectors = s.selectors := rfl
@[simp] theorem goto_groupMtf (p : Pos) (s : State) : (goto p s).groupMtf = s.groupMtf := rfl
@[simp] theorem goto_minLen (p : Pos) (s : State) : (goto p s).minLen = s.minLen := rfl
@[simp] theorem goto_maxLen (p : Pos) (s : State) : (goto p s).maxLen = s.maxLen := rfl
@[simp] theorem goto_limitTab (p : Pos) (s : State) : (goto p s).limitTab = s.limitTab := rfl
@[simp] theorem goto_baseTab (p : Pos) (s : State) : (goto p s).baseTab = s.baseTab := rfl
@[simp] theorem goto_permute (p : Pos) (s : State) : (goto p s).permute = s.permute := rfl
@[simp] theorem goto_lengths (p : Pos) (s : State) : (goto p s).lengths = s.lengths := rfl
@[simp] theorem goto_temp (p : Pos) (s : State) : (goto p s).temp = s.temp := rfl
@[simp] theorem goto_mtfSym (p : Pos) (s : State) : (goto p s).mtfSym = s.mtfSym := rfl
@[simp] theorem goto_byteCount (p : Pos) (s : State) : (goto p s).byteCount = s.byteCount := rfl
@[simp] theorem goto_dbuf (p : Pos) (s : State) : (goto p s).dbuf = s.dbuf := rfl
@[simp] theorem goto_dbufCount (p : Pos) (s : State) : (goto p s).dbufCount = s.dbufCount := rfl
@[simp] theorem goto_selIdx (p : Pos) (s : State) : (goto p s).selIdx = s.selIdx := rfl
@[simp] theorem goto_gsymLeft (p : Pos) (s : State) : (goto p s).gsymLeft = s.gsymLeft := rfl
@[simp] theorem goto_curGroup (p : Pos) (s : State) : (goto p s).curGroup = s.curGroup := rfl
@[simp] theorem goto_runActive (p : Pos) (s : State) : (goto p s).runActive = s.runActive := rfl
@[simp] theorem goto_runPos (p : Pos) (s : State) : (goto p s).runPos = s.runPos := rfl
@[simp] theorem goto_runVal (p : Pos) (s : State) : (goto p s).runVal = s.runVal := rfl
@[simp] theorem goto_wPos (p : Pos) (s : State) : (goto p s).wPos = s.wPos := rfl
@[simp] theorem goto_wCur (p : Pos) (s : State) : (goto p s).wCur = s.wCur := rfl
@[simp] theorem goto_wRun (p : Pos) (s : State) : (goto p s).wRun = s.wRun := rfl
@[simp] theorem goto_wRemain (p : Pos) (s : State) : (goto p s).wRemain = s.wRemain := rfl
@[simp] theorem goto_pend (p : Pos) (s : State) : (goto p s).pend = s.pend := rfl
@[simp] theorem goto_pendByte (p : Pos) (s : State) : (goto p s).pendByte = s.pendByte := rfl
@[simp] theorem goto_blkLoaded (p : Pos) (s : State) : (goto p s).blkLoaded = s.blkLoaded := rfl
@[simp] theorem goto_dataCrc (p : Pos) (s : State) : (goto p s).dataCrc = s.dataCrc := rfl
@[simp] theorem goto_pos (p : Pos) (s : State) : (goto p s).pos = p := rfl
@[simp] theorem goto_fLen (p : Pos) (s : State) : (goto p s).fLen = 0 := rfl
@[simp] theorem goto_fVal (p : Pos) (s : State) : (goto p s).fVal = 0 := rfl
@[simp] theorem goto_mapUsed (p : Pos) (s : State) : (goto p s).mapUsed = s.mapUsed := rfl
@[simp] theorem goto_lenT (p : Pos) (s : State) : (goto p s).lenT = s.lenT := rfl
@[simp] theorem goto_loopI (p : Pos) (s : State) : (goto p s).loopI = s.loopI := rfl
@[simp] theorem goto_loopG (p : Pos) (s : State) : (goto p s).loopG = s.loopG := rfl
@[simp] theorem goto_loopS (p : Pos) (s : State) : (goto p s).loopS = s.loopS := rfl
@[simp] theorem goto_sym (p : Pos) (s : State) : (goto p s).sym = s.sym := rfl
@[simp] theorem goto_inPort (p : Pos) (s : State) : (goto p s).inPort = s.inPort := rfl
@[simp] theorem goto_outAns (p : Pos) (s : State) : (goto p s).outAns = s.outAns := rfl
@[simp] theorem goto_out (p : Pos) (s : State) : (goto p s).out = s.out := rfl
@[simp] theorem goto_host (p : Pos) (s : State) : (goto p s).host = s.host := rfl
@[simp] theorem goto_rdata (p : Pos) (s : State) : (goto p s).rdata = s.rdata := rfl
@[simp] theorem goto_draws (p : Pos) (s : State) : (goto p s).draws = s.draws := rfl
@[simp] theorem goto_epoch (p : Pos) (s : State) : (goto p s).epoch = s.epoch := rfl

/-! ### raiseError -/

@[simp] theorem raiseError_ctl (c : ErrCode) (st : Stage) (s : State) : (raiseError c st s).ctl = .error := rfl
@[simp] theorem raiseError_cmdRej (c : ErrCode) (st : Stage) (s : State) : (raiseError c st s).cmdRej = s.cmdRej := rfl
@[simp] theorem raiseError_errCode (c : ErrCode) (st : Stage) (s : State) : (raiseError c st s).errCode = c := rfl
@[simp] theorem raiseError_errStage (c : ErrCode) (st : Stage) (s : State) : (raiseError c st s).errStage = st := rfl
@[simp] theorem raiseError_len (c : ErrCode) (st : Stage) (s : State) : (raiseError c st s).len = s.len := rfl
@[simp] theorem raiseError_mode (c : ErrCode) (st : Stage) (s : State) : (raiseError c st s).mode = s.mode := rfl
@[simp] theorem raiseError_limit (c : ErrCode) (st : Stage) (s : State) : (raiseError c st s).limit = s.limit := rfl
@[simp] theorem raiseError_count (c : ErrCode) (st : Stage) (s : State) : (raiseError c st s).count = s.count := rfl
@[simp] theorem raiseError_level (c : ErrCode) (st : Stage) (s : State) : (raiseError c st s).level = s.level := rfl
@[simp] theorem raiseError_dbufSize (c : ErrCode) (st : Stage) (s : State) : (raiseError c st s).dbufSize = s.dbufSize := rfl
@[simp] theorem raiseError_totalCrc (c : ErrCode) (st : Stage) (s : State) : (raiseError c st s).totalCrc = s.totalCrc := rfl
@[simp] theorem raiseError_streamCrc (c : ErrCode) (st : Stage) (s : State) : (raiseError c st s).streamCrc = s.streamCrc := rfl
@[simp] theorem raiseError_blocks (c : ErrCode) (st : Stage) (s : State) : (raiseError c st s).blocks = s.blocks := rfl
@[simp] theorem raiseError_inBytes (c : ErrCode) (st : Stage) (s : State) : (raiseError c st s).inBytes = s.inBytes := rfl
@[simp] theorem raiseError_outBytes (c : ErrCode) (st : Stage) (s : State) : (raiseError c st s).outBytes = s.outBytes := rfl
@[simp] theorem raiseError_acc (c : ErrCode) (st : Stage) (s : State) : (raiseError c st s).acc = s.acc := rfl
@[simp] theorem raiseError_accN (c : ErrCode) (st : Stage) (s : State) : (raiseError c st s).accN = s.accN := rfl
@[simp] theorem raiseError_headerCrc (c : ErrCode) (st : Stage) (s : State) : (raiseError c st s).headerCrc = s.headerCrc := rfl
@[simp] theorem raiseError_origPtr (c : ErrCode) (st : Stage) (s : State) : (raiseError c st s).origPtr = s.origPtr := rfl
@[simp] theorem raiseError_symTotal (c : ErrCode) (st : Stage) (s : State) : (raiseError c st s).symTotal = s.symTotal := rfl
@[simp] theorem raiseError_symToByte (c : ErrCode) (st : Stage) (s : State) : (raiseError c st s).symToByte = s.symToByte := rfl
@[simp] theorem raiseError_groupCount (c : ErrCode) (st : Stage) (s : State) : (raiseError c st s).groupCount = s.groupCount := rfl
@[simp] theorem raiseError_nSel (c : ErrCode) (st : Stage) (s : State) : (raiseError c st s).nSel = s.nSel := rfl
@[simp] theorem raiseError_selectors (c : ErrCode) (st : Stage) (s : State) : (raiseError c st s).selectors = s.selectors := rfl
@[simp] theorem raiseError_groupMtf (c : ErrCode) (st : Stage) (s : State) : (raiseError c st s).groupMtf = s.groupMtf := rfl
@[simp] theorem raiseError_minLen (c : ErrCode) (st : Stage) (s : State) : (raiseError c st s).minLen = s.minLen := rfl
@[simp] theorem raiseError_maxLen (c : ErrCode) (st : Stage) (s : State) : (raiseError c st s).maxLen = s.maxLen := rfl
@[simp] theorem raiseError_limitTab (c : ErrCode) (st : Stage) (s : State) : (raiseError c st s).limitTab = s.limitTab := rfl
@[simp] theorem raiseError_baseTab (c : ErrCode) (st : Stage) (s : State) : (raiseError c st s).baseTab = s.baseTab := rfl
@[simp] theorem raiseError_permute (c : ErrCode) (st : Stage) (s : State) : (raiseError c st s).permute = s.permute := rfl
@[simp] theorem raiseError_lengths (c : ErrCode) (st : Stage) (s : State) : (raiseError c st s).lengths = s.lengths := rfl
@[simp] theorem raiseError_temp (c : ErrCode) (st : Stage) (s : State) : (raiseError c st s).temp = s.temp := rfl
@[simp] theorem raiseError_mtfSym (c : ErrCode) (st : Stage) (s : State) : (raiseError c st s).mtfSym = s.mtfSym := rfl
@[simp] theorem raiseError_byteCount (c : ErrCode) (st : Stage) (s : State) : (raiseError c st s).byteCount = s.byteCount := rfl
@[simp] theorem raiseError_dbuf (c : ErrCode) (st : Stage) (s : State) : (raiseError c st s).dbuf = s.dbuf := rfl
@[simp] theorem raiseError_dbufCount (c : ErrCode) (st : Stage) (s : State) : (raiseError c st s).dbufCount = s.dbufCount := rfl
@[simp] theorem raiseError_selIdx (c : ErrCode) (st : Stage) (s : State) : (raiseError c st s).selIdx = s.selIdx := rfl
@[simp] theorem raiseError_gsymLeft (c : ErrCode) (st : Stage) (s : State) : (raiseError c st s).gsymLeft = s.gsymLeft := rfl
@[simp] theorem raiseError_curGroup (c : ErrCode) (st : Stage) (s : State) : (raiseError c st s).curGroup = s.curGroup := rfl
@[simp] theorem raiseError_runActive (c : ErrCode) (st : Stage) (s : State) : (raiseError c st s).runActive = s.runActive := rfl
@[simp] theorem raiseError_runPos (c : ErrCode) (st : Stage) (s : State) : (raiseError c st s).runPos = s.runPos := rfl
@[simp] theorem raiseError_runVal (c : ErrCode) (st : Stage) (s : State) : (raiseError c st s).runVal = s.runVal := rfl
@[simp] theorem raiseError_wPos (c : ErrCode) (st : Stage) (s : State) : (raiseError c st s).wPos = s.wPos := rfl
@[simp] theorem raiseError_wCur (c : ErrCode) (st : Stage) (s : State) : (raiseError c st s).wCur = s.wCur := rfl
@[simp] theorem raiseError_wRun (c : ErrCode) (st : Stage) (s : State) : (raiseError c st s).wRun = s.wRun := rfl
@[simp] theorem raiseError_wRemain (c : ErrCode) (st : Stage) (s : State) : (raiseError c st s).wRemain = s.wRemain := rfl
@[simp] theorem raiseError_pend (c : ErrCode) (st : Stage) (s : State) : (raiseError c st s).pend = s.pend := rfl
@[simp] theorem raiseError_pendByte (c : ErrCode) (st : Stage) (s : State) : (raiseError c st s).pendByte = s.pendByte := rfl
@[simp] theorem raiseError_blkLoaded (c : ErrCode) (st : Stage) (s : State) : (raiseError c st s).blkLoaded = s.blkLoaded := rfl
@[simp] theorem raiseError_dataCrc (c : ErrCode) (st : Stage) (s : State) : (raiseError c st s).dataCrc = s.dataCrc := rfl
@[simp] theorem raiseError_pos (c : ErrCode) (st : Stage) (s : State) : (raiseError c st s).pos = .idle := rfl
@[simp] theorem raiseError_fLen (c : ErrCode) (st : Stage) (s : State) : (raiseError c st s).fLen = 0 := rfl
@[simp] theorem raiseError_fVal (c : ErrCode) (st : Stage) (s : State) : (raiseError c st s).fVal = 0 := rfl
@[simp] theorem raiseError_mapUsed (c : ErrCode) (st : Stage) (s : State) : (raiseError c st s).mapUsed = s.mapUsed := rfl
@[simp] theorem raiseError_lenT (c : ErrCode) (st : Stage) (s : State) : (raiseError c st s).lenT = s.lenT := rfl
@[simp] theorem raiseError_loopI (c : ErrCode) (st : Stage) (s : State) : (raiseError c st s).loopI = s.loopI := rfl
@[simp] theorem raiseError_loopG (c : ErrCode) (st : Stage) (s : State) : (raiseError c st s).loopG = s.loopG := rfl
@[simp] theorem raiseError_loopS (c : ErrCode) (st : Stage) (s : State) : (raiseError c st s).loopS = s.loopS := rfl
@[simp] theorem raiseError_sym (c : ErrCode) (st : Stage) (s : State) : (raiseError c st s).sym = s.sym := rfl
@[simp] theorem raiseError_inPort (c : ErrCode) (st : Stage) (s : State) : (raiseError c st s).inPort = s.inPort := rfl
@[simp] theorem raiseError_outAns (c : ErrCode) (st : Stage) (s : State) : (raiseError c st s).outAns = s.outAns := rfl
@[simp] theorem raiseError_out (c : ErrCode) (st : Stage) (s : State) : (raiseError c st s).out = s.out := rfl
@[simp] theorem raiseError_host (c : ErrCode) (st : Stage) (s : State) : (raiseError c st s).host = s.host := rfl
@[simp] theorem raiseError_rdata (c : ErrCode) (st : Stage) (s : State) : (raiseError c st s).rdata = s.rdata := rfl
@[simp] theorem raiseError_draws (c : ErrCode) (st : Stage) (s : State) : (raiseError c st s).draws = s.draws := rfl
@[simp] theorem raiseError_epoch (c : ErrCode) (st : Stage) (s : State) : (raiseError c st s).epoch = s.epoch := rfl

/-! ### clearError -/

@[simp] theorem clearError_ctl (s : State) : (clearError s).ctl = s.ctl := rfl
@[simp] theorem clearError_cmdRej (s : State) : (clearError s).cmdRej = s.cmdRej := rfl
@[simp] theorem clearError_errCode (s : State) : (clearError s).errCode = .none := rfl
@[simp] theorem clearError_errStage (s : State) : (clearError s).errStage = .none := rfl
@[simp] theorem clearError_len (s : State) : (clearError s).len = s.len := rfl
@[simp] theorem clearError_mode (s : State) : (clearError s).mode = s.mode := rfl
@[simp] theorem clearError_limit (s : State) : (clearError s).limit = s.limit := rfl
@[simp] theorem clearError_count (s : State) : (clearError s).count = s.count := rfl
@[simp] theorem clearError_level (s : State) : (clearError s).level = s.level := rfl
@[simp] theorem clearError_dbufSize (s : State) : (clearError s).dbufSize = s.dbufSize := rfl
@[simp] theorem clearError_totalCrc (s : State) : (clearError s).totalCrc = s.totalCrc := rfl
@[simp] theorem clearError_streamCrc (s : State) : (clearError s).streamCrc = s.streamCrc := rfl
@[simp] theorem clearError_blocks (s : State) : (clearError s).blocks = s.blocks := rfl
@[simp] theorem clearError_inBytes (s : State) : (clearError s).inBytes = s.inBytes := rfl
@[simp] theorem clearError_outBytes (s : State) : (clearError s).outBytes = s.outBytes := rfl
@[simp] theorem clearError_acc (s : State) : (clearError s).acc = s.acc := rfl
@[simp] theorem clearError_accN (s : State) : (clearError s).accN = s.accN := rfl
@[simp] theorem clearError_headerCrc (s : State) : (clearError s).headerCrc = s.headerCrc := rfl
@[simp] theorem clearError_origPtr (s : State) : (clearError s).origPtr = s.origPtr := rfl
@[simp] theorem clearError_symTotal (s : State) : (clearError s).symTotal = s.symTotal := rfl
@[simp] theorem clearError_symToByte (s : State) : (clearError s).symToByte = s.symToByte := rfl
@[simp] theorem clearError_groupCount (s : State) : (clearError s).groupCount = s.groupCount := rfl
@[simp] theorem clearError_nSel (s : State) : (clearError s).nSel = s.nSel := rfl
@[simp] theorem clearError_selectors (s : State) : (clearError s).selectors = s.selectors := rfl
@[simp] theorem clearError_groupMtf (s : State) : (clearError s).groupMtf = s.groupMtf := rfl
@[simp] theorem clearError_minLen (s : State) : (clearError s).minLen = s.minLen := rfl
@[simp] theorem clearError_maxLen (s : State) : (clearError s).maxLen = s.maxLen := rfl
@[simp] theorem clearError_limitTab (s : State) : (clearError s).limitTab = s.limitTab := rfl
@[simp] theorem clearError_baseTab (s : State) : (clearError s).baseTab = s.baseTab := rfl
@[simp] theorem clearError_permute (s : State) : (clearError s).permute = s.permute := rfl
@[simp] theorem clearError_lengths (s : State) : (clearError s).lengths = s.lengths := rfl
@[simp] theorem clearError_temp (s : State) : (clearError s).temp = s.temp := rfl
@[simp] theorem clearError_mtfSym (s : State) : (clearError s).mtfSym = s.mtfSym := rfl
@[simp] theorem clearError_byteCount (s : State) : (clearError s).byteCount = s.byteCount := rfl
@[simp] theorem clearError_dbuf (s : State) : (clearError s).dbuf = s.dbuf := rfl
@[simp] theorem clearError_dbufCount (s : State) : (clearError s).dbufCount = s.dbufCount := rfl
@[simp] theorem clearError_selIdx (s : State) : (clearError s).selIdx = s.selIdx := rfl
@[simp] theorem clearError_gsymLeft (s : State) : (clearError s).gsymLeft = s.gsymLeft := rfl
@[simp] theorem clearError_curGroup (s : State) : (clearError s).curGroup = s.curGroup := rfl
@[simp] theorem clearError_runActive (s : State) : (clearError s).runActive = s.runActive := rfl
@[simp] theorem clearError_runPos (s : State) : (clearError s).runPos = s.runPos := rfl
@[simp] theorem clearError_runVal (s : State) : (clearError s).runVal = s.runVal := rfl
@[simp] theorem clearError_wPos (s : State) : (clearError s).wPos = s.wPos := rfl
@[simp] theorem clearError_wCur (s : State) : (clearError s).wCur = s.wCur := rfl
@[simp] theorem clearError_wRun (s : State) : (clearError s).wRun = s.wRun := rfl
@[simp] theorem clearError_wRemain (s : State) : (clearError s).wRemain = s.wRemain := rfl
@[simp] theorem clearError_pend (s : State) : (clearError s).pend = s.pend := rfl
@[simp] theorem clearError_pendByte (s : State) : (clearError s).pendByte = s.pendByte := rfl
@[simp] theorem clearError_blkLoaded (s : State) : (clearError s).blkLoaded = s.blkLoaded := rfl
@[simp] theorem clearError_dataCrc (s : State) : (clearError s).dataCrc = s.dataCrc := rfl
@[simp] theorem clearError_pos (s : State) : (clearError s).pos = s.pos := rfl
@[simp] theorem clearError_fLen (s : State) : (clearError s).fLen = s.fLen := rfl
@[simp] theorem clearError_fVal (s : State) : (clearError s).fVal = s.fVal := rfl
@[simp] theorem clearError_mapUsed (s : State) : (clearError s).mapUsed = s.mapUsed := rfl
@[simp] theorem clearError_lenT (s : State) : (clearError s).lenT = s.lenT := rfl
@[simp] theorem clearError_loopI (s : State) : (clearError s).loopI = s.loopI := rfl
@[simp] theorem clearError_loopG (s : State) : (clearError s).loopG = s.loopG := rfl
@[simp] theorem clearError_loopS (s : State) : (clearError s).loopS = s.loopS := rfl
@[simp] theorem clearError_sym (s : State) : (clearError s).sym = s.sym := rfl
@[simp] theorem clearError_inPort (s : State) : (clearError s).inPort = s.inPort := rfl
@[simp] theorem clearError_outAns (s : State) : (clearError s).outAns = s.outAns := rfl
@[simp] theorem clearError_out (s : State) : (clearError s).out = s.out := rfl
@[simp] theorem clearError_host (s : State) : (clearError s).host = s.host := rfl
@[simp] theorem clearError_rdata (s : State) : (clearError s).rdata = s.rdata := rfl
@[simp] theorem clearError_draws (s : State) : (clearError s).draws = s.draws := rfl
@[simp] theorem clearError_epoch (s : State) : (clearError s).epoch = s.epoch := rfl

/-! ### refuseCmd -/

@[simp] theorem refuseCmd_ctl (s : State) : (refuseCmd s).ctl = s.ctl := rfl
@[simp] theorem refuseCmd_cmdRej (s : State) : (refuseCmd s).cmdRej = true := rfl
@[simp] theorem refuseCmd_errCode (s : State) : (refuseCmd s).errCode = s.errCode := rfl
@[simp] theorem refuseCmd_errStage (s : State) : (refuseCmd s).errStage = s.errStage := rfl
@[simp] theorem refuseCmd_len (s : State) : (refuseCmd s).len = s.len := rfl
@[simp] theorem refuseCmd_mode (s : State) : (refuseCmd s).mode = s.mode := rfl
@[simp] theorem refuseCmd_limit (s : State) : (refuseCmd s).limit = s.limit := rfl
@[simp] theorem refuseCmd_count (s : State) : (refuseCmd s).count = s.count := rfl
@[simp] theorem refuseCmd_level (s : State) : (refuseCmd s).level = s.level := rfl
@[simp] theorem refuseCmd_dbufSize (s : State) : (refuseCmd s).dbufSize = s.dbufSize := rfl
@[simp] theorem refuseCmd_totalCrc (s : State) : (refuseCmd s).totalCrc = s.totalCrc := rfl
@[simp] theorem refuseCmd_streamCrc (s : State) : (refuseCmd s).streamCrc = s.streamCrc := rfl
@[simp] theorem refuseCmd_blocks (s : State) : (refuseCmd s).blocks = s.blocks := rfl
@[simp] theorem refuseCmd_inBytes (s : State) : (refuseCmd s).inBytes = s.inBytes := rfl
@[simp] theorem refuseCmd_outBytes (s : State) : (refuseCmd s).outBytes = s.outBytes := rfl
@[simp] theorem refuseCmd_acc (s : State) : (refuseCmd s).acc = s.acc := rfl
@[simp] theorem refuseCmd_accN (s : State) : (refuseCmd s).accN = s.accN := rfl
@[simp] theorem refuseCmd_headerCrc (s : State) : (refuseCmd s).headerCrc = s.headerCrc := rfl
@[simp] theorem refuseCmd_origPtr (s : State) : (refuseCmd s).origPtr = s.origPtr := rfl
@[simp] theorem refuseCmd_symTotal (s : State) : (refuseCmd s).symTotal = s.symTotal := rfl
@[simp] theorem refuseCmd_symToByte (s : State) : (refuseCmd s).symToByte = s.symToByte := rfl
@[simp] theorem refuseCmd_groupCount (s : State) : (refuseCmd s).groupCount = s.groupCount := rfl
@[simp] theorem refuseCmd_nSel (s : State) : (refuseCmd s).nSel = s.nSel := rfl
@[simp] theorem refuseCmd_selectors (s : State) : (refuseCmd s).selectors = s.selectors := rfl
@[simp] theorem refuseCmd_groupMtf (s : State) : (refuseCmd s).groupMtf = s.groupMtf := rfl
@[simp] theorem refuseCmd_minLen (s : State) : (refuseCmd s).minLen = s.minLen := rfl
@[simp] theorem refuseCmd_maxLen (s : State) : (refuseCmd s).maxLen = s.maxLen := rfl
@[simp] theorem refuseCmd_limitTab (s : State) : (refuseCmd s).limitTab = s.limitTab := rfl
@[simp] theorem refuseCmd_baseTab (s : State) : (refuseCmd s).baseTab = s.baseTab := rfl
@[simp] theorem refuseCmd_permute (s : State) : (refuseCmd s).permute = s.permute := rfl
@[simp] theorem refuseCmd_lengths (s : State) : (refuseCmd s).lengths = s.lengths := rfl
@[simp] theorem refuseCmd_temp (s : State) : (refuseCmd s).temp = s.temp := rfl
@[simp] theorem refuseCmd_mtfSym (s : State) : (refuseCmd s).mtfSym = s.mtfSym := rfl
@[simp] theorem refuseCmd_byteCount (s : State) : (refuseCmd s).byteCount = s.byteCount := rfl
@[simp] theorem refuseCmd_dbuf (s : State) : (refuseCmd s).dbuf = s.dbuf := rfl
@[simp] theorem refuseCmd_dbufCount (s : State) : (refuseCmd s).dbufCount = s.dbufCount := rfl
@[simp] theorem refuseCmd_selIdx (s : State) : (refuseCmd s).selIdx = s.selIdx := rfl
@[simp] theorem refuseCmd_gsymLeft (s : State) : (refuseCmd s).gsymLeft = s.gsymLeft := rfl
@[simp] theorem refuseCmd_curGroup (s : State) : (refuseCmd s).curGroup = s.curGroup := rfl
@[simp] theorem refuseCmd_runActive (s : State) : (refuseCmd s).runActive = s.runActive := rfl
@[simp] theorem refuseCmd_runPos (s : State) : (refuseCmd s).runPos = s.runPos := rfl
@[simp] theorem refuseCmd_runVal (s : State) : (refuseCmd s).runVal = s.runVal := rfl
@[simp] theorem refuseCmd_wPos (s : State) : (refuseCmd s).wPos = s.wPos := rfl
@[simp] theorem refuseCmd_wCur (s : State) : (refuseCmd s).wCur = s.wCur := rfl
@[simp] theorem refuseCmd_wRun (s : State) : (refuseCmd s).wRun = s.wRun := rfl
@[simp] theorem refuseCmd_wRemain (s : State) : (refuseCmd s).wRemain = s.wRemain := rfl
@[simp] theorem refuseCmd_pend (s : State) : (refuseCmd s).pend = s.pend := rfl
@[simp] theorem refuseCmd_pendByte (s : State) : (refuseCmd s).pendByte = s.pendByte := rfl
@[simp] theorem refuseCmd_blkLoaded (s : State) : (refuseCmd s).blkLoaded = s.blkLoaded := rfl
@[simp] theorem refuseCmd_dataCrc (s : State) : (refuseCmd s).dataCrc = s.dataCrc := rfl
@[simp] theorem refuseCmd_pos (s : State) : (refuseCmd s).pos = s.pos := rfl
@[simp] theorem refuseCmd_fLen (s : State) : (refuseCmd s).fLen = s.fLen := rfl
@[simp] theorem refuseCmd_fVal (s : State) : (refuseCmd s).fVal = s.fVal := rfl
@[simp] theorem refuseCmd_mapUsed (s : State) : (refuseCmd s).mapUsed = s.mapUsed := rfl
@[simp] theorem refuseCmd_lenT (s : State) : (refuseCmd s).lenT = s.lenT := rfl
@[simp] theorem refuseCmd_loopI (s : State) : (refuseCmd s).loopI = s.loopI := rfl
@[simp] theorem refuseCmd_loopG (s : State) : (refuseCmd s).loopG = s.loopG := rfl
@[simp] theorem refuseCmd_loopS (s : State) : (refuseCmd s).loopS = s.loopS := rfl
@[simp] theorem refuseCmd_sym (s : State) : (refuseCmd s).sym = s.sym := rfl
@[simp] theorem refuseCmd_inPort (s : State) : (refuseCmd s).inPort = s.inPort := rfl
@[simp] theorem refuseCmd_outAns (s : State) : (refuseCmd s).outAns = s.outAns := rfl
@[simp] theorem refuseCmd_out (s : State) : (refuseCmd s).out = s.out := rfl
@[simp] theorem refuseCmd_host (s : State) : (refuseCmd s).host = s.host := rfl
@[simp] theorem refuseCmd_rdata (s : State) : (refuseCmd s).rdata = s.rdata := rfl
@[simp] theorem refuseCmd_draws (s : State) : (refuseCmd s).draws = s.draws := rfl
@[simp] theorem refuseCmd_epoch (s : State) : (refuseCmd s).epoch = s.epoch := rfl

/-! ### refillAcc -/

@[simp] theorem refillAcc_ctl (b : Byte) (s : State) : (refillAcc b s).ctl = s.ctl := rfl
@[simp] theorem refillAcc_cmdRej (b : Byte) (s : State) : (refillAcc b s).cmdRej = s.cmdRej := rfl
@[simp] theorem refillAcc_errCode (b : Byte) (s : State) : (refillAcc b s).errCode = s.errCode := rfl
@[simp] theorem refillAcc_errStage (b : Byte) (s : State) : (refillAcc b s).errStage = s.errStage := rfl
@[simp] theorem refillAcc_len (b : Byte) (s : State) : (refillAcc b s).len = s.len := rfl
@[simp] theorem refillAcc_mode (b : Byte) (s : State) : (refillAcc b s).mode = s.mode := rfl
@[simp] theorem refillAcc_limit (b : Byte) (s : State) : (refillAcc b s).limit = s.limit := rfl
@[simp] theorem refillAcc_count (b : Byte) (s : State) : (refillAcc b s).count = s.count := rfl
@[simp] theorem refillAcc_level (b : Byte) (s : State) : (refillAcc b s).level = s.level := rfl
@[simp] theorem refillAcc_dbufSize (b : Byte) (s : State) : (refillAcc b s).dbufSize = s.dbufSize := rfl
@[simp] theorem refillAcc_totalCrc (b : Byte) (s : State) : (refillAcc b s).totalCrc = s.totalCrc := rfl
@[simp] theorem refillAcc_streamCrc (b : Byte) (s : State) : (refillAcc b s).streamCrc = s.streamCrc := rfl
@[simp] theorem refillAcc_blocks (b : Byte) (s : State) : (refillAcc b s).blocks = s.blocks := rfl
@[simp] theorem refillAcc_inBytes (b : Byte) (s : State) : (refillAcc b s).inBytes = s.inBytes := rfl
@[simp] theorem refillAcc_outBytes (b : Byte) (s : State) : (refillAcc b s).outBytes = s.outBytes := rfl
@[simp] theorem refillAcc_acc (b : Byte) (s : State) : (refillAcc b s).acc = (s.acc <<< 8) ||| b.setWidth 32 := rfl
@[simp] theorem refillAcc_accN (b : Byte) (s : State) : (refillAcc b s).accN = s.accN + 8 := rfl
@[simp] theorem refillAcc_headerCrc (b : Byte) (s : State) : (refillAcc b s).headerCrc = s.headerCrc := rfl
@[simp] theorem refillAcc_origPtr (b : Byte) (s : State) : (refillAcc b s).origPtr = s.origPtr := rfl
@[simp] theorem refillAcc_symTotal (b : Byte) (s : State) : (refillAcc b s).symTotal = s.symTotal := rfl
@[simp] theorem refillAcc_symToByte (b : Byte) (s : State) : (refillAcc b s).symToByte = s.symToByte := rfl
@[simp] theorem refillAcc_groupCount (b : Byte) (s : State) : (refillAcc b s).groupCount = s.groupCount := rfl
@[simp] theorem refillAcc_nSel (b : Byte) (s : State) : (refillAcc b s).nSel = s.nSel := rfl
@[simp] theorem refillAcc_selectors (b : Byte) (s : State) : (refillAcc b s).selectors = s.selectors := rfl
@[simp] theorem refillAcc_groupMtf (b : Byte) (s : State) : (refillAcc b s).groupMtf = s.groupMtf := rfl
@[simp] theorem refillAcc_minLen (b : Byte) (s : State) : (refillAcc b s).minLen = s.minLen := rfl
@[simp] theorem refillAcc_maxLen (b : Byte) (s : State) : (refillAcc b s).maxLen = s.maxLen := rfl
@[simp] theorem refillAcc_limitTab (b : Byte) (s : State) : (refillAcc b s).limitTab = s.limitTab := rfl
@[simp] theorem refillAcc_baseTab (b : Byte) (s : State) : (refillAcc b s).baseTab = s.baseTab := rfl
@[simp] theorem refillAcc_permute (b : Byte) (s : State) : (refillAcc b s).permute = s.permute := rfl
@[simp] theorem refillAcc_lengths (b : Byte) (s : State) : (refillAcc b s).lengths = s.lengths := rfl
@[simp] theorem refillAcc_temp (b : Byte) (s : State) : (refillAcc b s).temp = s.temp := rfl
@[simp] theorem refillAcc_mtfSym (b : Byte) (s : State) : (refillAcc b s).mtfSym = s.mtfSym := rfl
@[simp] theorem refillAcc_byteCount (b : Byte) (s : State) : (refillAcc b s).byteCount = s.byteCount := rfl
@[simp] theorem refillAcc_dbuf (b : Byte) (s : State) : (refillAcc b s).dbuf = s.dbuf := rfl
@[simp] theorem refillAcc_dbufCount (b : Byte) (s : State) : (refillAcc b s).dbufCount = s.dbufCount := rfl
@[simp] theorem refillAcc_selIdx (b : Byte) (s : State) : (refillAcc b s).selIdx = s.selIdx := rfl
@[simp] theorem refillAcc_gsymLeft (b : Byte) (s : State) : (refillAcc b s).gsymLeft = s.gsymLeft := rfl
@[simp] theorem refillAcc_curGroup (b : Byte) (s : State) : (refillAcc b s).curGroup = s.curGroup := rfl
@[simp] theorem refillAcc_runActive (b : Byte) (s : State) : (refillAcc b s).runActive = s.runActive := rfl
@[simp] theorem refillAcc_runPos (b : Byte) (s : State) : (refillAcc b s).runPos = s.runPos := rfl
@[simp] theorem refillAcc_runVal (b : Byte) (s : State) : (refillAcc b s).runVal = s.runVal := rfl
@[simp] theorem refillAcc_wPos (b : Byte) (s : State) : (refillAcc b s).wPos = s.wPos := rfl
@[simp] theorem refillAcc_wCur (b : Byte) (s : State) : (refillAcc b s).wCur = s.wCur := rfl
@[simp] theorem refillAcc_wRun (b : Byte) (s : State) : (refillAcc b s).wRun = s.wRun := rfl
@[simp] theorem refillAcc_wRemain (b : Byte) (s : State) : (refillAcc b s).wRemain = s.wRemain := rfl
@[simp] theorem refillAcc_pend (b : Byte) (s : State) : (refillAcc b s).pend = s.pend := rfl
@[simp] theorem refillAcc_pendByte (b : Byte) (s : State) : (refillAcc b s).pendByte = s.pendByte := rfl
@[simp] theorem refillAcc_blkLoaded (b : Byte) (s : State) : (refillAcc b s).blkLoaded = s.blkLoaded := rfl
@[simp] theorem refillAcc_dataCrc (b : Byte) (s : State) : (refillAcc b s).dataCrc = s.dataCrc := rfl
@[simp] theorem refillAcc_pos (b : Byte) (s : State) : (refillAcc b s).pos = s.pos := rfl
@[simp] theorem refillAcc_fLen (b : Byte) (s : State) : (refillAcc b s).fLen = s.fLen := rfl
@[simp] theorem refillAcc_fVal (b : Byte) (s : State) : (refillAcc b s).fVal = s.fVal := rfl
@[simp] theorem refillAcc_mapUsed (b : Byte) (s : State) : (refillAcc b s).mapUsed = s.mapUsed := rfl
@[simp] theorem refillAcc_lenT (b : Byte) (s : State) : (refillAcc b s).lenT = s.lenT := rfl
@[simp] theorem refillAcc_loopI (b : Byte) (s : State) : (refillAcc b s).loopI = s.loopI := rfl
@[simp] theorem refillAcc_loopG (b : Byte) (s : State) : (refillAcc b s).loopG = s.loopG := rfl
@[simp] theorem refillAcc_loopS (b : Byte) (s : State) : (refillAcc b s).loopS = s.loopS := rfl
@[simp] theorem refillAcc_sym (b : Byte) (s : State) : (refillAcc b s).sym = s.sym := rfl
@[simp] theorem refillAcc_inPort (b : Byte) (s : State) : (refillAcc b s).inPort = s.inPort := rfl
@[simp] theorem refillAcc_outAns (b : Byte) (s : State) : (refillAcc b s).outAns = s.outAns := rfl
@[simp] theorem refillAcc_out (b : Byte) (s : State) : (refillAcc b s).out = s.out := rfl
@[simp] theorem refillAcc_host (b : Byte) (s : State) : (refillAcc b s).host = s.host := rfl
@[simp] theorem refillAcc_rdata (b : Byte) (s : State) : (refillAcc b s).rdata = s.rdata := rfl
@[simp] theorem refillAcc_draws (b : Byte) (s : State) : (refillAcc b s).draws = s.draws := rfl
@[simp] theorem refillAcc_epoch (b : Byte) (s : State) : (refillAcc b s).epoch = s.epoch := rfl

/-! ### takeBits -/

@[simp] theorem takeBits_ctl (n : Nat) (s : State) : (takeBits n s).ctl = s.ctl := rfl
@[simp] theorem takeBits_cmdRej (n : Nat) (s : State) : (takeBits n s).cmdRej = s.cmdRej := rfl
@[simp] theorem takeBits_errCode (n : Nat) (s : State) : (takeBits n s).errCode = s.errCode := rfl
@[simp] theorem takeBits_errStage (n : Nat) (s : State) : (takeBits n s).errStage = s.errStage := rfl
@[simp] theorem takeBits_len (n : Nat) (s : State) : (takeBits n s).len = s.len := rfl
@[simp] theorem takeBits_mode (n : Nat) (s : State) : (takeBits n s).mode = s.mode := rfl
@[simp] theorem takeBits_limit (n : Nat) (s : State) : (takeBits n s).limit = s.limit := rfl
@[simp] theorem takeBits_count (n : Nat) (s : State) : (takeBits n s).count = s.count := rfl
@[simp] theorem takeBits_level (n : Nat) (s : State) : (takeBits n s).level = s.level := rfl
@[simp] theorem takeBits_dbufSize (n : Nat) (s : State) : (takeBits n s).dbufSize = s.dbufSize := rfl
@[simp] theorem takeBits_totalCrc (n : Nat) (s : State) : (takeBits n s).totalCrc = s.totalCrc := rfl
@[simp] theorem takeBits_streamCrc (n : Nat) (s : State) : (takeBits n s).streamCrc = s.streamCrc := rfl
@[simp] theorem takeBits_blocks (n : Nat) (s : State) : (takeBits n s).blocks = s.blocks := rfl
@[simp] theorem takeBits_inBytes (n : Nat) (s : State) : (takeBits n s).inBytes = s.inBytes := rfl
@[simp] theorem takeBits_outBytes (n : Nat) (s : State) : (takeBits n s).outBytes = s.outBytes := rfl
@[simp] theorem takeBits_acc (n : Nat) (s : State) : (takeBits n s).acc = s.acc := rfl
@[simp] theorem takeBits_accN (n : Nat) (s : State) : (takeBits n s).accN = s.accN - BitVec.ofNat 5 n := rfl
@[simp] theorem takeBits_headerCrc (n : Nat) (s : State) : (takeBits n s).headerCrc = s.headerCrc := rfl
@[simp] theorem takeBits_origPtr (n : Nat) (s : State) : (takeBits n s).origPtr = s.origPtr := rfl
@[simp] theorem takeBits_symTotal (n : Nat) (s : State) : (takeBits n s).symTotal = s.symTotal := rfl
@[simp] theorem takeBits_symToByte (n : Nat) (s : State) : (takeBits n s).symToByte = s.symToByte := rfl
@[simp] theorem takeBits_groupCount (n : Nat) (s : State) : (takeBits n s).groupCount = s.groupCount := rfl
@[simp] theorem takeBits_nSel (n : Nat) (s : State) : (takeBits n s).nSel = s.nSel := rfl
@[simp] theorem takeBits_selectors (n : Nat) (s : State) : (takeBits n s).selectors = s.selectors := rfl
@[simp] theorem takeBits_groupMtf (n : Nat) (s : State) : (takeBits n s).groupMtf = s.groupMtf := rfl
@[simp] theorem takeBits_minLen (n : Nat) (s : State) : (takeBits n s).minLen = s.minLen := rfl
@[simp] theorem takeBits_maxLen (n : Nat) (s : State) : (takeBits n s).maxLen = s.maxLen := rfl
@[simp] theorem takeBits_limitTab (n : Nat) (s : State) : (takeBits n s).limitTab = s.limitTab := rfl
@[simp] theorem takeBits_baseTab (n : Nat) (s : State) : (takeBits n s).baseTab = s.baseTab := rfl
@[simp] theorem takeBits_permute (n : Nat) (s : State) : (takeBits n s).permute = s.permute := rfl
@[simp] theorem takeBits_lengths (n : Nat) (s : State) : (takeBits n s).lengths = s.lengths := rfl
@[simp] theorem takeBits_temp (n : Nat) (s : State) : (takeBits n s).temp = s.temp := rfl
@[simp] theorem takeBits_mtfSym (n : Nat) (s : State) : (takeBits n s).mtfSym = s.mtfSym := rfl
@[simp] theorem takeBits_byteCount (n : Nat) (s : State) : (takeBits n s).byteCount = s.byteCount := rfl
@[simp] theorem takeBits_dbuf (n : Nat) (s : State) : (takeBits n s).dbuf = s.dbuf := rfl
@[simp] theorem takeBits_dbufCount (n : Nat) (s : State) : (takeBits n s).dbufCount = s.dbufCount := rfl
@[simp] theorem takeBits_selIdx (n : Nat) (s : State) : (takeBits n s).selIdx = s.selIdx := rfl
@[simp] theorem takeBits_gsymLeft (n : Nat) (s : State) : (takeBits n s).gsymLeft = s.gsymLeft := rfl
@[simp] theorem takeBits_curGroup (n : Nat) (s : State) : (takeBits n s).curGroup = s.curGroup := rfl
@[simp] theorem takeBits_runActive (n : Nat) (s : State) : (takeBits n s).runActive = s.runActive := rfl
@[simp] theorem takeBits_runPos (n : Nat) (s : State) : (takeBits n s).runPos = s.runPos := rfl
@[simp] theorem takeBits_runVal (n : Nat) (s : State) : (takeBits n s).runVal = s.runVal := rfl
@[simp] theorem takeBits_wPos (n : Nat) (s : State) : (takeBits n s).wPos = s.wPos := rfl
@[simp] theorem takeBits_wCur (n : Nat) (s : State) : (takeBits n s).wCur = s.wCur := rfl
@[simp] theorem takeBits_wRun (n : Nat) (s : State) : (takeBits n s).wRun = s.wRun := rfl
@[simp] theorem takeBits_wRemain (n : Nat) (s : State) : (takeBits n s).wRemain = s.wRemain := rfl
@[simp] theorem takeBits_pend (n : Nat) (s : State) : (takeBits n s).pend = s.pend := rfl
@[simp] theorem takeBits_pendByte (n : Nat) (s : State) : (takeBits n s).pendByte = s.pendByte := rfl
@[simp] theorem takeBits_blkLoaded (n : Nat) (s : State) : (takeBits n s).blkLoaded = s.blkLoaded := rfl
@[simp] theorem takeBits_dataCrc (n : Nat) (s : State) : (takeBits n s).dataCrc = s.dataCrc := rfl
@[simp] theorem takeBits_pos (n : Nat) (s : State) : (takeBits n s).pos = s.pos := rfl
@[simp] theorem takeBits_fLen (n : Nat) (s : State) : (takeBits n s).fLen = s.fLen + n := rfl
@[simp] theorem takeBits_fVal (n : Nat) (s : State) : (takeBits n s).fVal = s.fVal * 2 ^ n + accBits n s := rfl
@[simp] theorem takeBits_mapUsed (n : Nat) (s : State) : (takeBits n s).mapUsed = s.mapUsed := rfl
@[simp] theorem takeBits_lenT (n : Nat) (s : State) : (takeBits n s).lenT = s.lenT := rfl
@[simp] theorem takeBits_loopI (n : Nat) (s : State) : (takeBits n s).loopI = s.loopI := rfl
@[simp] theorem takeBits_loopG (n : Nat) (s : State) : (takeBits n s).loopG = s.loopG := rfl
@[simp] theorem takeBits_loopS (n : Nat) (s : State) : (takeBits n s).loopS = s.loopS := rfl
@[simp] theorem takeBits_sym (n : Nat) (s : State) : (takeBits n s).sym = s.sym := rfl
@[simp] theorem takeBits_inPort (n : Nat) (s : State) : (takeBits n s).inPort = s.inPort := rfl
@[simp] theorem takeBits_outAns (n : Nat) (s : State) : (takeBits n s).outAns = s.outAns := rfl
@[simp] theorem takeBits_out (n : Nat) (s : State) : (takeBits n s).out = s.out := rfl
@[simp] theorem takeBits_host (n : Nat) (s : State) : (takeBits n s).host = s.host := rfl
@[simp] theorem takeBits_rdata (n : Nat) (s : State) : (takeBits n s).rdata = s.rdata := rfl
@[simp] theorem takeBits_draws (n : Nat) (s : State) : (takeBits n s).draws = s.draws := rfl
@[simp] theorem takeBits_epoch (n : Nat) (s : State) : (takeBits n s).epoch = s.epoch := rfl

/-! ### appendBytes -/

@[simp] theorem appendBytes_ctl (n : Nat) (b : Byte) (s : State) : (appendBytes n b s).ctl = s.ctl := rfl
@[simp] theorem appendBytes_cmdRej (n : Nat) (b : Byte) (s : State) : (appendBytes n b s).cmdRej = s.cmdRej := rfl
@[simp] theorem appendBytes_errCode (n : Nat) (b : Byte) (s : State) : (appendBytes n b s).errCode = s.errCode := rfl
@[simp] theorem appendBytes_errStage (n : Nat) (b : Byte) (s : State) : (appendBytes n b s).errStage = s.errStage := rfl
@[simp] theorem appendBytes_len (n : Nat) (b : Byte) (s : State) : (appendBytes n b s).len = s.len := rfl
@[simp] theorem appendBytes_mode (n : Nat) (b : Byte) (s : State) : (appendBytes n b s).mode = s.mode := rfl
@[simp] theorem appendBytes_limit (n : Nat) (b : Byte) (s : State) : (appendBytes n b s).limit = s.limit := rfl
@[simp] theorem appendBytes_count (n : Nat) (b : Byte) (s : State) : (appendBytes n b s).count = s.count := rfl
@[simp] theorem appendBytes_level (n : Nat) (b : Byte) (s : State) : (appendBytes n b s).level = s.level := rfl
@[simp] theorem appendBytes_dbufSize (n : Nat) (b : Byte) (s : State) : (appendBytes n b s).dbufSize = s.dbufSize := rfl
@[simp] theorem appendBytes_totalCrc (n : Nat) (b : Byte) (s : State) : (appendBytes n b s).totalCrc = s.totalCrc := rfl
@[simp] theorem appendBytes_streamCrc (n : Nat) (b : Byte) (s : State) : (appendBytes n b s).streamCrc = s.streamCrc := rfl
@[simp] theorem appendBytes_blocks (n : Nat) (b : Byte) (s : State) : (appendBytes n b s).blocks = s.blocks := rfl
@[simp] theorem appendBytes_inBytes (n : Nat) (b : Byte) (s : State) : (appendBytes n b s).inBytes = s.inBytes := rfl
@[simp] theorem appendBytes_outBytes (n : Nat) (b : Byte) (s : State) : (appendBytes n b s).outBytes = s.outBytes := rfl
@[simp] theorem appendBytes_acc (n : Nat) (b : Byte) (s : State) : (appendBytes n b s).acc = s.acc := rfl
@[simp] theorem appendBytes_accN (n : Nat) (b : Byte) (s : State) : (appendBytes n b s).accN = s.accN := rfl
@[simp] theorem appendBytes_headerCrc (n : Nat) (b : Byte) (s : State) : (appendBytes n b s).headerCrc = s.headerCrc := rfl
@[simp] theorem appendBytes_origPtr (n : Nat) (b : Byte) (s : State) : (appendBytes n b s).origPtr = s.origPtr := rfl
@[simp] theorem appendBytes_symTotal (n : Nat) (b : Byte) (s : State) : (appendBytes n b s).symTotal = s.symTotal := rfl
@[simp] theorem appendBytes_symToByte (n : Nat) (b : Byte) (s : State) : (appendBytes n b s).symToByte = s.symToByte := rfl
@[simp] theorem appendBytes_groupCount (n : Nat) (b : Byte) (s : State) : (appendBytes n b s).groupCount = s.groupCount := rfl
@[simp] theorem appendBytes_nSel (n : Nat) (b : Byte) (s : State) : (appendBytes n b s).nSel = s.nSel := rfl
@[simp] theorem appendBytes_selectors (n : Nat) (b : Byte) (s : State) : (appendBytes n b s).selectors = s.selectors := rfl
@[simp] theorem appendBytes_groupMtf (n : Nat) (b : Byte) (s : State) : (appendBytes n b s).groupMtf = s.groupMtf := rfl
@[simp] theorem appendBytes_minLen (n : Nat) (b : Byte) (s : State) : (appendBytes n b s).minLen = s.minLen := rfl
@[simp] theorem appendBytes_maxLen (n : Nat) (b : Byte) (s : State) : (appendBytes n b s).maxLen = s.maxLen := rfl
@[simp] theorem appendBytes_limitTab (n : Nat) (b : Byte) (s : State) : (appendBytes n b s).limitTab = s.limitTab := rfl
@[simp] theorem appendBytes_baseTab (n : Nat) (b : Byte) (s : State) : (appendBytes n b s).baseTab = s.baseTab := rfl
@[simp] theorem appendBytes_permute (n : Nat) (b : Byte) (s : State) : (appendBytes n b s).permute = s.permute := rfl
@[simp] theorem appendBytes_lengths (n : Nat) (b : Byte) (s : State) : (appendBytes n b s).lengths = s.lengths := rfl
@[simp] theorem appendBytes_temp (n : Nat) (b : Byte) (s : State) : (appendBytes n b s).temp = s.temp := rfl
@[simp] theorem appendBytes_mtfSym (n : Nat) (b : Byte) (s : State) : (appendBytes n b s).mtfSym = s.mtfSym := rfl
@[simp] theorem appendBytes_byteCount (n : Nat) (b : Byte) (s : State) : (appendBytes n b s).byteCount = memWrite s.byteCount b.toNat (byteCountAt s b.toNat + BitVec.ofNat 20 n) := rfl
@[simp] theorem appendBytes_dbuf (n : Nat) (b : Byte) (s : State) : (appendBytes n b s).dbuf = memWriteSeq s.dbuf s.dbufCount.toNat (List.replicate n (b.setWidth 32)) := rfl
@[simp] theorem appendBytes_dbufCount (n : Nat) (b : Byte) (s : State) : (appendBytes n b s).dbufCount = s.dbufCount + BitVec.ofNat 20 n := rfl
@[simp] theorem appendBytes_selIdx (n : Nat) (b : Byte) (s : State) : (appendBytes n b s).selIdx = s.selIdx := rfl
@[simp] theorem appendBytes_gsymLeft (n : Nat) (b : Byte) (s : State) : (appendBytes n b s).gsymLeft = s.gsymLeft := rfl
@[simp] theorem appendBytes_curGroup (n : Nat) (b : Byte) (s : State) : (appendBytes n b s).curGroup = s.curGroup := rfl
@[simp] theorem appendBytes_runActive (n : Nat) (b : Byte) (s : State) : (appendBytes n b s).runActive = s.runActive := rfl
@[simp] theorem appendBytes_runPos (n : Nat) (b : Byte) (s : State) : (appendBytes n b s).runPos = s.runPos := rfl
@[simp] theorem appendBytes_runVal (n : Nat) (b : Byte) (s : State) : (appendBytes n b s).runVal = s.runVal := rfl
@[simp] theorem appendBytes_wPos (n : Nat) (b : Byte) (s : State) : (appendBytes n b s).wPos = s.wPos := rfl
@[simp] theorem appendBytes_wCur (n : Nat) (b : Byte) (s : State) : (appendBytes n b s).wCur = s.wCur := rfl
@[simp] theorem appendBytes_wRun (n : Nat) (b : Byte) (s : State) : (appendBytes n b s).wRun = s.wRun := rfl
@[simp] theorem appendBytes_wRemain (n : Nat) (b : Byte) (s : State) : (appendBytes n b s).wRemain = s.wRemain := rfl
@[simp] theorem appendBytes_pend (n : Nat) (b : Byte) (s : State) : (appendBytes n b s).pend = s.pend := rfl
@[simp] theorem appendBytes_pendByte (n : Nat) (b : Byte) (s : State) : (appendBytes n b s).pendByte = s.pendByte := rfl
@[simp] theorem appendBytes_blkLoaded (n : Nat) (b : Byte) (s : State) : (appendBytes n b s).blkLoaded = s.blkLoaded := rfl
@[simp] theorem appendBytes_dataCrc (n : Nat) (b : Byte) (s : State) : (appendBytes n b s).dataCrc = s.dataCrc := rfl
@[simp] theorem appendBytes_pos (n : Nat) (b : Byte) (s : State) : (appendBytes n b s).pos = s.pos := rfl
@[simp] theorem appendBytes_fLen (n : Nat) (b : Byte) (s : State) : (appendBytes n b s).fLen = s.fLen := rfl
@[simp] theorem appendBytes_fVal (n : Nat) (b : Byte) (s : State) : (appendBytes n b s).fVal = s.fVal := rfl
@[simp] theorem appendBytes_mapUsed (n : Nat) (b : Byte) (s : State) : (appendBytes n b s).mapUsed = s.mapUsed := rfl
@[simp] theorem appendBytes_lenT (n : Nat) (b : Byte) (s : State) : (appendBytes n b s).lenT = s.lenT := rfl
@[simp] theorem appendBytes_loopI (n : Nat) (b : Byte) (s : State) : (appendBytes n b s).loopI = s.loopI := rfl
@[simp] theorem appendBytes_loopG (n : Nat) (b : Byte) (s : State) : (appendBytes n b s).loopG = s.loopG := rfl
@[simp] theorem appendBytes_loopS (n : Nat) (b : Byte) (s : State) : (appendBytes n b s).loopS = s.loopS := rfl
@[simp] theorem appendBytes_sym (n : Nat) (b : Byte) (s : State) : (appendBytes n b s).sym = s.sym := rfl
@[simp] theorem appendBytes_inPort (n : Nat) (b : Byte) (s : State) : (appendBytes n b s).inPort = s.inPort := rfl
@[simp] theorem appendBytes_outAns (n : Nat) (b : Byte) (s : State) : (appendBytes n b s).outAns = s.outAns := rfl
@[simp] theorem appendBytes_out (n : Nat) (b : Byte) (s : State) : (appendBytes n b s).out = s.out := rfl
@[simp] theorem appendBytes_host (n : Nat) (b : Byte) (s : State) : (appendBytes n b s).host = s.host := rfl
@[simp] theorem appendBytes_rdata (n : Nat) (b : Byte) (s : State) : (appendBytes n b s).rdata = s.rdata := rfl
@[simp] theorem appendBytes_draws (n : Nat) (b : Byte) (s : State) : (appendBytes n b s).draws = s.draws := rfl
@[simp] theorem appendBytes_epoch (n : Nat) (b : Byte) (s : State) : (appendBytes n b s).epoch = s.epoch := rfl

/-! ### chainAdvance -/

@[simp] theorem chainAdvance_ctl (s : State) : (chainAdvance s).ctl = s.ctl := rfl
@[simp] theorem chainAdvance_cmdRej (s : State) : (chainAdvance s).cmdRej = s.cmdRej := rfl
@[simp] theorem chainAdvance_errCode (s : State) : (chainAdvance s).errCode = s.errCode := rfl
@[simp] theorem chainAdvance_errStage (s : State) : (chainAdvance s).errStage = s.errStage := rfl
@[simp] theorem chainAdvance_len (s : State) : (chainAdvance s).len = s.len := rfl
@[simp] theorem chainAdvance_mode (s : State) : (chainAdvance s).mode = s.mode := rfl
@[simp] theorem chainAdvance_limit (s : State) : (chainAdvance s).limit = s.limit := rfl
@[simp] theorem chainAdvance_count (s : State) : (chainAdvance s).count = s.count := rfl
@[simp] theorem chainAdvance_level (s : State) : (chainAdvance s).level = s.level := rfl
@[simp] theorem chainAdvance_dbufSize (s : State) : (chainAdvance s).dbufSize = s.dbufSize := rfl
@[simp] theorem chainAdvance_totalCrc (s : State) : (chainAdvance s).totalCrc = s.totalCrc := rfl
@[simp] theorem chainAdvance_streamCrc (s : State) : (chainAdvance s).streamCrc = s.streamCrc := rfl
@[simp] theorem chainAdvance_blocks (s : State) : (chainAdvance s).blocks = s.blocks := rfl
@[simp] theorem chainAdvance_inBytes (s : State) : (chainAdvance s).inBytes = s.inBytes := rfl
@[simp] theorem chainAdvance_outBytes (s : State) : (chainAdvance s).outBytes = s.outBytes := rfl
@[simp] theorem chainAdvance_acc (s : State) : (chainAdvance s).acc = s.acc := rfl
@[simp] theorem chainAdvance_accN (s : State) : (chainAdvance s).accN = s.accN := rfl
@[simp] theorem chainAdvance_headerCrc (s : State) : (chainAdvance s).headerCrc = s.headerCrc := rfl
@[simp] theorem chainAdvance_origPtr (s : State) : (chainAdvance s).origPtr = s.origPtr := rfl
@[simp] theorem chainAdvance_symTotal (s : State) : (chainAdvance s).symTotal = s.symTotal := rfl
@[simp] theorem chainAdvance_symToByte (s : State) : (chainAdvance s).symToByte = s.symToByte := rfl
@[simp] theorem chainAdvance_groupCount (s : State) : (chainAdvance s).groupCount = s.groupCount := rfl
@[simp] theorem chainAdvance_nSel (s : State) : (chainAdvance s).nSel = s.nSel := rfl
@[simp] theorem chainAdvance_selectors (s : State) : (chainAdvance s).selectors = s.selectors := rfl
@[simp] theorem chainAdvance_groupMtf (s : State) : (chainAdvance s).groupMtf = s.groupMtf := rfl
@[simp] theorem chainAdvance_minLen (s : State) : (chainAdvance s).minLen = s.minLen := rfl
@[simp] theorem chainAdvance_maxLen (s : State) : (chainAdvance s).maxLen = s.maxLen := rfl
@[simp] theorem chainAdvance_limitTab (s : State) : (chainAdvance s).limitTab = s.limitTab := rfl
@[simp] theorem chainAdvance_baseTab (s : State) : (chainAdvance s).baseTab = s.baseTab := rfl
@[simp] theorem chainAdvance_permute (s : State) : (chainAdvance s).permute = s.permute := rfl
@[simp] theorem chainAdvance_lengths (s : State) : (chainAdvance s).lengths = s.lengths := rfl
@[simp] theorem chainAdvance_temp (s : State) : (chainAdvance s).temp = s.temp := rfl
@[simp] theorem chainAdvance_mtfSym (s : State) : (chainAdvance s).mtfSym = s.mtfSym := rfl
@[simp] theorem chainAdvance_byteCount (s : State) : (chainAdvance s).byteCount = s.byteCount := rfl
@[simp] theorem chainAdvance_dbuf (s : State) : (chainAdvance s).dbuf = s.dbuf := rfl
@[simp] theorem chainAdvance_dbufCount (s : State) : (chainAdvance s).dbufCount = s.dbufCount := rfl
@[simp] theorem chainAdvance_selIdx (s : State) : (chainAdvance s).selIdx = s.selIdx := rfl
@[simp] theorem chainAdvance_gsymLeft (s : State) : (chainAdvance s).gsymLeft = s.gsymLeft := rfl
@[simp] theorem chainAdvance_curGroup (s : State) : (chainAdvance s).curGroup = s.curGroup := rfl
@[simp] theorem chainAdvance_runActive (s : State) : (chainAdvance s).runActive = s.runActive := rfl
@[simp] theorem chainAdvance_runPos (s : State) : (chainAdvance s).runPos = s.runPos := rfl
@[simp] theorem chainAdvance_runVal (s : State) : (chainAdvance s).runVal = s.runVal := rfl
@[simp] theorem chainAdvance_wPos (s : State) : (chainAdvance s).wPos = wordNext (dbufAt s s.wPos.toNat) := rfl
@[simp] theorem chainAdvance_wCur (s : State) : (chainAdvance s).wCur = s.wCur := rfl
@[simp] theorem chainAdvance_wRun (s : State) : (chainAdvance s).wRun = s.wRun := rfl
@[simp] theorem chainAdvance_wRemain (s : State) : (chainAdvance s).wRemain = s.wRemain - 1 := rfl
@[simp] theorem chainAdvance_pend (s : State) : (chainAdvance s).pend = s.pend := rfl
@[simp] theorem chainAdvance_pendByte (s : State) : (chainAdvance s).pendByte = s.pendByte := rfl
@[simp] theorem chainAdvance_blkLoaded (s : State) : (chainAdvance s).blkLoaded = s.blkLoaded := rfl
@[simp] theorem chainAdvance_dataCrc (s : State) : (chainAdvance s).dataCrc = s.dataCrc := rfl
@[simp] theorem chainAdvance_pos (s : State) : (chainAdvance s).pos = s.pos := rfl
@[simp] theorem chainAdvance_fLen (s : State) : (chainAdvance s).fLen = s.fLen := rfl
@[simp] theorem chainAdvance_fVal (s : State) : (chainAdvance s).fVal = s.fVal := rfl
@[simp] theorem chainAdvance_mapUsed (s : State) : (chainAdvance s).mapUsed = s.mapUsed := rfl
@[simp] theorem chainAdvance_lenT (s : State) : (chainAdvance s).lenT = s.lenT := rfl
@[simp] theorem chainAdvance_loopI (s : State) : (chainAdvance s).loopI = s.loopI := rfl
@[simp] theorem chainAdvance_loopG (s : State) : (chainAdvance s).loopG = s.loopG := rfl
@[simp] theorem chainAdvance_loopS (s : State) : (chainAdvance s).loopS = s.loopS := rfl
@[simp] theorem chainAdvance_sym (s : State) : (chainAdvance s).sym = s.sym := rfl
@[simp] theorem chainAdvance_inPort (s : State) : (chainAdvance s).inPort = s.inPort := rfl
@[simp] theorem chainAdvance_outAns (s : State) : (chainAdvance s).outAns = s.outAns := rfl
@[simp] theorem chainAdvance_out (s : State) : (chainAdvance s).out = s.out := rfl
@[simp] theorem chainAdvance_host (s : State) : (chainAdvance s).host = s.host := rfl
@[simp] theorem chainAdvance_rdata (s : State) : (chainAdvance s).rdata = s.rdata := rfl
@[simp] theorem chainAdvance_draws (s : State) : (chainAdvance s).draws = s.draws := rfl
@[simp] theorem chainAdvance_epoch (s : State) : (chainAdvance s).epoch = s.epoch := rfl

/-! ### setLimit -/

@[simp] theorem setLimit_ctl (g l : Nat) (v : Int) (s : State) : (setLimit g l v s).ctl = s.ctl := rfl
@[simp] theorem setLimit_cmdRej (g l : Nat) (v : Int) (s : State) : (setLimit g l v s).cmdRej = s.cmdRej := rfl
@[simp] theorem setLimit_errCode (g l : Nat) (v : Int) (s : State) : (setLimit g l v s).errCode = s.errCode := rfl
@[simp] theorem setLimit_errStage (g l : Nat) (v : Int) (s : State) : (setLimit g l v s).errStage = s.errStage := rfl
@[simp] theorem setLimit_len (g l : Nat) (v : Int) (s : State) : (setLimit g l v s).len = s.len := rfl
@[simp] theorem setLimit_mode (g l : Nat) (v : Int) (s : State) : (setLimit g l v s).mode = s.mode := rfl
@[simp] theorem setLimit_limit (g l : Nat) (v : Int) (s : State) : (setLimit g l v s).limit = s.limit := rfl
@[simp] theorem setLimit_count (g l : Nat) (v : Int) (s : State) : (setLimit g l v s).count = s.count := rfl
@[simp] theorem setLimit_level (g l : Nat) (v : Int) (s : State) : (setLimit g l v s).level = s.level := rfl
@[simp] theorem setLimit_dbufSize (g l : Nat) (v : Int) (s : State) : (setLimit g l v s).dbufSize = s.dbufSize := rfl
@[simp] theorem setLimit_totalCrc (g l : Nat) (v : Int) (s : State) : (setLimit g l v s).totalCrc = s.totalCrc := rfl
@[simp] theorem setLimit_streamCrc (g l : Nat) (v : Int) (s : State) : (setLimit g l v s).streamCrc = s.streamCrc := rfl
@[simp] theorem setLimit_blocks (g l : Nat) (v : Int) (s : State) : (setLimit g l v s).blocks = s.blocks := rfl
@[simp] theorem setLimit_inBytes (g l : Nat) (v : Int) (s : State) : (setLimit g l v s).inBytes = s.inBytes := rfl
@[simp] theorem setLimit_outBytes (g l : Nat) (v : Int) (s : State) : (setLimit g l v s).outBytes = s.outBytes := rfl
@[simp] theorem setLimit_acc (g l : Nat) (v : Int) (s : State) : (setLimit g l v s).acc = s.acc := rfl
@[simp] theorem setLimit_accN (g l : Nat) (v : Int) (s : State) : (setLimit g l v s).accN = s.accN := rfl
@[simp] theorem setLimit_headerCrc (g l : Nat) (v : Int) (s : State) : (setLimit g l v s).headerCrc = s.headerCrc := rfl
@[simp] theorem setLimit_origPtr (g l : Nat) (v : Int) (s : State) : (setLimit g l v s).origPtr = s.origPtr := rfl
@[simp] theorem setLimit_symTotal (g l : Nat) (v : Int) (s : State) : (setLimit g l v s).symTotal = s.symTotal := rfl
@[simp] theorem setLimit_symToByte (g l : Nat) (v : Int) (s : State) : (setLimit g l v s).symToByte = s.symToByte := rfl
@[simp] theorem setLimit_groupCount (g l : Nat) (v : Int) (s : State) : (setLimit g l v s).groupCount = s.groupCount := rfl
@[simp] theorem setLimit_nSel (g l : Nat) (v : Int) (s : State) : (setLimit g l v s).nSel = s.nSel := rfl
@[simp] theorem setLimit_selectors (g l : Nat) (v : Int) (s : State) : (setLimit g l v s).selectors = s.selectors := rfl
@[simp] theorem setLimit_groupMtf (g l : Nat) (v : Int) (s : State) : (setLimit g l v s).groupMtf = s.groupMtf := rfl
@[simp] theorem setLimit_minLen (g l : Nat) (v : Int) (s : State) : (setLimit g l v s).minLen = s.minLen := rfl
@[simp] theorem setLimit_maxLen (g l : Nat) (v : Int) (s : State) : (setLimit g l v s).maxLen = s.maxLen := rfl
@[simp] theorem setLimit_limitTab (g l : Nat) (v : Int) (s : State) : (setLimit g l v s).limitTab = memWrite s.limitTab (tableIx lenColumns g l) (BitVec.ofInt 32 v) := rfl
@[simp] theorem setLimit_baseTab (g l : Nat) (v : Int) (s : State) : (setLimit g l v s).baseTab = s.baseTab := rfl
@[simp] theorem setLimit_permute (g l : Nat) (v : Int) (s : State) : (setLimit g l v s).permute = s.permute := rfl
@[simp] theorem setLimit_lengths (g l : Nat) (v : Int) (s : State) : (setLimit g l v s).lengths = s.lengths := rfl
@[simp] theorem setLimit_temp (g l : Nat) (v : Int) (s : State) : (setLimit g l v s).temp = s.temp := rfl
@[simp] theorem setLimit_mtfSym (g l : Nat) (v : Int) (s : State) : (setLimit g l v s).mtfSym = s.mtfSym := rfl
@[simp] theorem setLimit_byteCount (g l : Nat) (v : Int) (s : State) : (setLimit g l v s).byteCount = s.byteCount := rfl
@[simp] theorem setLimit_dbuf (g l : Nat) (v : Int) (s : State) : (setLimit g l v s).dbuf = s.dbuf := rfl
@[simp] theorem setLimit_dbufCount (g l : Nat) (v : Int) (s : State) : (setLimit g l v s).dbufCount = s.dbufCount := rfl
@[simp] theorem setLimit_selIdx (g l : Nat) (v : Int) (s : State) : (setLimit g l v s).selIdx = s.selIdx := rfl
@[simp] theorem setLimit_gsymLeft (g l : Nat) (v : Int) (s : State) : (setLimit g l v s).gsymLeft = s.gsymLeft := rfl
@[simp] theorem setLimit_curGroup (g l : Nat) (v : Int) (s : State) : (setLimit g l v s).curGroup = s.curGroup := rfl
@[simp] theorem setLimit_runActive (g l : Nat) (v : Int) (s : State) : (setLimit g l v s).runActive = s.runActive := rfl
@[simp] theorem setLimit_runPos (g l : Nat) (v : Int) (s : State) : (setLimit g l v s).runPos = s.runPos := rfl
@[simp] theorem setLimit_runVal (g l : Nat) (v : Int) (s : State) : (setLimit g l v s).runVal = s.runVal := rfl
@[simp] theorem setLimit_wPos (g l : Nat) (v : Int) (s : State) : (setLimit g l v s).wPos = s.wPos := rfl
@[simp] theorem setLimit_wCur (g l : Nat) (v : Int) (s : State) : (setLimit g l v s).wCur = s.wCur := rfl
@[simp] theorem setLimit_wRun (g l : Nat) (v : Int) (s : State) : (setLimit g l v s).wRun = s.wRun := rfl
@[simp] theorem setLimit_wRemain (g l : Nat) (v : Int) (s : State) : (setLimit g l v s).wRemain = s.wRemain := rfl
@[simp] theorem setLimit_pend (g l : Nat) (v : Int) (s : State) : (setLimit g l v s).pend = s.pend := rfl
@[simp] theorem setLimit_pendByte (g l : Nat) (v : Int) (s : State) : (setLimit g l v s).pendByte = s.pendByte := rfl
@[simp] theorem setLimit_blkLoaded (g l : Nat) (v : Int) (s : State) : (setLimit g l v s).blkLoaded = s.blkLoaded := rfl
@[simp] theorem setLimit_dataCrc (g l : Nat) (v : Int) (s : State) : (setLimit g l v s).dataCrc = s.dataCrc := rfl
@[simp] theorem setLimit_pos (g l : Nat) (v : Int) (s : State) : (setLimit g l v s).pos = s.pos := rfl
@[simp] theorem setLimit_fLen (g l : Nat) (v : Int) (s : State) : (setLimit g l v s).fLen = s.fLen := rfl
@[simp] theorem setLimit_fVal (g l : Nat) (v : Int) (s : State) : (setLimit g l v s).fVal = s.fVal := rfl
@[simp] theorem setLimit_mapUsed (g l : Nat) (v : Int) (s : State) : (setLimit g l v s).mapUsed = s.mapUsed := rfl
@[simp] theorem setLimit_lenT (g l : Nat) (v : Int) (s : State) : (setLimit g l v s).lenT = s.lenT := rfl
@[simp] theorem setLimit_loopI (g l : Nat) (v : Int) (s : State) : (setLimit g l v s).loopI = s.loopI := rfl
@[simp] theorem setLimit_loopG (g l : Nat) (v : Int) (s : State) : (setLimit g l v s).loopG = s.loopG := rfl
@[simp] theorem setLimit_loopS (g l : Nat) (v : Int) (s : State) : (setLimit g l v s).loopS = s.loopS := rfl
@[simp] theorem setLimit_sym (g l : Nat) (v : Int) (s : State) : (setLimit g l v s).sym = s.sym := rfl
@[simp] theorem setLimit_inPort (g l : Nat) (v : Int) (s : State) : (setLimit g l v s).inPort = s.inPort := rfl
@[simp] theorem setLimit_outAns (g l : Nat) (v : Int) (s : State) : (setLimit g l v s).outAns = s.outAns := rfl
@[simp] theorem setLimit_out (g l : Nat) (v : Int) (s : State) : (setLimit g l v s).out = s.out := rfl
@[simp] theorem setLimit_host (g l : Nat) (v : Int) (s : State) : (setLimit g l v s).host = s.host := rfl
@[simp] theorem setLimit_rdata (g l : Nat) (v : Int) (s : State) : (setLimit g l v s).rdata = s.rdata := rfl
@[simp] theorem setLimit_draws (g l : Nat) (v : Int) (s : State) : (setLimit g l v s).draws = s.draws := rfl
@[simp] theorem setLimit_epoch (g l : Nat) (v : Int) (s : State) : (setLimit g l v s).epoch = s.epoch := rfl

/-! ### setBase -/

@[simp] theorem setBase_ctl (g l : Nat) (v : Int) (s : State) : (setBase g l v s).ctl = s.ctl := rfl
@[simp] theorem setBase_cmdRej (g l : Nat) (v : Int) (s : State) : (setBase g l v s).cmdRej = s.cmdRej := rfl
@[simp] theorem setBase_errCode (g l : Nat) (v : Int) (s : State) : (setBase g l v s).errCode = s.errCode := rfl
@[simp] theorem setBase_errStage (g l : Nat) (v : Int) (s : State) : (setBase g l v s).errStage = s.errStage := rfl
@[simp] theorem setBase_len (g l : Nat) (v : Int) (s : State) : (setBase g l v s).len = s.len := rfl
@[simp] theorem setBase_mode (g l : Nat) (v : Int) (s : State) : (setBase g l v s).mode = s.mode := rfl
@[simp] theorem setBase_limit (g l : Nat) (v : Int) (s : State) : (setBase g l v s).limit = s.limit := rfl
@[simp] theorem setBase_count (g l : Nat) (v : Int) (s : State) : (setBase g l v s).count = s.count := rfl
@[simp] theorem setBase_level (g l : Nat) (v : Int) (s : State) : (setBase g l v s).level = s.level := rfl
@[simp] theorem setBase_dbufSize (g l : Nat) (v : Int) (s : State) : (setBase g l v s).dbufSize = s.dbufSize := rfl
@[simp] theorem setBase_totalCrc (g l : Nat) (v : Int) (s : State) : (setBase g l v s).totalCrc = s.totalCrc := rfl
@[simp] theorem setBase_streamCrc (g l : Nat) (v : Int) (s : State) : (setBase g l v s).streamCrc = s.streamCrc := rfl
@[simp] theorem setBase_blocks (g l : Nat) (v : Int) (s : State) : (setBase g l v s).blocks = s.blocks := rfl
@[simp] theorem setBase_inBytes (g l : Nat) (v : Int) (s : State) : (setBase g l v s).inBytes = s.inBytes := rfl
@[simp] theorem setBase_outBytes (g l : Nat) (v : Int) (s : State) : (setBase g l v s).outBytes = s.outBytes := rfl
@[simp] theorem setBase_acc (g l : Nat) (v : Int) (s : State) : (setBase g l v s).acc = s.acc := rfl
@[simp] theorem setBase_accN (g l : Nat) (v : Int) (s : State) : (setBase g l v s).accN = s.accN := rfl
@[simp] theorem setBase_headerCrc (g l : Nat) (v : Int) (s : State) : (setBase g l v s).headerCrc = s.headerCrc := rfl
@[simp] theorem setBase_origPtr (g l : Nat) (v : Int) (s : State) : (setBase g l v s).origPtr = s.origPtr := rfl
@[simp] theorem setBase_symTotal (g l : Nat) (v : Int) (s : State) : (setBase g l v s).symTotal = s.symTotal := rfl
@[simp] theorem setBase_symToByte (g l : Nat) (v : Int) (s : State) : (setBase g l v s).symToByte = s.symToByte := rfl
@[simp] theorem setBase_groupCount (g l : Nat) (v : Int) (s : State) : (setBase g l v s).groupCount = s.groupCount := rfl
@[simp] theorem setBase_nSel (g l : Nat) (v : Int) (s : State) : (setBase g l v s).nSel = s.nSel := rfl
@[simp] theorem setBase_selectors (g l : Nat) (v : Int) (s : State) : (setBase g l v s).selectors = s.selectors := rfl
@[simp] theorem setBase_groupMtf (g l : Nat) (v : Int) (s : State) : (setBase g l v s).groupMtf = s.groupMtf := rfl
@[simp] theorem setBase_minLen (g l : Nat) (v : Int) (s : State) : (setBase g l v s).minLen = s.minLen := rfl
@[simp] theorem setBase_maxLen (g l : Nat) (v : Int) (s : State) : (setBase g l v s).maxLen = s.maxLen := rfl
@[simp] theorem setBase_limitTab (g l : Nat) (v : Int) (s : State) : (setBase g l v s).limitTab = s.limitTab := rfl
@[simp] theorem setBase_baseTab (g l : Nat) (v : Int) (s : State) : (setBase g l v s).baseTab = memWrite s.baseTab (tableIx lenColumns g l) (BitVec.ofInt 32 v) := rfl
@[simp] theorem setBase_permute (g l : Nat) (v : Int) (s : State) : (setBase g l v s).permute = s.permute := rfl
@[simp] theorem setBase_lengths (g l : Nat) (v : Int) (s : State) : (setBase g l v s).lengths = s.lengths := rfl
@[simp] theorem setBase_temp (g l : Nat) (v : Int) (s : State) : (setBase g l v s).temp = s.temp := rfl
@[simp] theorem setBase_mtfSym (g l : Nat) (v : Int) (s : State) : (setBase g l v s).mtfSym = s.mtfSym := rfl
@[simp] theorem setBase_byteCount (g l : Nat) (v : Int) (s : State) : (setBase g l v s).byteCount = s.byteCount := rfl
@[simp] theorem setBase_dbuf (g l : Nat) (v : Int) (s : State) : (setBase g l v s).dbuf = s.dbuf := rfl
@[simp] theorem setBase_dbufCount (g l : Nat) (v : Int) (s : State) : (setBase g l v s).dbufCount = s.dbufCount := rfl
@[simp] theorem setBase_selIdx (g l : Nat) (v : Int) (s : State) : (setBase g l v s).selIdx = s.selIdx := rfl
@[simp] theorem setBase_gsymLeft (g l : Nat) (v : Int) (s : State) : (setBase g l v s).gsymLeft = s.gsymLeft := rfl
@[simp] theorem setBase_curGroup (g l : Nat) (v : Int) (s : State) : (setBase g l v s).curGroup = s.curGroup := rfl
@[simp] theorem setBase_runActive (g l : Nat) (v : Int) (s : State) : (setBase g l v s).runActive = s.runActive := rfl
@[simp] theorem setBase_runPos (g l : Nat) (v : Int) (s : State) : (setBase g l v s).runPos = s.runPos := rfl
@[simp] theorem setBase_runVal (g l : Nat) (v : Int) (s : State) : (setBase g l v s).runVal = s.runVal := rfl
@[simp] theorem setBase_wPos (g l : Nat) (v : Int) (s : State) : (setBase g l v s).wPos = s.wPos := rfl
@[simp] theorem setBase_wCur (g l : Nat) (v : Int) (s : State) : (setBase g l v s).wCur = s.wCur := rfl
@[simp] theorem setBase_wRun (g l : Nat) (v : Int) (s : State) : (setBase g l v s).wRun = s.wRun := rfl
@[simp] theorem setBase_wRemain (g l : Nat) (v : Int) (s : State) : (setBase g l v s).wRemain = s.wRemain := rfl
@[simp] theorem setBase_pend (g l : Nat) (v : Int) (s : State) : (setBase g l v s).pend = s.pend := rfl
@[simp] theorem setBase_pendByte (g l : Nat) (v : Int) (s : State) : (setBase g l v s).pendByte = s.pendByte := rfl
@[simp] theorem setBase_blkLoaded (g l : Nat) (v : Int) (s : State) : (setBase g l v s).blkLoaded = s.blkLoaded := rfl
@[simp] theorem setBase_dataCrc (g l : Nat) (v : Int) (s : State) : (setBase g l v s).dataCrc = s.dataCrc := rfl
@[simp] theorem setBase_pos (g l : Nat) (v : Int) (s : State) : (setBase g l v s).pos = s.pos := rfl
@[simp] theorem setBase_fLen (g l : Nat) (v : Int) (s : State) : (setBase g l v s).fLen = s.fLen := rfl
@[simp] theorem setBase_fVal (g l : Nat) (v : Int) (s : State) : (setBase g l v s).fVal = s.fVal := rfl
@[simp] theorem setBase_mapUsed (g l : Nat) (v : Int) (s : State) : (setBase g l v s).mapUsed = s.mapUsed := rfl
@[simp] theorem setBase_lenT (g l : Nat) (v : Int) (s : State) : (setBase g l v s).lenT = s.lenT := rfl
@[simp] theorem setBase_loopI (g l : Nat) (v : Int) (s : State) : (setBase g l v s).loopI = s.loopI := rfl
@[simp] theorem setBase_loopG (g l : Nat) (v : Int) (s : State) : (setBase g l v s).loopG = s.loopG := rfl
@[simp] theorem setBase_loopS (g l : Nat) (v : Int) (s : State) : (setBase g l v s).loopS = s.loopS := rfl
@[simp] theorem setBase_sym (g l : Nat) (v : Int) (s : State) : (setBase g l v s).sym = s.sym := rfl
@[simp] theorem setBase_inPort (g l : Nat) (v : Int) (s : State) : (setBase g l v s).inPort = s.inPort := rfl
@[simp] theorem setBase_outAns (g l : Nat) (v : Int) (s : State) : (setBase g l v s).outAns = s.outAns := rfl
@[simp] theorem setBase_out (g l : Nat) (v : Int) (s : State) : (setBase g l v s).out = s.out := rfl
@[simp] theorem setBase_host (g l : Nat) (v : Int) (s : State) : (setBase g l v s).host = s.host := rfl
@[simp] theorem setBase_rdata (g l : Nat) (v : Int) (s : State) : (setBase g l v s).rdata = s.rdata := rfl
@[simp] theorem setBase_draws (g l : Nat) (v : Int) (s : State) : (setBase g l v s).draws = s.draws := rfl
@[simp] theorem setBase_epoch (g l : Nat) (v : Int) (s : State) : (setBase g l v s).epoch = s.epoch := rfl

end Sys2Proof.Machine
end

