-- ==== Sys2Proof/Laws/Ops.lean ====
section
/-! SUPPORT. For each shared operation, one lemma that says everything it can do. The meanings and the claims cite these
instead of unfolding the operation. -/

namespace Sys2Proof.Machine

/-! ### Answers of operations -/

@[simp] theorem Act.bind_go (s : State) (k : State → Act) : (Act.go s).bind k = k s := rfl
@[simp] theorem Act.bind_halt (s : State) (k : State → Act) : (Act.halt s).bind k = .halt s := rfl
@[simp] theorem Act.bind_hold (k : State → Act) : Act.hold.bind k = .hold := rfl
@[simp] theorem Act.bind_fault (f : Fault) (k : State → Act) : (Act.fault f).bind k = .fault f := rfl
@[simp] theorem Act.bind_refuse (r : Refusal) (k : State → Act) : (Act.refuse r).bind k = .refuse r := rfl
@[simp] theorem Act.out_go (s s0 : State) : (Act.go s).out s0 = .next s := rfl
@[simp] theorem Act.out_halt (s s0 : State) : (Act.halt s).out s0 = .next s := rfl
@[simp] theorem Act.out_hold (s0 : State) : Act.hold.out s0 = .next s0 := rfl
@[simp] theorem Act.out_fault (f : Fault) (s0 : State) : (Act.fault f).out s0 = .fault f := rfl
@[simp] theorem Act.out_refuse (r : Refusal) (s0 : State) : (Act.refuse r).out s0 = .refused r := rfl

/-- An operation's step gives a next state where the operation is done, has raised an error, or holds. -/
theorem Act.out_next {a : Act} {s0 t : State} :
    a.out s0 = .next t ↔ a = .go t ∨ a = .halt t ∨ (a = .hold ∧ s0 = t) := by
  cases a <;> simp [Act.out]

/-- What a bound operation can answer. -/
theorem Act.bind_cases {a : Act} {k : State → Act} {r : Act} (h : a.bind k = r) :
    (∃ s, a = .go s ∧ k s = r) ∨ (∃ s, a = .halt s ∧ r = .halt s) ∨ (a = .hold ∧ r = .hold) ∨
      (∃ f, a = .fault f ∧ r = .fault f) ∨ ∃ q, a = .refuse q ∧ r = .refuse q := by
  subst h
  cases a with
  | go s => exact .inl ⟨s, rfl, rfl⟩
  | halt s => exact .inr (.inl ⟨s, rfl, rfl⟩)
  | hold => exact .inr (.inr (.inl ⟨rfl, rfl⟩))
  | fault f => exact .inr (.inr (.inr (.inl ⟨f, rfl, rfl⟩)))
  | refuse q => exact .inr (.inr (.inr (.inr ⟨q, rfl, rfl⟩)))

theorem guardIx_of_lt {m : MemId} {n i : Nat} {k : Act} (h : i < n) : guardIx m n i k = k := if_pos h

theorem guardIx_of_ge {m : MemId} {n i : Nat} {k : Act} (h : n ≤ i) : guardIx m n i k = .fault (.memRange m i) :=
  if_neg (by omega)

/-! ### The bit reader -/

/-- `FetchByte()` holds, takes a byte, or raises an error (R122). -/
theorem fetchToken_cases (s : State) :
    (s.inPort = [] ∧ fetchToken s = .hold) ∨
    (∃ b ts, s.inPort = .byte b :: ts ∧ fetchToken s = .byte b { s with inPort := ts, inBytes := s.inBytes + 1 }) ∨
    (∃ ts, s.inPort = .endOfInput :: ts ∧
      fetchToken s = .ended (raiseError .unexpectedEof (stageOf s) { s with inPort := ts })) ∨
    (∃ ts, s.inPort = .ioErr :: ts ∧
      fetchToken s = .ended (raiseError .ioError (stageOf s) { s with inPort := ts })) := by
  unfold fetchToken
  split <;> simp_all

/-- One refill holds, shifts a byte into ACC, or raises an error (R121, R122). -/
theorem refillOnce_cases (s : State) :
    (s.inPort = [] ∧ refillOnce s = .hold) ∨
    (∃ b ts, s.inPort = .byte b :: ts ∧
      refillOnce s = .go (refillAcc b { s with inPort := ts, inBytes := s.inBytes + 1 })) ∨
    (∃ ts, s.inPort = .endOfInput :: ts ∧
      refillOnce s = .halt (raiseError .unexpectedEof (stageOf s) { s with inPort := ts })) ∨
    (∃ ts, s.inPort = .ioErr :: ts ∧
      refillOnce s = .halt (raiseError .ioError (stageOf s) { s with inPort := ts })) := by
  unfold refillOnce
  rcases fetchToken_cases s with ⟨h, e⟩ | ⟨b, ts, h, e⟩ | ⟨ts, h, e⟩ | ⟨ts, h, e⟩ <;> simp [h, e]

/-- `t` differs from `s` at most in the bit reader and the input port. -/
def sameButReader (s t : State) : Prop :=
  t = { s with inPort := t.inPort, inBytes := t.inBytes, acc := t.acc, accN := t.accN }

theorem sameButReader_refl (s : State) : sameButReader s s := rfl

theorem sameButReader_trans {s t u : State} (h1 : sameButReader s t) (h2 : sameButReader t u) : sameButReader s u := by
  unfold sameButReader at *
  rw [h2, h1]

/-- The refill loop: done with only the reader changed, held, or an error raised from such a state; it has no other end. -/
theorem refill_cases (n : Nat) (fuel : Nat) (s : State) :
    ∃ t, sameButReader s t ∧
      (refill n fuel s = .go t ∨ (refill n fuel s = .hold ∧ t.inPort = []) ∨
        ∃ c, (c = .unexpectedEof ∨ c = .ioError) ∧ refill n fuel s = .halt (raiseError c (stageOf t) t)) := by
  induction fuel generalizing s with
  | zero => exact ⟨s, rfl, .inl rfl⟩
  | succ fuel ih =>
    unfold refill
    split
    · rcases refillOnce_cases s with ⟨h, e⟩ | ⟨b, ts, h, e⟩ | ⟨ts, h, e⟩ | ⟨ts, h, e⟩
      · exact ⟨s, rfl, .inr (.inl ⟨by simp [e], h⟩)⟩
      · obtain ⟨t, ht, hc⟩ := ih (refillAcc b { s with inPort := ts, inBytes := s.inBytes + 1 })
        exact ⟨t, sameButReader_trans (t := refillAcc b { s with inPort := ts, inBytes := s.inBytes + 1 }) rfl ht,
          by simpa [e] using hc⟩
      · exact ⟨{ s with inPort := ts }, rfl, .inr (.inr ⟨.unexpectedEof, .inl rfl, by simp [e, stageOf]⟩)⟩
      · exact ⟨{ s with inPort := ts }, rfl, .inr (.inr ⟨.ioError, .inr rfl, by simp [e, stageOf]⟩)⟩
    · exact ⟨s, rfl, .inl rfl⟩

/-- `ReadBits(n)`: the bits taken, held, an error raised, or no such operation (R121). -/
theorem readBits_cases (n : Nat) (s : State) :
    (¬ (1 ≤ n ∧ n ≤ 24) ∧ readBits n s = .refuse (.readWidth n)) ∨
    ∃ t, sameButReader s t ∧
      (readBits n s = .go (takeBits n t) ∨ (readBits n s = .hold ∧ t.inPort = []) ∨
        ∃ c, (c = .unexpectedEof ∨ c = .ioError) ∧ readBits n s = .halt (raiseError c (stageOf t) t)) := by
  by_cases hn : 1 ≤ n ∧ n ≤ Config.maxRead
  · right
    obtain ⟨t, ht, hc⟩ := refill_cases n 3 s
    refine ⟨t, ht, ?_⟩
    rcases hc with hc | ⟨hc, hp⟩ | ⟨c, hc, he⟩
    · exact .inl (by simp [readBits, hn, hc])
    · exact .inr (.inl ⟨by simp [readBits, hn, hc], hp⟩)
    · exact .inr (.inr ⟨c, hc, by simp [readBits, hn, he]⟩)
  · left
    exact ⟨by simpa [Config.maxRead] using hn, by simp [readBits, hn]⟩

/-! ### Symbols -/

/-- `RunFlush()`: nothing pending, the run does not fit, or it is written out (R176). -/
theorem runFlush_cases (s : State) :
    (s.runActive = false ∧ runFlush s = .go s) ∨
    (s.runActive = true ∧ s.dbufSize.toNat < s.dbufCount.toNat + s.runVal ∧
      runFlush s = .halt (raiseError .dataError .runFlush { s with runActive := false })) ∨
    (s.runActive = true ∧ s.dbufCount.toNat + s.runVal ≤ s.dbufSize.toNat ∧
      ((s.dbufCount.toNat + s.runVal ≤ 900000 ∧
          runFlush s = .go (appendBytes s.runVal (frontByte s) { s with runActive := false })) ∨
        (900000 < s.dbufCount.toNat + s.runVal ∧
          runFlush s = .fault (.memRange .dbuf (s.dbufCount.toNat + s.runVal))))) := by
  unfold runFlush
  by_cases hr : s.runActive = true
  · by_cases hs : s.dbufSize.toNat < s.dbufCount.toNat + s.runVal
    · simp [hr, hs]
    · by_cases hd : s.dbufCount.toNat + s.runVal < Config.dbufWords + 1
      · right; right
        refine ⟨hr, by omega, .inl ⟨by simp [Config.dbufWords] at hd; omega, ?_⟩⟩
        simp only [hr, if_true, hs, if_false, guardIx_of_lt hd]
        rfl
      · right; right
        refine ⟨hr, by omega, .inr ⟨by simp [Config.dbufWords] at hd; omega, ?_⟩⟩
        simp only [hr, if_true, hs, if_false, guardIx, hd]
  · exact .inl ⟨by simpa using hr, by simp [hr]⟩

/-- `Literal(sym)`: DBUF full, an index outside a memory, or the byte appended and moved to the front (R178). -/
theorem literal_cases (sym : Nat) (s : State) :
    (s.dbufSize.toNat ≤ s.dbufCount.toNat ∧ literal sym s = .halt (raiseError .dataError .literal s)) ∨
    (s.dbufCount.toNat < s.dbufSize.toNat ∧
      ((256 ≤ sym - 1 ∧ literal sym s = .fault (.memRange .mtfSym (sym - 1))) ∨
        (sym - 1 < 256 ∧ 900000 ≤ s.dbufCount.toNat ∧ literal sym s = .fault (.memRange .dbuf s.dbufCount.toNat)) ∨
        (sym - 1 < 256 ∧ s.dbufCount.toNat < 900000 ∧
          literal sym s = .go (appendBytes 1 (symToByteAt s (mtfSymAt s (sym - 1)).toNat)
            { s with mtfSym := moveToFront s.epoch .mtfSym s.mtfSym (sym - 1) })))) := by
  unfold literal
  by_cases h1 : s.dbufSize.toNat ≤ s.dbufCount.toNat
  · simp [h1]
  · right
    refine ⟨by omega, ?_⟩
    simp only [h1, if_false]
    by_cases h2 : sym - 1 < 256
    · by_cases h3 : s.dbufCount.toNat < Config.dbufWords
      · exact .inr (.inr ⟨h2, by simpa [Config.dbufWords] using h3, by rw [guardIx_of_lt h2, guardIx_of_lt h3]⟩)
      · exact .inr (.inl ⟨h2, by simpa [Config.dbufWords] using h3, by rw [guardIx_of_lt h2, guardIx_of_ge (by omega)]⟩)
    · exact .inl ⟨by omega, by rw [guardIx_of_ge (by omega)]⟩

/-- One turn of the loop of R172 at a length inside the tables: the decoder asks for bits, has a codeword, or finds an error. -/
theorem huffLoop_turn {s : State} (fuel : Nat) (hl : s.fLen ≤ 20) :
    huffLoop (fuel + 1) s =
      match decodeHuff (minLenAt s s.curGroup.toNat) (maxLenAt s s.curGroup.toNat) (limitAt s s.curGroup.toNat s.fLen)
        (fieldRead s) with
      | .more n => (readBits n s).bind (huffLoop fuel)
      | .illegal c st => .halt (raiseError c st s)
      | .run _ => huffSymbol s
      | .wide _ => .go s :=
  guardIx_of_lt (Nat.lt_succ_of_le hl)

/-- The loop of R172 at a length outside the tables. -/
theorem huffLoop_outside {s : State} (fuel : Nat) (hl : 20 < s.fLen) :
    huffLoop (fuel + 1) s = .fault (.memRange .limit s.fLen) :=
  guardIx_of_ge hl

/-- HUFF_DECODE is the loop of R172, for a group of the six. -/
theorem execHuffDecode_eq {s : State} (hg : s.curGroup.toNat < 6) :
    execHuffDecode s = (huffLoop 22 { s with pos := .huff }).out s := by
  exact congrArg (Act.out · s) (guardIx_of_lt hg)

/-! ### Output and control -/

/-- `Emit(b)`: held, delivered, or failed (R215, R220). -/
theorem emitByte_cases (b : Byte) (s : State) :
    (s.outAns = [] ∧ emitByte b s = .hold) ∨
    (∃ xs, s.outAns = .accept :: xs ∧
      emitByte b s = .go { s with outAns := xs, out := s.out ++ [b], dataCrc := crcUpdate s.dataCrc b }) ∨
    (∃ xs, s.outAns = .fail :: xs ∧ emitByte b s = .halt (raiseError .ioError .output { s with outAns := xs })) := by
  unfold emitByte
  split <;> simp_all

/-- One turn of the command loop: the five cases of R247 in their order. -/
theorem driveTurn_cases (s : State) :
    ((s.blkLoaded = true ∧ s.pend = 0 ∧ s.wRemain = 0) ∧ driveTurn s = goto .blockEnd { s with ctl := .output }) ∨
    (¬ (s.blkLoaded = true ∧ s.pend = 0 ∧ s.wRemain = 0) ∧
      (((s.mode = true ∧ s.count = s.limit) ∧ driveTurn s = goto .idle { s with ctl := .paused }) ∨
        (¬ (s.mode = true ∧ s.count = s.limit) ∧
          ((s.blkLoaded = false ∧ driveTurn s = goto .magic { s with ctl := .blockHeader }) ∨
            (s.blkLoaded = true ∧ s.pend ≠ 0 ∧ driveTurn s = goto .emitPend { s with ctl := .output }) ∨
            (s.blkLoaded = true ∧ s.pend = 0 ∧ driveTurn s = goto .chainStep { s with ctl := .output }))))) := by
  unfold driveTurn
  by_cases h1 : s.blkLoaded = true ∧ s.pend = 0 ∧ s.wRemain = 0
  · exact .inl ⟨h1, if_pos h1⟩
  · refine .inr ⟨h1, ?_⟩
    rw [if_neg h1]
    by_cases h2 : s.mode = true ∧ s.count = s.limit
    · exact .inl ⟨h2, if_pos h2⟩
    · refine .inr ⟨h2, ?_⟩
      rw [if_neg h2]
      by_cases h3 : s.blkLoaded = true
      · rw [if_neg (by simpa using h3)]
        by_cases h4 : s.pend = 0
        · exact .inr (.inr ⟨h3, h4, if_neg (by simpa using h4)⟩)
        · exact .inr (.inl ⟨h3, h4, if_pos h4⟩)
      · exact .inl ⟨by simpa using h3, if_pos h3⟩

/-! ### Frames of the loops -/

/-- The loop of R201 changes BYTE_COUNT only. -/
theorem bucketLoop_frame (k c acc : Nat) (s : State) :
    bucketLoop k c acc s = { s with byteCount := (bucketLoop k c acc s).byteCount } := by
  induction k generalizing c acc s with
  | zero => rfl
  | succ k ih => rw [bucketLoop, ih]

/-- The loop of R149 changes LIMIT and BASE only. -/
theorem limitBaseLoop_frame (g k l : Nat) (pp hh : Int) (s : State) :
    limitBaseLoop g k l pp hh s = { s with
      limitTab := (limitBaseLoop g k l pp hh s).limitTab, baseTab := (limitBaseLoop g k l pp hh s).baseTab } := by
  induction k generalizing l pp hh s with
  | zero => rfl
  | succ k ih => rw [limitBaseLoop, ih]; rfl

/-- The loop of R203 changes DBUF and BYTE_COUNT only, or faults. -/
theorem chainLoop_cases (k i : Nat) (s : State) :
    (∃ t, chainLoop k i s = .go t ∧ t = { s with dbuf := t.dbuf, byteCount := t.byteCount }) ∨
      ∃ f, chainLoop k i s = .fault f := by
  induction k generalizing i s with
  | zero => exact .inl ⟨_, rfl, rfl⟩
  | succ k ih =>
    simp only [chainLoop, chainLink, guardIx]
    split
    · rcases ih (i + 1) _ with ⟨t, h, ht⟩ | h
      · exact .inl ⟨t, h, ht⟩
      · exact .inr h
    · exact .inr ⟨_, rfl⟩

/-- A turn of the command loop changes the control state and the place only. -/
theorem driveTurn_frame (s : State) :
    driveTurn s = { s with ctl := (driveTurn s).ctl, pos := (driveTurn s).pos, fLen := 0, fVal := 0 } := by
  unfold driveTurn
  split_ifs <;> rfl

/-- The next MAP2 or NGROUPS: only the place and the group number change. -/
theorem gotoNextMap2_frame (k : Nat) (s : State) :
    gotoNextMap2 k s =
      { s with pos := (gotoNextMap2 k s).pos, loopI := (gotoNextMap2 k s).loopI, fLen := 0, fVal := 0 } := by
  unfold gotoNextMap2
  split <;> rfl

/-- `t` differs from `s` at most in the bit reader, the input port and the field being read. -/
def sameButField (s t : State) : Prop :=
  t = { s with
    inPort := t.inPort, inBytes := t.inBytes, acc := t.acc, accN := t.accN, fLen := t.fLen, fVal := t.fVal }

/-- `t` differs from `s` at most in the bit reader, the input port, the field being read, the decoded symbol, the control
state, the place and the error record. -/
def sameButReading (s t : State) : Prop :=
  t = { s with
    inPort := t.inPort, inBytes := t.inBytes, acc := t.acc, accN := t.accN, fLen := t.fLen, fVal := t.fVal, sym := t.sym
    ctl := t.ctl, pos := t.pos, errCode := t.errCode, errStage := t.errStage }

theorem sameButField_trans {s t u : State} (h1 : sameButField s t) (h2 : sameButField t u) : sameButField s u := by
  unfold sameButField at *
  rw [h2, h1]

theorem sameButField_reading {s t : State} (h : sameButField s t) : sameButReading s t := by
  unfold sameButField at h
  unfold sameButReading
  rw [h]

theorem raiseError_reading {s t : State} (c : ErrCode) (st : Stage) (h : sameButReading s t) :
    sameButReading s (raiseError c st t) := by
  unfold sameButReading at *
  generalize t.inPort = a1, t.inBytes = a2, t.acc = a3, t.accN = a4, t.fLen = a5, t.fVal = a6, t.sym = a7, t.ctl = a8,
    t.pos = a9, t.errCode = a10, t.errStage = a11 at h
  subst h
  rfl

theorem sameButReading_trans {s t u : State} (h1 : sameButReading s t) (h2 : sameButReading t u) : sameButReading s u := by
  unfold sameButReading at *
  generalize t.inPort = a1, t.inBytes = a2, t.acc = a3, t.accN = a4, t.fLen = a5, t.fVal = a6, t.sym = a7, t.ctl = a8,
    t.pos = a9, t.errCode = a10, t.errStage = a11 at h1 h2
  generalize u.inPort = b1, u.inBytes = b2, u.acc = b3, u.accN = b4, u.fLen = b5, u.fVal = b6, u.sym = b7, u.ctl = b8,
    u.pos = b9, u.errCode = b10, u.errStage = b11 at h2
  subst h1
  subst h2
  rfl

/-- `ReadBits(n)`, as what it changes: the bits taken, held, an error with the stage of the element, or no such operation. -/
theorem readBits_frame (n : Nat) (s : State) :
    (∃ t, readBits n s = .go t ∧ sameButField s t) ∨ readBits n s = .hold ∨
    (∃ t c, readBits n s = .halt (raiseError c (stageOf s) t) ∧ sameButField s t ∧ c ≠ .none) ∨
      ∃ r, readBits n s = .refuse r := by
  rcases readBits_cases n s with ⟨_, e⟩ | ⟨t, ht, e | ⟨e, _⟩ | ⟨c, hc, e⟩⟩
  · exact .inr (.inr (.inr ⟨_, e⟩))
  · refine .inl ⟨_, e, ?_⟩
    unfold sameButReader at ht
    unfold sameButField
    rw [ht]
    rfl
  · exact .inr (.inl e)
  · refine .inr (.inr (.inl ⟨t, c, ?_, ?_, ?_⟩))
    · unfold sameButReader at ht
      rw [e, ht]
      rfl
    · unfold sameButReader at ht
      unfold sameButField
      rw [ht]
    · rcases hc with rfl | rfl <;> simp

/-- The loop of R172 changes nothing but what reading changes; it may hold, or stop outside the tables or a read's width. -/
theorem huffLoop_frame (fuel : Nat) (s : State) :
    (∃ t, sameButReading s t ∧ (huffLoop fuel s = .go t ∨ huffLoop fuel s = .halt t)) ∨ huffLoop fuel s = .hold ∨
      (∃ f, huffLoop fuel s = .fault f) ∨ ∃ r, huffLoop fuel s = .refuse r := by
  induction fuel generalizing s with
  | zero => exact .inl ⟨s, rfl, .inl rfl⟩
  | succ fuel ih =>
    by_cases hl : s.fLen < lenColumns
    · unfold huffLoop
      simp only [guardIx_of_lt hl]
      split
      · next n hd =>
        rcases readBits_frame n s with ⟨u, e, hu⟩ | e | ⟨u, c, e, hu, hc⟩ | ⟨r, e⟩
        · rw [e, Act.bind_go]
          rcases ih u with ⟨t, ht, h⟩ | h | h | h
          · exact .inl ⟨t, sameButReading_trans (sameButField_reading hu) ht, h⟩
          · exact .inr (.inl h)
          · exact .inr (.inr (.inl h))
          · exact .inr (.inr (.inr h))
        · rw [e]
          exact .inr (.inl rfl)
        · rw [e]
          exact .inl ⟨_, raiseError_reading _ _ (sameButField_reading hu), .inr rfl⟩
        · rw [e]
          exact .inr (.inr (.inr ⟨r, rfl⟩))
      · refine .inl ⟨_, ?_, .inr rfl⟩
        rfl
      · unfold huffSymbol
        simp only
        split
        · refine .inl ⟨_, ?_, .inr rfl⟩
          rfl
        · refine .inl ⟨_, ?_, .inl rfl⟩
          rfl
      · exact .inl ⟨s, rfl, .inl rfl⟩
    · exact .inr (.inr (.inl ⟨_, by unfold huffLoop; exact guardIx_of_ge (by omega)⟩))

end Sys2Proof.Machine
end

