-- ==== Sys2Proof/Laws/PerInstr.lean ====
section
/-! SUPPORT. The statements made per instruction: FieldFits, that the encoding of an instruction is a bit string of its
length. -/

namespace Sys2Proof.Laws.FieldFits

/-- The encoding of `i`, where it has one, is at least one bit long and its value fits its length (R64). -/
def Statement (i : Instr) : Prop := ∀ f, encode i = some f → 1 ≤ f.len ∧ f.val < 2 ^ f.len

theorem of_none {i : Instr} (h : encode i = none) : Statement i := by
  intro f hf
  rw [h] at hf
  cases hf

theorem of_some {i : Instr} {n v : Nat} (h : encode i = some ⟨n, v⟩) (hn : 1 ≤ n) (hv : v < 2 ^ n) : Statement i := by
  intro f hf
  rw [h] at hf
  cases hf
  exact ⟨hn, hv⟩

theorem nop : Statement .nop := of_some rfl (by decide) (by decide)
theorem start : Statement .start := of_some rfl (by decide) (by decide)
theorem read : Statement .read := of_some rfl (by decide) (by decide)
theorem drain : Statement .drain := of_some rfl (by decide) (by decide)
theorem release : Statement .release := of_some rfl (by decide) (by decide)
theorem reserved5 : Statement .reserved5 := of_some rfl (by decide) (by decide)
theorem reserved6 : Statement .reserved6 := of_some rfl (by decide) (by decide)
theorem reserved7 : Statement .reserved7 := of_some rfl (by decide) (by decide)
theorem sig : Statement .sig := of_some rfl (by decide) (by decide)
theorem level (b : Byte) : Statement (.level b) := of_some rfl (by decide) b.isLt
theorem magicData : Statement .magicData := of_some rfl (by decide) (by decide)
theorem magicEos : Statement .magicEos := of_some rfl (by decide) (by decide)
theorem crcDataBlock (c : Word) : Statement (.crcDataBlock c) := of_some rfl (by decide) c.isLt
theorem crcEndOfStream (c : Word) : Statement (.crcEndOfStream c) := of_some rfl (by decide) c.isLt
theorem rand (r : BitVec 1) : Statement (.rand r) := of_some rfl (by decide) r.isLt
theorem origptr (p : BitVec 24) : Statement (.origptr p) := of_some rfl (by decide) p.isLt
theorem map1 (m : BitVec 16) : Statement (.map1 m) := of_some rfl (by decide) m.isLt
theorem map2 (u : BitVec 16) : Statement (.map2 u) := of_some rfl (by decide) u.isLt
theorem ngroups (n : BitVec 3) : Statement (.ngroups n) := of_some rfl (by decide) n.isLt
theorem nsel (n : BitVec 15) : Statement (.nsel n) := of_some rfl (by decide) n.isLt
theorem sel (j : Nat) : Statement (.sel j) :=
  of_some rfl (by omega) (by have := Nat.two_pow_pos (j + 1); omega)
theorem lenStart (t : BitVec 5) : Statement (.lenStart t) := of_some rfl (by decide) t.isLt
theorem lenDeltaStop : Statement .lenDeltaStop := of_some rfl (by decide) (by decide)
theorem lenDeltaInc : Statement .lenDeltaInc := of_some rfl (by decide) (by decide)
theorem lenDeltaDec : Statement .lenDeltaDec := of_some rfl (by decide) (by decide)
theorem symRunA : Statement .symRunA := of_none rfl
theorem symRunB : Statement .symRunB := of_none rfl
theorem symLiteral (sym : BitVec 9) : Statement (.symLiteral sym) := of_none rfl
theorem symEob : Statement .symEob := of_none rfl
theorem readBits (n : Nat) : Statement (.readBits n) := of_none rfl
theorem fetchByte : Statement .fetchByte := of_none rfl
theorem readWide (m : Nat) : Statement (.readWide m) := of_none rfl
theorem minmax : Statement .minmax := of_none rfl
theorem permute : Statement .permute := of_none rfl
theorem temp : Statement .temp := of_none rfl
theorem limitBase : Statement .limitBase := of_none rfl
theorem symInit : Statement .symInit := of_none rfl
theorem groupSwitch : Statement .groupSwitch := of_none rfl
theorem huffDecode : Statement .huffDecode := of_none rfl
theorem runFlush : Statement .runFlush := of_none rfl
theorem origCheck : Statement .origCheck := of_none rfl
theorem bucketStart : Statement .bucketStart := of_none rfl
theorem chainBuild : Statement .chainBuild := of_none rfl
theorem chainSeed : Statement .chainSeed := of_none rfl
theorem chainStep : Statement .chainStep := of_none rfl
theorem rle4 : Statement .rle4 := of_none rfl
theorem emitPend : Statement .emitPend := of_none rfl
theorem emit (b : Byte) : Statement (.emit b) := of_none rfl
theorem blockEnd : Statement .blockEnd := of_none rfl
theorem eosCheck (crc : Word) : Statement (.eosCheck crc) := of_none rfl
theorem drive : Statement .drive := of_none rfl
theorem errorEntry (c : ErrCode) (st : Stage) : Statement (.errorEntry c st) := of_none rfl
theorem reset : Statement .reset := of_none rfl

end Sys2Proof.Laws.FieldFits
end

