-- ==== Sys2Proof/Laws/Step.lean ====
section
/-! SUPPORT. What one step can be: the core's next operation, the core at rest, or one thing the host does. -/

namespace Sys2Proof.Machine

/-! ### The operations of one step (R206) -/

@[simp] theorem runOn_nil (s : State) : runOn [] s = .next s := rfl

/-- Behind every operation but the first three of the inverse BWT a step runs nothing more. -/
theorem restOfStep_eq_nil {i : Instr} (h : i ≠ .origCheck ∧ i ≠ .bucketStart ∧ i ≠ .chainBuild) : restOfStep i = [] := by
  simp [restOfStep, h]

/-- A step that starts with such an operation is that operation alone. -/
theorem runWhole_eq_exec {i : Instr} (h : i ≠ .origCheck ∧ i ≠ .bucketStart ∧ i ≠ .chainBuild) (s : State) :
    runWhole i s = exec i s := by
  unfold runWhole
  rw [restOfStep_eq_nil h]
  cases exec i s <;> rfl

/-- Behind the first three of the inverse BWT the step goes on where the next one is the core's next operation. -/
theorem runWhole_eq {i j : Instr}
    (h : (i = .origCheck ∧ j = .bucketStart) ∨ (i = .bucketStart ∧ j = .chainBuild) ∨ (i = .chainBuild ∧ j = .chainSeed))
    (s : State) :
    runWhole i s =
      match exec i s with
      | .next t => if nextInstr t = some j then runWhole j t else .next t
      | o => o := by
  rcases h with ⟨rfl, rfl⟩ | ⟨rfl, rfl⟩ | ⟨rfl, rfl⟩ <;> unfold runWhole <;> cases exec _ s <;> rfl

/-- What every operation keeps, run where it is the core's next, a whole step keeps. -/
theorem runOn_induct {P : State → Prop} (hP : ∀ i s t, nextInstr s = some i → P s → exec i s = .next t → P t)
    {is : List Instr} {s t : State} (hs : P s) (h : runOn is s = .next t) : P t := by
  induction is generalizing s with
  | nil => cases h; exact hs
  | cons i is ih =>
    unfold runOn at h
    split at h
    · next hi =>
      split at h
      · next u e => exact ih (hP i s u hi hs e) h
      · next o hn => exact absurd h (hn t)
    · cases h
      exact hs

theorem runWhole_induct {P : State → Prop} (hP : ∀ i s t, nextInstr s = some i → P s → exec i s = .next t → P t)
    {i : Instr} {s t : State} (hi : nextInstr s = some i) (hs : P s) (h : runWhole i s = .next t) : P t := by
  unfold runWhole at h
  split at h
  · next u e => exact runOn_induct hP (hP i s u hi hs e) h
  · next o hn => exact absurd h (hn t)

/-! ### What a step is -/

theorem step_of_run {s s' : State} {i : Instr} (h : nextTurn s = .run i s') : step s = runWhole i s' := by
  simp [step, h]

theorem step_of_stay {s s' : State} (h : nextTurn s = .stay s') : step s = .next s' := by
  simp [step, h]

/-- With a host that does nothing, a step is the core's next operation, or nothing (R303). -/
theorem step_host_silent {s : State} (h : s.host = []) :
    step s = match nextInstr s with
      | some i => runWhole i s
      | none => .next s := by
  simp only [step, nextTurn, h, coreTurn]
  cases nextInstr s <;> rfl

/-- A step that gives a next state ran an operation, or changed only what the host changes. -/
theorem step_next_cases {s t : State} (h : step s = .next t) :
    (∃ i s', nextTurn s = .run i s' ∧ runWhole i s' = .next t) ∨ nextTurn s = .stay t := by
  unfold step at h
  split at h
  · next i s' e => exact .inl ⟨i, s', e, h⟩
  · next s' e => cases h; exact .inr e
  · cases h

/-- The eight commands (R82). -/
theorem decodeCmd_cases (v : Word) :
    decodeCmd v = .nop ∨ decodeCmd v = .start ∨ decodeCmd v = .read ∨ decodeCmd v = .drain ∨ decodeCmd v = .release ∨
      decodeCmd v = .reserved5 ∨ decodeCmd v = .reserved6 ∨ decodeCmd v = .reserved7 := by
  unfold decodeCmd
  split <;> simp

/-- A command is a step of its own. -/
theorem runWhole_decodeCmd (v : Word) (s : State) : runWhole (decodeCmd v) s = exec (decodeCmd v) s := by
  refine runWhole_eq_exec ?_ s
  rcases decodeCmd_cases v with h | h | h | h | h | h | h | h <;> rw [h] <;> simp

/-- What a step can have been: the core's own operation, on its turn or at the host's `core`; a command; the reset input;
or a turn that changed only what the host may change outside a command. -/
theorem step_cases {s t : State} (h : step s = .next t) :
    (∃ i u, nextInstr u = some i ∧ runWhole i u = .next t ∧
      (s = u ∨ ∃ rest, s.host = .core :: rest ∧ u = { s with host := rest })) ∨
    (∃ v rest, s.host = .write 0 4 v :: rest ∧ exec (decodeCmd v) { s with host := rest } = .next t) ∨
    (∃ rest, s.host = .reset :: rest ∧ exec .reset { s with host := rest } = .next t) ∨
    t = { s with
      host := t.host, len := t.len, rdata := t.rdata, draws := t.draws, inPort := t.inPort, outAns := t.outAns } := by
  rcases step_next_cases h with ⟨i, u, ht, he⟩ | ht
  · unfold nextTurn at ht
    split at ht
    · unfold coreTurn at ht
      split at ht <;> cases ht
      exact .inl ⟨i, s, ‹_›, he, .inl rfl⟩
    · next a rest hr =>
      cases a with
      | core =>
        simp only [hostTurn, coreTurn] at ht
        split at ht <;> cases ht
        exact .inl ⟨i, _, ‹_›, he, .inr ⟨rest, hr, rfl⟩⟩
      | write off size v =>
        simp only [hostTurn] at ht
        split at ht
        · next hok =>
          simp only [regAccessOk, Bool.and_eq_true, decide_eq_true_eq] at hok
          split at ht <;> cases ht
          next h0 =>
            rw [h0, hok.1] at hr
            rw [runWhole_decodeCmd] at he
            exact .inr (.inl ⟨v, rest, hr, he⟩)
        · cases ht
      | read off size =>
        simp only [hostTurn] at ht
        split at ht <;> cases ht
      | offer ts => cases ht
      | answer xs => cases ht
      | reset =>
        cases ht
        rw [runWhole_eq_exec (by simp)] at he
        exact .inr (.inr (.inl ⟨rest, hr, he⟩))
  · refine .inr (.inr (.inr ?_))
    unfold nextTurn at ht
    split at ht
    · unfold coreTurn at ht
      split at ht <;> cases ht
      rfl
    · next a rest hr =>
      cases a with
      | core =>
        simp only [hostTurn, coreTurn] at ht
        split at ht <;> cases ht
        rfl
      | write off size v =>
        simp only [hostTurn] at ht
        split at ht
        · split at ht <;> cases ht
          unfold writeRegister
          split <;> rfl
        · cases ht
      | read off size =>
        simp only [hostTurn] at ht
        split at ht <;> cases ht
        unfold readRegister
        split <;> rfl
      | offer ts => cases ht; rfl
      | answer xs => cases ht; rfl
      | reset => cases ht

/-- A codeword is an element of the bitstream wherever its group and length are inside the tables. -/
theorem nextCodeword_inside {s : State} (hg : s.curGroup.toNat < 6) (hl : s.fLen ≤ 20) : nextCodeword s = nextElement s :=
  if_pos ⟨hg, Nat.lt_succ_of_le hl⟩

theorem nextCodeword_outside {s : State} (h : 6 ≤ s.curGroup.toNat ∨ 20 < s.fLen) : nextCodeword s = .huffDecode := by
  refine if_neg fun hc => ?_
  have h1 : s.curGroup.toNat < 6 := hc.1
  have h2 : s.fLen < 21 := hc.2
  omega

/-- At a place where the bitstream is read the decoder answers an element of that place, a codeword, a read, or an error
with a code and a stage. -/
theorem decodeField_cases (ctx : Ctx) (f : Field)
    (hp : ctx.pos ∈ [.sig, .level, .magic, .crcData, .crcEos, .rand, .origptr, .map1, .map2, .ngroups, .nsel, .sel,
      .lenStart, .lenDelta, .huff]) :
    match decodeField ctx f with
    | .run i => (i.place = ctx.pos ∧ ctx.pos ≠ .huff) ∨ (i = .huffDecode ∧ ctx.pos = .huff)
    | .more _ => True
    | .wide _ => True
    | .illegal c st => c ≠ .none ∧ st ≠ .none := by
  simp only [List.mem_cons, List.not_mem_nil, or_false] at hp
  unfold decodeField
  rcases hp with h | h | h | h | h | h | h | h | h | h | h | h | h | h | h <;> rw [h] <;>
    simp only [decodeSig, fixedField, decodeMagic, wideField32, decodeSel, decodeDelta, decodeHuff] <;>
    split_ifs <;> simp_all [Instr.place]

end Sys2Proof.Machine
end

