-- ==== Sys2Proof/Tests/Slice0.lean ====
section
/-! SUPPORT. Checks of the model on small states, one step each: decoding by words written out from the spec, the
well-formedness checks, single steps with results from `95_test_vectors.md`, and for every claim with hypotheses a state
that meets them. -/

namespace Sys2Proof.Tests

open Sys2Proof.Machine

/-! ### Helpers -/

/-- One observation of the next state. -/
def see {α : Type} (f : State → α) (o : Host.Outcome State Fault Refusal) : Option α :=
  match o with
  | .next t => some (f t)
  | _ => none

/-- A memory holding these entries from index 0 on. -/
def cells {w : Nat} (vs : List (BitVec w)) : Cells w := memWriteSeq [] 0 vs

/-- A state whose control state and place are given. -/
def at' (c : Ctl) (p : Pos) : State := { State.reset with ctl := c, pos := p }

/-- A decoding context at a place, GROUP_COUNT 3 and t = 4. -/
def here (p : Pos) : Ctx := ⟨p, 3, 4, 2, 4, 0⟩

/-! ### Decoding -/

/-- R82, R81: the eight commands, with reserved bits set in some. -/
theorem test_decode_commands :
    [0x0, 0x1, 0x2, 0x3, 0x4, 0x5, 0x6, 0x7].map decodeCmd =
      [.nop, .start, .read, .drain, .release, .reserved5, .reserved6, .reserved7] ∧
    decodeCmd 0xFFFFFFF9 = .start ∧ decodeCmd 0x80000008 = .nop ∧ decodeCmd 0x0000000F = .reserved7 := by decide

/-- R85: SIG is 42 5A 68, LEVEL '9' is 39. -/
theorem test_decode_stream_header :
    decodeField (here .sig) ⟨24, 0x425A68⟩ = .run .sig ∧
    decodeField (here .sig) ⟨24, 0x425A78⟩ = .illegal .notBzipData .sig ∧
    decodeField (here .level) ⟨8, 0x39⟩ = .run (.level 0x39) := by decide

/-- R87: the two magics; another is classified after its CRC field (R133). -/
theorem test_decode_magics :
    decodeField (here .magic) ⟨48, 0x314159265359⟩ = .run .magicData ∧
    decodeField (here .magic) ⟨48, 0x177245385090⟩ = .run .magicEos ∧
    decodeField (here .magic) ⟨48, 0x314159265358⟩ = .wide 32 ∧
    decodeField (here .magic) ⟨80, 0x31415926535800000000⟩ = .illegal .notBzipData .magic := by decide

/-- The header fields of V-L1-1, in their order. -/
theorem test_decode_block_header :
    decodeField (here .crcData) ⟨32, 0x44F71378⟩ = .run (.crcDataBlock 0x44F71378) ∧
    decodeField (here .crcEos) ⟨32, 0x44F71378⟩ = .run (.crcEndOfStream 0x44F71378) ∧
    decodeField (here .rand) ⟨1, 1⟩ = .run (.rand 1) ∧
    decodeField (here .origptr) ⟨24, 3⟩ = .run (.origptr 3) ∧
    decodeField (here .map1) ⟨16, 0x2300⟩ = .run (.map1 0x2300) ∧
    decodeField (here .map2) ⟨16, 0x0C89⟩ = .run (.map2 0x0C89) ∧
    decodeField (here .ngroups) ⟨3, 2⟩ = .run (.ngroups 2) ∧
    decodeField (here .nsel) ⟨15, 1⟩ = .run (.nsel 1) ∧
    decodeField (here .lenStart) ⟨5, 4⟩ = .run (.lenStart 4) := by decide

/-- R90: the selector codes `0`, `10`, `110` with three groups, and `111` at the third one-bit (V-L2-HDR-3). -/
theorem test_decode_selectors :
    decodeField (here .sel) ⟨1, 0b0⟩ = .run (.sel 0) ∧ decodeField (here .sel) ⟨2, 0b10⟩ = .run (.sel 1) ∧
    decodeField (here .sel) ⟨3, 0b110⟩ = .run (.sel 2) ∧ decodeField (here .sel) ⟨2, 0b11⟩ = .more 1 ∧
    decodeField (here .sel) ⟨3, 0b111⟩ = .illegal .dataError .sel := by decide

/-- R91: the delta codes `0`, `10`, `11`; V-L2-HDR-5: t = 0 and t = 21 stop before a bit is read. -/
theorem test_decode_deltas :
    decodeField (here .lenDelta) ⟨1, 0b0⟩ = .run .lenDeltaStop ∧ decodeField (here .lenDelta) ⟨1, 0b1⟩ = .more 1 ∧
    decodeField (here .lenDelta) ⟨2, 0b10⟩ = .run .lenDeltaInc ∧ decodeField (here .lenDelta) ⟨2, 0b11⟩ = .run .lenDeltaDec ∧
    decodeField ⟨.lenDelta, 3, 0, 0, 0, 0⟩ ⟨0, 0⟩ = .illegal .dataError .len ∧
    decodeField ⟨.lenDelta, 3, 21, 0, 0, 0⟩ ⟨0, 0⟩ = .illegal .dataError .len := by decide

/-- V-L2-SYM-1 at its first length: with MIN_LEN 2 and LIMIT[2] = 0 the value 1 asks for one more bit, 0 is a codeword;
V-L2-SYM-2: 3 above LIMIT[2] = 2 at MAX_LEN is an error. -/
theorem test_decode_codewords :
    decodeField ⟨.huff, 2, 0, 2, 4, 0⟩ ⟨0, 0⟩ = .more 2 ∧ decodeField ⟨.huff, 2, 0, 2, 4, 0⟩ ⟨2, 1⟩ = .more 1 ∧
    decodeField ⟨.huff, 2, 0, 2, 4, 0⟩ ⟨2, 0⟩ = .run .huffDecode ∧
    decodeField ⟨.huff, 2, 0, 2, 2, 2⟩ ⟨2, 3⟩ = .illegal .dataError .huff := by decide

/-- What comes next at a place without a field: the operation of the place; at a decoded symbol its own rule. -/
theorem test_next_operations :
    [.eosCheck, .minmax, .permute, .temp, .limitBase, .symInit, .groupSwitch, .origCheck, .bucketStart, .chainBuild,
      .chainSeed, .drive, .blockEnd, .emitPend, .chainStep].map (fun p => nextInstr (at' .output p)) =
    [.eosCheck 0, .minmax, .permute, .temp, .limitBase, .symInit, .groupSwitch, .origCheck, .bucketStart, .chainBuild,
      .chainSeed, .drive, .blockEnd, .emitPend, .chainStep].map some ∧
    nextInstr { at' .output .chainStep with wRun := 3 } = some .rle4 ∧
    [0, 1, 2, 8, 9].map (fun k => nextInstr { at' .symbols .symbol with symTotal := 8, sym := k }) =
      [.symRunA, .symRunB, .symLiteral 2, .symLiteral 8, .symEob].map some ∧
    nextInstr { at' .symbols .symbol with symTotal := 8, sym := 9, runActive := true } = some .runFlush := by decide

/-! ### Well-formedness: each check refuses an ill-formed term -/

theorem test_wellFormed_level :
    Instr.wellFormed (.level 0x30) = false ∧ Instr.wellFormed (.level 0x3A) = false ∧
    Instr.wellFormed (.level 0x31) = true ∧ Instr.wellFormed (.level 0x39) = true := by decide

theorem test_wellFormed_rand : Instr.wellFormed (.rand 1) = false ∧ Instr.wellFormed (.rand 0) = true := by decide

theorem test_wellFormed_ngroups :
    [0, 1, 2, 6, 7].map (fun n => Instr.wellFormed (.ngroups n)) = [false, false, true, true, false] := by decide

theorem test_wellFormed_nsel : Instr.wellFormed (.nsel 0) = false ∧ Instr.wellFormed (.nsel 1) = true := by decide

theorem test_wellFormed_sel : Instr.wellFormed (.sel 6) = false ∧ Instr.wellFormed (.sel 5) = true := by decide

theorem test_wellFormed_lenStart :
    [0, 1, 20, 21].map (fun t => Instr.wellFormed (.lenStart t)) = [false, true, true, false] := by decide

theorem test_wellFormed_symLiteral :
    [1, 2, 256, 257].map (fun k => Instr.wellFormed (.symLiteral k)) = [false, true, true, false] := by decide

theorem test_wellFormed_reads :
    [0, 1, 24, 25].map (fun n => Instr.wellFormed (.readBits n)) = [false, true, true, false] ∧
    [24, 32, 48].map (fun m => Instr.wellFormed (.readWide m)) = [false, true, true] := by decide

theorem test_wellFormed_errorEntry :
    Instr.wellFormed (.errorEntry .none .sig) = false ∧ Instr.wellFormed (.errorEntry .dataError .none) = false ∧
    Instr.wellFormed (.errorEntry .dataError .sel) = true := by decide

/-! ### Words of the opcode table -/

/-- R82, R85, R87: the words of the table read as its rows. -/
theorem test_table_words :
    decodeTableWord 32 1 = some .start ∧ decodeTableWord 8 3 = some .drain ∧ decodeTableWord 24 0x425A68 = some .sig ∧
    decodeTableWord 8 0x31 = some (.level 0x31) ∧ decodeTableWord 48 0x314159265359 = some .magicData ∧
    decodeTableWord 48 0x177245385090 = some .magicEos ∧ decodeTableWord 48 5 = none := by decide

/-- Each such word, placed at the reset state, is what the next step runs: START, SIG, LEVEL '1', MAGIC.EOS. -/
theorem test_fetch_words :
    see (·.ctl) (step (State.reset.withFetchWord 32 1)) = some .starting ∧
    see (·.pos) (step (State.reset.withFetchWord 24 0x425A68)) = some .level ∧
    see (fun t => (t.ctl, t.dbufSize.toNat)) (step (State.reset.withFetchWord 8 0x31)) = some (.paused, 100000) ∧
    see (·.pos) (step (State.reset.withFetchWord 48 0x177245385090)) = some .crcEos := by decide

/-! ### Commands -/

/-- START in ERROR clears the record and CMD_REJ; in OUTPUT it is refused (R240, R242). -/
theorem test_start :
    see (fun t => (statusWord t, t.pos)) (exec .start { State.reset with ctl := .error, errCode := .ioError, errStage := .output, cmdRej := true }) =
      some (0x00000011, .sig) ∧
    see statusWord (exec .start { at' .output .drive with blkLoaded := true }) = some 0x00020095 := by decide

/-- READ is refused in IDLE, and in PAUSED with LEN = 0 (R240, R243); else it latches LEN. -/
theorem test_read :
    see statusWord (exec .read { State.reset with len := 5 }) = some 0x00000080 ∧
    see statusWord (exec .read (at' .paused .idle)) = some 0x00000086 ∧
    see (fun t => (statusWord t, t.limit, t.count, t.pos)) (exec .read { at' .paused .idle with len := 5, count := 9 }) =
      some (0x00000012, 5, 0, .magic) := by decide

/-- DRAIN in PAUSED inside a block goes on with the block (R244, R247); in DONE it ends at once with COUNT 0 (R250). -/
theorem test_drain :
    see (fun t => (t.ctl, t.pos)) (exec .drain { at' .paused .idle with blkLoaded := true, wRemain := 3 }) = some (.output, .chainStep) ∧
    see (fun t => (statusWord t, t.count)) (exec .drain { at' .done .idle with count := 11 }) = some (0x00000027, 0) := by decide

/-- RELEASE resets LEN too (R245); NOP leaves CMD_REJ (R241); a reserved command sets it (R246). -/
theorem test_release_nop_reserved :
    see (fun t => (statusWord t, t.len)) (exec .release { at' .paused .idle with len := 7, cmdRej := true }) = some (0, 0) ∧
    see (·.cmdRej) (exec .nop { State.reset with cmdRej := true }) = some true ∧
    see (fun t => (t.cmdRej, t.ctl)) (exec .reserved5 (at' .done .idle)) = some (true, .done) ∧
    see (·.cmdRej) (exec .reserved6 State.reset) = some true ∧ see (·.cmdRej) (exec .reserved7 State.reset) = some true := by
  decide

/-- RESET at any time (R300): a held byte is not delivered, the answers not yet used stay with the host. -/
theorem test_reset :
    see (fun t => (t.ctl, t.pos, t.len, t.out, t.outAns)) (exec .reset { at' .output .emitPend with len := 4, out := [1], outAns := [.accept] }) =
      some (.idle, .idle, 0, [1], [.accept]) := by decide

/-! ### The bit reader -/

/-- V-L2-BR-1, its first two reads: 0xB5 0x3C gives 5 from 3 bits and 0x54 from the next 7. -/
theorem test_readBits :
    see (fun t => (t.fVal, t.accN, t.inBytes)) (exec (.readBits 3) { at' .starting .sig with inPort := [.byte 0xB5, .byte 0x3C] }) = some (5, 5, 1) ∧
    see (fun t => (t.fVal, t.accN, t.inBytes)) (exec (.readBits 7) { at' .starting .sig with acc := 0xB5, accN := 5, inBytes := 1, inPort := [.byte 0x3C] }) =
      some (0x54, 6, 2) := by decide

/-- V-L2-BR-4: with ACC_N = 7, 24 bits take three bytes, and ACC_N is 7 again: the 7 held bits, here all 1, and the first 17
bits of 0x12 0x34 0x56. -/
theorem test_readBits_spans :
    see (fun t => (t.fVal, t.accN, t.inBytes)) (exec (.readBits 24) { at' .blockHeader .origptr with acc := 0x7F, accN := 7, inPort := [.byte 0x12, .byte 0x34, .byte 0x56] }) =
      some (0xFE2468, 7, 3) := by decide

/-- V-L2-BR-2 and V-L1-4: the input ends, or fails, while the signature is read. -/
theorem test_fetchByte :
    see statusWord (exec .fetchByte { at' .starting .level with inPort := [.endOfInput] }) = some 0x00002448 ∧
    see statusWord (exec .fetchByte { at' .starting .sig with inPort := [.ioErr] }) = some 0x00001648 ∧
    see (fun t => (t.acc, t.accN, t.inBytes)) (exec .fetchByte { at' .starting .sig with inPort := [.byte 0x42] }) = some (0x42, 8, 1) := by decide

/-- V-L1-6: 31 41 59 26 53 59 as one 48-bit field; with only the first half there it holds and takes nothing (R12). -/
theorem test_readWide :
    see (fun t => (t.fLen, t.fVal, t.accN)) (exec (.readWide 48) { at' .blockHeader .magic with inPort := [0x31, 0x41, 0x59, 0x26, 0x53, 0x59].map .byte }) =
      some (48, 0x314159265359, 0) ∧
    see (fun t => (t.fLen, t.accN, t.inBytes, t.inPort.length))
      (exec (.readWide 32) { at' .blockHeader .crcData with inPort := [0x44, 0xF7].map .byte }) = some (0, 0, 0, 2) ∧
    nextInstr { at' .blockHeader .crcData with accN := 16 } = some (.readBits 16) := by decide

/-! ### The headers -/

/-- V-L1-4: '0' is no level digit; R131: '9' gives 900000 words. -/
theorem test_level :
    see statusWord (exec (.level 0x30) (at' .starting .level)) = some 0x00002148 ∧
    see (fun t => (t.level, t.dbufSize.toNat, statusWord t)) (exec (.level 0x39) (at' .starting .level)) = some (9, 900000, 0x00000006) := by decide

/-- The order of R130 to R134. -/
theorem test_sig_magic_crc :
    see (·.pos) (exec .sig (at' .starting .sig)) = some .level ∧
    see (·.pos) (exec .magicData (at' .blockHeader .magic)) = some .crcData ∧
    see (·.pos) (exec .magicEos (at' .blockHeader .magic)) = some .crcEos ∧
    see (fun t => (t.headerCrc, t.pos)) (exec (.crcDataBlock 0x44F71378) (at' .blockHeader .crcData)) = some (0x44F71378, .rand) := by decide

/-- V-L2-HDR-1: a bad magic after its CRC field. -/
theorem test_bad_magic :
    see statusWord (step { at' .blockHeader .magic with fLen := 80, fVal := 0x31415926535800000000 }) = some 0x00003148 := by decide

/-- V-L2-HDR-2: RAND = 1; ORIGPTR is stored unchecked. -/
theorem test_rand_origptr :
    see statusWord (exec (.rand 1) (at' .blockHeader .rand)) = some 0x00005348 ∧
    see (·.pos) (exec (.rand 0) (at' .blockHeader .rand)) = some .origptr ∧
    see (fun t => (t.origPtr, t.pos)) (exec (.origptr 0xFFFFFF) (at' .blockHeader .origptr)) = some (0xFFFFFF, .map1) := by decide

/-- V-L1-1: MAP1 0x2300 marks groups 2, 6, 7. V-L2-SYM-4: MAP1 0 marks none. -/
theorem test_map1 :
    see (fun t => (t.pos, t.loopI, t.symTotal)) (exec (.map1 0x2300) { at' .blockHeader .map1 with symTotal := 5 }) = some (.map2, 2, 0) ∧
    see (·.pos) (exec (.map1 0) (at' .blockHeader .map1)) = some .ngroups := by decide

/-- V-L1-1: MAP2 0x0C89 of group 6 marks 64 65 68 6C 6F, and group 7 comes next. -/
theorem test_map2 :
    see (fun t => (t.pos, t.loopI, t.symTotal, t.symToByte.map Prod.snd))
      (exec (.map2 0x0C89) { at' .blockHeader .map2 with mapUsed := 0x2300, loopI := 6, symTotal := 1, symToByte := cells [0x20] }) =
      some (.map2, 7, 6, [0x20, 0x64, 0x65, 0x68, 0x6C, 0x6F]) := by decide

/-- V-L2-HDR-3: the raw counts are seen in BLOCK_INFO after the error. -/
theorem test_ngroups :
    see (fun t => (statusWord t, blockInfoWord t)) (exec (.ngroups 7) { at' .blockHeader .ngroups with symTotal := 1 }) =
      some (0x00009248, 0x00000E01) ∧
    see (fun t => (t.pos, blockInfoWord t)) (exec (.ngroups 2) { at' .blockHeader .ngroups with symTotal := 1 }) = some (.nsel, 0x00000401) := by decide

/-- V-L2-HDR-3: NSEL 0; R142: the group list starts as 0, 1, …. -/
theorem test_nsel :
    see (fun t => (statusWord t, blockInfoWord t)) (exec (.nsel 0) { at' .blockHeader .nsel with symTotal := 1, groupCount := 2 }) =
      some (0x0000A248, 0x00000401) ∧
    see (fun t => (t.groupMtf.map Prod.snd, t.pos)) (exec (.nsel 5) { at' .blockHeader .nsel with groupCount := 3 }) = some ([0, 1, 2], .sel) := by decide

/-- V-L2-HDR-4: `110` on [1,0,2] gives selector 2 and the list [2,1,0]. -/
theorem test_sel :
    see (fun t => (t.groupMtf.map Prod.snd, t.selectors, t.loopI, t.pos))
      (exec (.sel 2) { at' .blockHeader .sel with groupCount := 3, nSel := 5, loopI := 2, groupMtf := cells [1, 0, 2] }) =
      some ([2, 1, 0], [(2, 2)], 3, .sel) ∧
    see statusWord (exec (.sel 3) { at' .blockHeader .sel with groupCount := 3, nSel := 1 }) = some 0x0000B248 := by decide

/-- V-L1-1: LEN 4, `=` stores 4 for symbol 0; `+` and `-` step by one; V-L2-HDR-5: t = 21 stops. -/
theorem test_lengths :
    see (fun t => (t.lenT, t.pos)) (exec (.lenStart 4) (at' .blockHeader .lenStart)) = some (4, .lenDelta) ∧
    see (fun t => (t.lengths, t.loopS, t.pos)) (exec .lenDeltaStop { at' .blockHeader .lenDelta with lenT := 4, symTotal := 1 }) =
      some ([(0, 4)], 1, .lenDelta) ∧
    see (·.lenT) (exec .lenDeltaInc { at' .blockHeader .lenDelta with lenT := 4 }) = some 5 ∧
    see (·.lenT) (exec .lenDeltaDec { at' .blockHeader .lenDelta with lenT := 4 }) = some 3 ∧
    see statusWord (exec .lenDeltaDec { at' .blockHeader .lenDelta with lenT := 21 }) = some 0x0000C248 := by decide

/-! ### The group tables, on the lengths of V-L1-1 group 0 (V-L2-HDR-6) -/

/-- Group 0 of V-L1-1 with its code lengths read. -/
def group0 : State :=
  { at' .blockHeader .minmax with symTotal := 8, groupCount := 2, lengths := cells [4, 4, 4, 4, 4, 3, 3, 2, 3, 4] }

/-- The same with MIN_LEN 2 and MAX_LEN 4. -/
def group0Min : State := { group0 with minLen := [(0, 2)], maxLen := [(0, 4)] }

theorem test_minmax : see (fun t => (t.minLen, t.maxLen)) (exec .minmax group0) = some ([(0, 2)], [(0, 4)]) := by decide

theorem test_permute :
    see (fun t => t.permute.map Prod.snd) (exec .permute group0Min) = some [7, 5, 6, 8, 0, 1, 2, 3, 4, 9] := by decide

/-- One symbol of length 2, three of length 3, six of length 4. -/
theorem test_temp : see (·.temp) (exec .temp group0Min) = some [(2, 1), (3, 3), (4, 6)] := by decide

/-- LIMIT[2..4] = 0, 4, 15 and BASE[2..4] = 0, 1, 6; group 1 comes next. -/
theorem test_limitBase :
    see (fun t => ([2, 3, 4].map (limitAt t 0), [2, 3, 4].map (baseAt t 0), t.pos, t.loopG))
      (exec .limitBase { group0Min with temp := [(2, 1), (3, 3), (4, 6)] }) =
      some ([0, 4, 15], [0, 1, 6], .lenStart, 1) := by decide

/-- The same tables in use, at the codewords. -/
def group0Use : State :=
  { at' .symbols .huff with
    symTotal := 8, groupCount := 2, curGroup := 0, minLen := [(0, 2)], maxLen := [(0, 4)]
    limitTab := [(2, 0), (3, 4), (4, 15)], baseTab := [(2, 0), (3, 1), (4, 6)]
    permute := cells [7, 5, 6, 8, 0, 1, 2, 3, 4, 9] }

/-! ### The symbols -/

/-- R170: SYM_INIT. -/
theorem test_symInit :
    see (fun t => (t.ctl, t.pos, t.dbufCount, t.gsymLeft, t.runActive)) (exec .symInit { at' .blockHeader .symInit with dbufCount := 9, runActive := true }) =
      some (.symbols, .groupSwitch, 0, 0, false) ∧
    see (fun t => (mtfSymAt t 255, byteCountAt t 255)) (exec .symInit (at' .blockHeader .symInit)) = some (255, 0) := by
  decide +kernel

/-- V-L2-SYM-3: the first symbol takes selector 0; with the selectors used up the 51st is an error. -/
theorem test_groupSwitch :
    see (fun t => (t.curGroup, t.selIdx, t.gsymLeft, t.pos)) (exec .groupSwitch { at' .symbols .groupSwitch with nSel := 1, selectors := [(0, 4)] }) =
      some (4, 1, 49, .huff) ∧
    see statusWord (exec .groupSwitch { at' .symbols .groupSwitch with nSel := 1, selIdx := 1 }) = some 0x0000D248 := by decide

/-- V-L2-SYM-1: `011` is symbol 6, `1111` is symbol 9; the two bytes 0x7F hold both. -/
theorem test_huffDecode :
    see (fun t => (t.sym, t.accN, t.pos)) (exec .huffDecode { group0Use with acc := 0x7F, accN := 8 }) = some (6, 5, .symbol) ∧
    see (fun t => (t.sym, t.accN)) (exec .huffDecode { group0Use with acc := 0x1F, accN := 5 }) = some (9, 1) := by decide

/-- V-L2-SYM-2: a value above every limit. -/
theorem test_huffDecode_error :
    see (fun t => (statusWord t, t.accN)) (exec .huffDecode { group0Use with maxLen := [(0, 2)], limitTab := [(2, 2)], acc := 0x7, accN := 3 }) =
      some (0x0000E248, 1) := by decide

/-- V-L2-RUN-1: B then A is 4; A then B is 5. -/
theorem test_runs :
    see (·.runVal) (execAll [.symRunB, .symRunA] (at' .symbols .symbol)) = some 4 ∧
    see (fun t => (t.runVal, t.runPos)) (execAll [.symRunA, .symRunB] (at' .symbols .symbol)) = some (5, 4) := by decide

/-- V-L2-RUN-2: 100001 into 100000 words is an error and writes nothing; V-L2-MTF-1: a run of one 'l'. -/
theorem test_runFlush :
    see (fun t => (statusWord t, t.dbuf)) (exec .runFlush { at' .symbols .symbol with dbufSize := 100000, runActive := true, runVal := 100001 }) =
      some (0x0000F248, []) ∧
    see (fun t => (t.dbuf, t.byteCount, t.dbufCount, t.runActive))
      (exec .runFlush { at' .symbols .symbol with dbufSize := 900000, runActive := true, runVal := 2, mtfSym := [(0, 4)], symToByte := [(4, 0x6C)], byteCount := [(0x6C, 1)] }) =
      some ([(0, 0x6C), (1, 0x6C)], [(0x6C, 3)], 2, false) := by decide

/-- V-L2-MTF-2: sym = 4 on [0,1,2,3,4] gives [3,0,1,2,4]. -/
theorem test_symLiteral :
    see (fun t => (t.mtfSym.map Prod.snd, t.dbuf.map Prod.snd, byteCountAt t 0x62))
      (exec (.symLiteral 4) { at' .symbols .symbol with dbufSize := 100000, mtfSym := cells [0, 1, 2, 3, 4], symToByte := [(3, 0x62)], byteCount := [(0x62, 0)] }) =
      some ([3, 0, 1, 2, 4], [0x62], 1) := by decide

/-- V-L2-LIT-1: a literal into a full DBUF. -/
theorem test_symLiteral_full :
    see statusWord (exec (.symLiteral 2) { at' .symbols .symbol with dbufSize := 100000, dbufCount := 100000 }) = some 0x00010248 := by decide

/-- R177: EOB ends the symbols. V-L2-BWT-3: ORIGPTR 11 with 11 words is an error. -/
theorem test_symEob_origCheck :
    see (fun t => (t.ctl, t.pos)) (exec .symEob (at' .symbols .symbol)) = some (.bwt, .origCheck) ∧
    see (fun t => (t.errCode, t.errStage)) (exec .origCheck { at' .bwt .origCheck with origPtr := 11, dbufCount := 11 }) = some (.dataError, .origchk) ∧
    see (·.pos) (exec .origCheck { at' .bwt .origCheck with origPtr := 10, dbufCount := 11 }) = some .bucketStart := by decide

/-! ### The inverse BWT, on the block of V-L2-BWT-2 -/

/-- Four 0x61 and one 0x06, counted. -/
def tenA : State :=
  { at' .bwt .bucketStart with
    dbuf := cells [0x61, 0x61, 0x61, 0x61, 0x06], dbufCount := 5, origPtr := 4
    byteCount := memWrite (memWrite (cells (List.replicate 256 0)) 0x06 1) 0x61 4 }

/-- The bucket starts 0x06 -> 0 and 0x61 -> 1. -/
theorem test_bucketStart :
    see (fun t => [0x06, 0x07, 0x61, 0x62, 0xFF].map (byteCountAt t)) (exec .bucketStart tenA) = some [0, 1, 1, 5, 5] := by
  decide +kernel

/-- DBUF = [1121, 97, 353, 609, 774]. -/
theorem test_chainBuild :
    see (fun t => t.dbuf.map Prod.snd) (exec .chainBuild { tenA with byteCount := [(0x06, 0), (0x61, 1)] }) =
      some [1121, 97, 353, 609, 774] := by decide

/-- The same after the chain is built. -/
def tenAChain : State := { tenA with pos := .chainSeed, dbuf := cells [1121, 97, 353, 609, 774] }

/-- ORIG_PTR = 4 gives W_CUR = 0x06 and W_POS = 3. -/
theorem test_chainSeed :
    see (fun t => (t.wCur, t.wPos, t.wRun.toInt, t.wRemain, t.dataCrc, t.blkLoaded)) (exec .chainSeed tenAChain) =
      some (0x06, 3, -1, 5, 0xFFFFFFFF, true) := by decide

/-- The first walk step reads 'a' at 3; after four 'a' the byte 0x06 at 4 is a count of 6. -/
theorem test_chainStep_rle4 :
    see (fun t => (t.pendByte, t.pend, t.wPos, t.wRun, t.wRemain)) (exec .chainStep { tenAChain with ctl := .output, wCur := 0x06, wPos := 3, wRun := 7, wRemain := 5 }) =
      some (0x61, 1, 2, 0, 4) ∧
    see (fun t => (t.pendByte, t.pend, t.wCur, t.wRun, t.wRemain)) (exec .rle4 { tenAChain with ctl := .output, wCur := 0x61, wPos := 4, wRun := 3, wRemain := 1 }) =
      some (0x61, 6, 0x100, 0, 0) ∧
    see (·.wRun) (exec .chainStep { tenAChain with ctl := .output, wCur := 0x61, wPos := 2, wRun := 2, wRemain := 2 }) = some 3 := by decide

/-! ### Output, CRC, control -/

/-- V-L1-6: the CRC of "a" is 0x19939B6B, of "123456789" 0xFC891918; the first entries of CRC_TABLE (R216). -/
theorem test_crc :
    ~~~ crcBytes 0xFFFFFFFF [0x61] = 0x19939B6B ∧
    ~~~ crcBytes 0xFFFFFFFF [0x31, 0x32, 0x33, 0x34, 0x35, 0x36, 0x37, 0x38, 0x39] = 0xFC891918 ∧
    crcTable 0 = 0 ∧ crcTable 1 = 0x04C11DB7 ∧ combineCrc 0x7669E0D4 0x59CE7BCB = 0xB51DBA63 := by decide

/-- R214: an accepted byte is delivered, counted and added to the CRC. -/
theorem test_emitPend :
    see (fun t => (t.out, t.pend, t.count, t.outBytes, ~~~ t.dataCrc, t.pos))
      (exec .emitPend { at' .output .emitPend with pend := 1, pendByte := 0x61, dataCrc := 0xFFFFFFFF, outAns := [.accept] }) =
      some ([0x61], 0, 1, 1, 0x19939B6B, .drive) := by decide

/-- R220: a failed byte is not delivered; R215: one answer for one byte. -/
theorem test_emit :
    see (fun t => (t.out, t.pend, t.count, t.errCode, t.errStage)) (exec .emitPend { at' .output .emitPend with pend := 1, outAns := [.fail] }) =
      some ([], 1, 0, .ioError, .output) ∧
    see (fun t => (t.out, t.outAns)) (exec (.emit 7) { at' .output .emitPend with outAns := [.accept, .fail] }) = some ([7], [.fail]) := by decide

/-- V-L1-3: the block CRC 0x59CE7BCB against a header CRC of 0x59CE7BCA; and a block that is right. -/
theorem test_blockEnd :
    see (fun t => (statusWord t, t.dataCrc, t.totalCrc, t.blocks))
      (exec .blockEnd { at' .output .blockEnd with blkLoaded := true, dataCrc := ~~~ 0x59CE7BCB, headerCrc := 0x59CE7BCA, totalCrc := 0x7669E0D4, blocks := 1 }) =
      some (0x00012548, 0x59CE7BCB, 0xB51DBA63, 1) ∧
    see (fun t => (t.blkLoaded, t.blocks, t.pos)) (exec .blockEnd { at' .output .blockEnd with blkLoaded := true, dataCrc := ~~~ 0x44F71378, headerCrc := 0x44F71378 }) =
      some (false, 1, .drive) := by decide

/-- V-L2-HDR-1: a wrong and a right combined CRC. -/
theorem test_eosCheck :
    see (fun t => (t.streamCrc, t.pos)) (exec (.crcEndOfStream 1) (at' .blockHeader .crcEos)) = some (1, .eosCheck) ∧
    see (fun t => (statusWord t, t.streamCrc)) (exec (.eosCheck 1) (at' .blockHeader .eosCheck)) = some (0x00013548, 1) ∧
    see statusWord (exec (.eosCheck 0) (at' .blockHeader .eosCheck)) = some 0x00000027 := by decide

/-- V-L1-5, READ 11: the block's end comes before the limit; the limit before the next block. -/
theorem test_drive :
    see (·.pos) (exec .drive { at' .output .drive with blkLoaded := true, mode := true, count := 1, limit := 1 }) = some .blockEnd ∧
    see statusWord (exec .drive { at' .output .drive with mode := true, count := 1, limit := 1 }) = some 0x00000006 := by decide

/-- R280: CRC_MISMATCH at BLOCK_CRC in the words of V-L1-3. -/
theorem test_errorEntry :
    see (fun t => (statusWord t, t.count)) (exec (.errorEntry .crcMismatch .blockCrc) { at' .output .blockEnd with count := 11 }) = some (0x00012548, 11) := by decide

/-- R23, R69: ID reads "BZh1"; BLOCK_INFO of V-L1-1 is 0x00001408; an offset without a register reads 0. -/
theorem test_registers :
    regValue State.reset 0x3C = 0x425A6831 ∧
    regValue { State.reset with symTotal := 8, groupCount := 2, nSel := 1 } 0x2C = 0x00001408 ∧ regValue State.reset 0x40 = 0 := by decide

/-! ### For every claim with hypotheses, states and operands that meet them, clause by clause -/

theorem witness_ElementDecodesToItself :
    encode (.sel 2) = some ⟨3, 6⟩ ∧ (Instr.sel 2).place ≠ .idle ∧ (here .sel).pos = (Instr.sel 2).place ∧
    2 < (here .sel).groupCount ∧ encode .lenDeltaDec = some ⟨2, 3⟩ ∧ Instr.lenDeltaDec.place = .lenDelta ∧
    1 ≤ (here .lenDelta).lenT ∧ (here .lenDelta).lenT ≤ 20 := by decide

theorem witness_CommandDecodesByOpAlone : encode .drain = some ⟨32, 3⟩ ∧ Instr.drain.place = .idle := by decide

theorem witness_ReaderAsksForTheElementsBits :
    encode .magicData = some ⟨48, dataMagic⟩ ∧ Instr.magicData.place ≠ .idle ∧ (here .magic).pos = Instr.magicData.place ∧
    (0 < 48 ∧ 47 < 48) ∧ (∀ j, Instr.magicData ≠ .sel j) ∧ Instr.magicData.place ≠ .lenDelta ∧ Instr.magicData ≠ .sig := by
  refine ⟨rfl, by decide, rfl, by decide, ?_, by decide, by decide⟩
  intro j h
  cases h

/-- The same at the signature, at each of the lengths at which the reader stops. -/
theorem witness_ReaderAsksForTheElementsBits_sig :
    encode .sig = some ⟨24, 0x425A68⟩ ∧ Instr.sig.place ≠ .idle ∧ (here .sig).pos = Instr.sig.place ∧
    (∀ j, Instr.sig ≠ .sel j) ∧ Instr.sig.place ≠ .lenDelta ∧
    ∀ m ∈ [0, 8, 16], m < 24 ∧ (Instr.sig = .sig → m = 0 ∨ m = 8 ∨ m = 16) := by
  refine ⟨rfl, by decide, rfl, ?_, by decide, by decide⟩
  intro j h
  cases h

theorem witness_StepRunsTheDecodedOperation :
    ((at' .output .drive).host = [] ∧ nextInstr (at' .output .drive) = some .drive) ∧ State.reset.pos = .idle ∧
    nextInstr { at' .output .drive with host := [.reset] } = some .drive ∧
    (Pos.sig ∈ [.sig, .level, .magic, .crcData, .crcEos, .rand, .origptr, .map1, .map2, .ngroups, .nsel, .sel,
        .lenStart, .lenDelta, .huff]) ∧
    (decodeField (readCtx (at' .starting .sig)) ⟨24, 0x425A68⟩ = .run .sig ∧
      decodeField (readCtx (at' .starting .sig)) ⟨0, 0⟩ = .more 8 ∧
      decodeField (readCtx (at' .blockHeader .magic)) ⟨0, 0⟩ = .wide 48 ∧
      decodeField (readCtx (at' .starting .sig)) ⟨8, 0⟩ = .illegal .notBzipData .sig) ∧
    (at' .symbols .symbol).pos = .symbol ∧
    ((at' .symbols .huff).curGroup.toNat < 6 ∧ (at' .symbols .huff).fLen ≤ 20) ∧
    (State.pos { at' .symbols .huff with fLen := 21 } = .huff ∧ 20 < State.fLen { at' .symbols .huff with fLen := 21 }) ∧
    (at' .blockHeader .eosCheck).pos = .eosCheck ∧ (at' .output .chainStep).pos = .chainStep := by decide

/-- The block of V-L2-BWT-2 at the place where its symbols have just ended. -/
def tenAStart : State := { tenA with pos := .origCheck }

/-- The four operations of R206 on it, and the block whose origin pointer is out of range. -/
theorem witness_StepRunsTheDecodedOperation_bwt :
    (tenAStart.pos = .origCheck ∧ tenAStart.host = [] ∧ tenAStart.origPtr.toNat < tenAStart.dbufCount.toNat) ∧
    see (·.pos) (execAll [.origCheck] tenAStart) = some .bucketStart ∧
    see (·.pos) (execAll [.origCheck, .bucketStart] tenAStart) = some .chainBuild ∧
    see (·.pos) (execAll [.origCheck, .bucketStart, .chainBuild] tenAStart) = some .chainSeed ∧
    see (·.pos) (execAll [.origCheck, .bucketStart, .chainBuild, .chainSeed] tenAStart) = some .drive ∧
    State.dbufCount { tenAStart with origPtr := 5 } ≤ 5 := by decide +kernel

/-- R206: one step goes from there to the output walk, W_CUR = 0x06 and W_POS = 3; or to ERROR (V-L2-BWT-3). -/
theorem test_bwt_in_one_step :
    see (fun t => (t.ctl, t.pos, t.wCur, t.wPos)) (step tenAStart) = some (.output, .drive, 0x06, 3) ∧
    see (fun t => (t.errStage, t.pos, t.blkLoaded)) (step { tenAStart with origPtr := 5 }) = some (.origchk, .idle, false) := by
  decide +kernel

/-- A state in the symbols with an alphabet of two, one word in DBUF and its count. -/
def symState : State :=
  { at' .symbols .groupSwitch with
    level := 1, dbufSize := 100000, symTotal := 2, mtfSym := [(0, 1), (1, 0)], gsymLeft := 3, dbuf := [(0, 0x61)], dbufCount := 1
    byteCount := memWrite (cells (List.replicate 256 0)) 0x61 1 }

theorem symState_steps : ∃ t, step symState = .next t := ⟨_, rfl⟩

theorem witness_MemoriesStayCanonical : symState.memWf = true ∧ ∃ t, step symState = .next t :=
  ⟨by decide +kernel, symState_steps⟩

theorem witness_PlaceAgreesWithControlState :
    symState.placeWf = true ∧ symState.pos ∉ [.bucketStart, .chainBuild, .chainSeed] ∧ ∃ t, step symState = .next t :=
  ⟨by decide, by decide, symState_steps⟩

theorem witness_ErrorRecordExactlyInError :
    symState.placeWf = true ∧ symState.errWf = true ∧ ∃ t, step symState = .next t := ⟨by decide, by decide, symState_steps⟩

theorem witness_BufferNeverExceedsItsSize :
    symState.placeWf = true ∧ symState.sizeWf = true ∧ ∃ t, step symState = .next t := ⟨by decide, by decide, symState_steps⟩

theorem witness_MtfListStaysAPermutation : symState.placeWf = true ∧ symState.mtfWf ∧ ∃ t, step symState = .next t := by
  refine ⟨by decide, ⟨by decide, fun _ => ⟨?_, ?_⟩⟩, symState_steps⟩
  · intro k hk
    have hk : k < 2 := hk
    interval_cases k <;> decide
  · intro k l hk hl h
    have hk : k < 2 := hk
    have hl : l < 2 := hl
    interval_cases k <;> interval_cases l <;> first | rfl | exact absurd h (by decide)

theorem witness_ByteCountsCountTheBuffer :
    symState.placeWf = true ∧ symState.sizeWf = true ∧ symState.countWf ∧ ∃ t, step symState = .next t := by
  refine ⟨by decide, by decide, fun _ => ⟨?_, ?_⟩, symState_steps⟩
  · have h : (List.range 256).all (fun n => decide ((byteCountAt symState n).toNat = bytesOf symState 1 (BitVec.ofNat 8 n))) = true := by
      decide +kernel
    intro b
    have hb := List.all_eq_true.1 h b.toNat (List.mem_range.2 b.isLt)
    have e : BitVec.ofNat 8 b.toNat = b := by simp
    rw [e] at hb
    exact of_decide_eq_true hb
  · intro i hi
    have hi : i < 1 := hi
    interval_cases i
    decide

theorem witness_RunCounterStaysInRange :
    State.runWf { tenAChain with pos := .chainStep, ctl := .output, wPos := 2, wRun := 2, wCur := 0x61 } = true ∧
    ∃ t, step { tenAChain with pos := .chainStep, ctl := .output, wPos := 2, wRun := 2, wCur := 0x61 } = .next t :=
  ⟨by decide, ⟨_, rfl⟩⟩

theorem witness_TransitionsAreOnlyThese :
    State.placeWf { symState with host := [.reset] } = true ∧ symState.ctl.busy = true ∧
    see (·.ctl) (step { symState with host := [.reset] }) = some .idle := by decide

/-- A core in ERROR whose host writes START. -/
def failed : State := { at' .error .idle with errCode := .dataError, errStage := .sel, host := [.write 0 4 1] }

theorem witness_ErrorLeftAndDoneReachedOnlySo :
    failed.placeWf = true ∧ see (·.ctl) (step failed) = some .starting ∧
    State.placeWf (at' .blockHeader .eosCheck) = true ∧ see (·.ctl) (step (at' .blockHeader .eosCheck)) = some .done := by decide

theorem witness_PortsAndLenOnlyByTheirOperations :
    see (·.inPort) (exec .fetchByte { State.reset with inPort := [.byte 1] }) = some [] ∧
    see (fun t => (t.out, t.outAns)) (exec .emitPend { State.reset with outAns := [.accept] }) = some ([0], []) ∧
    see (·.len) (exec .release { State.reset with len := 3 }) = some 0 := by decide

theorem witness_HostCannotDisturbABusyCore :
    symState.ctl.busy = true ∧ see (·.cmdRej) (step { symState with host := [.write 0 4 1] }) = some true ∧
    see (·.host) (step { symState with host := [.read 0x0C 4] }) = some [] := by decide

theorem witness_LimitOnlyDecidesPauses :
    (at' .output .drive).host = [] ∧
    ¬ ((at' .output .drive).mode = true ∧ (at' .output .drive).count = (at' .output .drive).limit) ∧
    ¬ (true = true ∧ (at' .output .drive).count = (5 : Word)) := by decide

theorem witness_HeldCoreIsUnchanged :
    (nextInstr (at' .starting .sig) = some .fetchByte ∧ (at' .starting .sig).inPort = []) ∧
    ((at' .output .emitPend).pos = .emitPend ∧ (at' .output .emitPend).outAns = []) ∧ (at' .starting .sig).host = [] := by decide

theorem witness_RegisterPortAccesses :
    State.reset.ctl.busy = false ∧ symState.ctl.busy = true ∧ 0x00 % 4 = 0 ∧ 0x3C % 4 = 0 ∧ 0x3C < 0x40 ∧ 0x40 ≤ 0x40 ∧
    0x3C ≠ 0x08 ∧ 0x08 ≠ 0x04 ∧ ((1 : Nat) ≠ 4 ∨ 0 % 4 ≠ 0) ∧ ((4 : Nat) ≠ 4 ∨ 2 % 4 ≠ 0) := by decide

theorem witness_CommandsAcceptedByTheTable :
    (at' .paused .idle).ctl ∈ [.idle, .paused, .done, .error] ∧ symState.ctl ∈ [.starting, .blockHeader, .symbols, .bwt, .output] ∧
    (at' .done .idle).ctl ∈ [.paused, .done] ∧ State.len { at' .done .idle with len := 1 } ≠ 0 ∧ (at' .done .idle).len = 0 ∧
    State.reset.ctl ∈ [.idle, .error, .starting, .blockHeader, .symbols, .bwt, .output] := by decide

theorem witness_StartClearsTheStream : failed.ctl.busy = false := by decide

theorem witness_StartOpensAStream :
    failed.ctl.busy = false ∧ failed.host = [.write 0 4 1] ∧ 0x31 ≤ (0x31 : Byte).toNat ∧ (0x31 : Byte).toNat ≤ 0x39 ∧
    0x31 ≤ (0x39 : Byte).toNat ∧ (0x39 : Byte).toNat ≤ 0x39 := by decide

theorem witness_ReadAndDrainEnterTheLoop :
    (at' .paused .idle).ctl = .paused ∧ State.len { at' .paused .idle with len := 1 } ≠ 0 := by decide

theorem witness_ReadInDoneEndsAtOnce :
    (at' .done .idle).ctl = .done ∧ State.len { at' .done .idle with len := 1 } ≠ 0 := by decide

theorem witness_ReleaseAndResetGiveResetValues : (at' .paused .idle).ctl.busy = false := by decide

theorem witness_FetchByteTakesOneToken :
    (at' .starting .sig).inPort = [] ∧ State.inPort { at' .starting .sig with inPort := [.byte 0x42] } = .byte 0x42 :: [] ∧
    State.inPort { at' .starting .sig with inPort := [.endOfInput] } = .endOfInput :: [] ∧
    State.inPort { at' .starting .sig with inPort := [.ioErr, .byte 1] } = .ioErr :: [.byte 1] ∧
    ((at' .starting .sig).pos, Stage.sig) ∈ [(Pos.sig, Stage.sig), (.level, .level)] ∧
    ((at' .blockHeader .magic).pos = .magic ∧ State.fLen { at' .blockHeader .magic with fLen := 47 } < 48 ∧
      48 ≤ State.fLen { at' .blockHeader .magic with fLen := 48 }) := by decide

/-- No byte is needed, three bytes are needed, and the widths outside 1..24. -/
theorem witness_ReadBitsTakesTheNextBits :
    (1 ≤ 1 ∧ 1 ≤ 24 ∧ 1 ≤ State.accN { State.reset with accN := 31 } + 8 * 0) ∧
    (24 ≤ 24 ∧ State.inPort { State.reset with inPort := [.byte 1, .byte 2, .byte 3, .endOfInput] } =
      [0x01, 0x02, 0x03].map Token.byte ++ [.endOfInput] ∧
      24 ≤ State.reset.accN.toNat + 8 * [0x01, 0x02, 0x03].length ∧
      State.reset.accN.toNat + 8 * ([0x01, 0x02, 0x03].length - 1) < 24) ∧
    (State.inPort { State.reset with inPort := [.byte 1, .byte 2] } = [0x01, 0x02].map Token.byte ∧
      State.reset.accN.toNat + 8 * [0x01, 0x02].length < 24) ∧ (0 < 1 ∧ 24 < 25) := by decide

theorem witness_WideReadEqualsOneRead :
    (State.inPort { State.reset with inPort := [.byte 1, .byte 2, .byte 3, .byte 4] } = [0x01, 0x02, 0x03, 0x04].map Token.byte ++ [] ∧
      32 ≤ State.reset.accN.toNat + 8 * [0x01, 0x02, 0x03, 0x04].length ∧
      State.reset.accN.toNat + 8 * ([0x01, 0x02, 0x03, 0x04].length - 1) < 32) ∧
    (State.inPort { State.reset with inPort := [.byte 1, .byte 2, .byte 3] } = [0x01, 0x02, 0x03].map Token.byte ∧
      State.reset.accN.toNat + 8 * [0x01, 0x02, 0x03].length < 32) ∧ (24 ≠ 32 ∧ 24 ≠ 48) := by decide

theorem witness_SignatureAndLevel :
    (at' .starting .sig).pos = .sig ∧
    (State.fLen { at' .starting .sig with fLen := 24, fVal := 0x425A78 } = 24 ∧
      State.fVal { at' .starting .sig with fLen := 24, fVal := 0x425A78 } ≠ 0x425A68) ∧
    (State.fLen { at' .starting .sig with fLen := 16, fVal := 0x425A } = 16 ∧
      State.fVal { at' .starting .sig with fLen := 16, fVal := 0x425A } = 0x425A) ∧
    (0x31 ≤ (0x31 : Byte).toNat ∧ (0x39 : Byte).toNat ≤ 0x39) ∧ (0x30 : Byte).toNat < 0x31 ∧ 0x39 < (0x3A : Byte).toNat := by decide

theorem witness_BlockHeaderFields :
    (here .magic).pos = .magic ∧ (0x314159265358 : Nat) ≠ 0x314159265359 ∧ (0x314159265358 : Nat) ≠ 0x177245385090 := by decide

/-- MAP1 with group 0, with group 15 alone, with none; MAP2 up to the 256th entry, with and without a later group. -/
theorem witness_MapsBuildTheAlphabet :
    ((0x8000 : BitVec 16).getLsbD (15 - 0) = true) ∧
    ((0x0001 : BitVec 16).getLsbD (15 - 15) = true ∧ ∀ l, l < 15 → (0x0001 : BitVec 16).getLsbD (15 - l) = false) ∧
    (State.symTotal { State.reset with symTotal := 240 }).toNat + usedBefore 0xFFFF 16 ≤ 256 ∧
    (∀ l, l < 16 → 7 < l → (0x2300 : BitVec 16).getLsbD (15 - l) = false) ∧
    ((0x2300 : BitVec 16).getLsbD (15 - 7) = true ∧ 6 < 7 ∧ 7 < 16) := by decide

theorem witness_GroupCountStoredThenChecked :
    (2 ≤ (2 : BitVec 3).toNat ∧ (6 : BitVec 3).toNat ≤ 6) ∧ (1 : BitVec 3).toNat < 2 ∧ 6 < (7 : BitVec 3).toNat := by decide

theorem witness_SelectorCountStoredThenChecked :
    (1 : BitVec 15) ≠ 0 ∧ (State.groupCount { State.reset with groupCount := 6 }).toNat ≤ 6 := by decide

/-- The last position of six groups, the last selector, the code of GROUP_COUNT one-bits. -/
theorem witness_SelectorMovesItsGroupToFront :
    (5 < (State.groupCount { State.reset with groupCount := 6 }).toNat ∧ (State.groupCount { State.reset with groupCount := 6 }).toNat ≤ 6 ∧
      State.loopI { State.reset with loopI := 32766, nSel := 32767 } < (State.nSel { State.reset with loopI := 32766, nSel := 32767 }).toNat) ∧
    (State.groupCount { State.reset with groupCount := 6 }).toNat ≤ 6 ∧ (here .sel).pos = .sel ∧ 1 ≤ (here .sel).groupCount := by decide

theorem witness_CodeLengthsOfAGroup :
    (1 ≤ (State.lenT { State.reset with lenT := 1 }).toNat ∧ (State.lenT { State.reset with lenT := 20 }).toNat ≤ 20) ∧
    State.loopS { State.reset with loopS := 257 } < 258 ∧ State.reset.lenT.toNat < 1 ∧
    20 < (State.lenT { State.reset with lenT := 21 }).toNat ∧ (at' .blockHeader .lenDelta).pos = .lenDelta := by decide

/-- The sixth group, with the empty alphabet of R181: lengths 1 and 20. -/
def extremes : State :=
  { at' .blockHeader .minmax with
    loopG := 5, lengths := [(0, 1), (1, 20)], minLen := [(5, 1)], maxLen := [(5, 20)]
    temp := memWrite (memWrite (cells (List.replicate 21 0)) 1 1) 20 1 }

theorem witness_MinMaxAreTheExtremeLengths :
    extremes.loopG < 6 ∧ extremes.symTotal.toNat ≤ 256 ∧ ∀ l ∈ lengthList extremes, 1 ≤ l ∧ l ≤ 20 := by decide

theorem witness_PermuteSortsTheSymbols :
    extremes.loopG < 6 ∧ extremes.symTotal.toNat ≤ 256 ∧
    ∀ l ∈ lengthList extremes, minLenAt extremes extremes.loopG ≤ l ∧ l ≤ maxLenAt extremes extremes.loopG := by decide

theorem witness_TempCountsTheLengths :
    extremes.loopG < 6 ∧ extremes.symTotal.toNat ≤ 256 ∧ 1 ≤ minLenAt extremes extremes.loopG ∧
    minLenAt extremes extremes.loopG ≤ 20 ∧ maxLenAt extremes extremes.loopG ≤ 20 := by decide

/-- Also a value at each of the two lengths at which decoding stops: 0 at length 1, and 2^19 at length 20. -/
theorem witness_CanonicalTablesIndexPermute :
    extremes.loopG < 6 ∧ extremes.symTotal.toNat ≤ 256 ∧ 1 ≤ minLenAt extremes extremes.loopG ∧
    minLenAt extremes extremes.loopG ≤ maxLenAt extremes extremes.loopG ∧ maxLenAt extremes extremes.loopG ≤ 20 ∧
    symbolsBelow (tempAt extremes) 1 20 = extremes.symTotal.toNat + 2 ∧
    see (fun t => (limitAt t 5 1, limitAt t 5 19, limitAt t 5 20)) (exec .limitBase extremes) = some (0, 262143, 524288) := by
  decide +kernel

theorem witness_GroupSwitchesEveryFiftySymbols :
    symState.gsymLeft ≠ 0 ∧ (at' .symbols .groupSwitch).gsymLeft = 0 ∧
    (State.selIdx { at' .symbols .groupSwitch with nSel := 1 }).toNat < (State.nSel { at' .symbols .groupSwitch with nSel := 1 }).toNat ∧
    (at' .symbols .groupSwitch).nSel.toNat ≤ (at' .symbols .groupSwitch).selIdx.toNat := by decide

/-- A codeword of the tables of V-L1-1, with `l` bits of value `v` read. -/
def word (l v : Nat) : State := { group0Use with fLen := l, fVal := v }

/-- On the tables of V-L1-1: nothing read; 15 of length 4, at LIMIT; 0 of length 4 below BASE and, with LIMIT raised, 264 of
length 4 above the last entry; 16 of length 4, above LIMIT at MAX_LEN; 1 of length 2, above LIMIT below it; a length of 21. -/
theorem witness_CodewordNamesItsSymbol :
    group0Use.curGroup.toNat < 6 ∧ (group0Use.pos = .huff ∧ group0Use.fLen = 0) ∧
    ((word 4 15).fLen ≠ 0 ∧ (word 4 15).fLen ≤ 20 ∧ ((word 4 15).fVal : Int) ≤ limitAt (word 4 15) 0 4 ∧
      baseAt (word 4 15) 0 4 ≤ (word 4 15).fVal ∧ (word 4 15).fVal < baseAt (word 4 15) 0 4 + 258) ∧
    (((word 4 0).fVal : Int) ≤ limitAt (word 4 0) 0 4 ∧ (word 4 0).fVal < baseAt (word 4 0) 0 4) ∧
    (((word 4 264).fVal : Int) ≤ limitAt { word 4 264 with limitTab := [(4, 300)] } 0 4 ∧
      baseAt (word 4 264) 0 4 + 258 ≤ (word 4 264).fVal) ∧
    (limitAt (word 4 16) 0 4 < ((word 4 16).fVal : Int) ∧ (word 4 16).fLen = maxLenAt (word 4 16) 0) ∧
    (limitAt (word 2 1) 0 2 < ((word 2 1).fVal : Int) ∧ (word 2 1).fLen ≠ maxLenAt (word 2 1) 0 ∧ (word 2 1).pos = .huff) ∧
    20 < (word 21 0).fLen := by decide

theorem witness_RunDigitsAccumulate :
    State.reset.runActive = false ∧ State.runActive { State.reset with runActive := true } = true := by decide

theorem witness_RunCodeIsBijective : State.reset.runActive = false ∧ [true, false] ≠ [] ∧ runLength [true, false] = 4 := by decide

/-- No run, a run one word too long, and one that fills DBUF. -/
theorem witness_PendingRunIsFlushedFirst :
    State.reset.runActive = false ∧
    (100000 : BitVec 20).toNat < (99999 : BitVec 20).toNat + 2 ∧
    ((99999 : BitVec 20).toNat + 1 ≤ (100000 : BitVec 20).toNat ∧ (900000 : BitVec 20).toNat ≤ 900000) := by decide

/-- DBUF full, one word left, and the first and the last literal symbol. -/
theorem witness_LiteralAppendsAndMovesToFront :
    State.reset.runActive = false ∧ (900000 : BitVec 20).toNat ≤ (900000 : BitVec 20).toNat ∧
    ((899999 : BitVec 20).toNat < (900000 : BitVec 20).toNat ∧ (900000 : BitVec 20).toNat ≤ 900000 ∧ 2 ≤ (2 : BitVec 9).toNat ∧
      (256 : BitVec 9).toNat ≤ 256) := by decide

theorem witness_EobThenOriginCheck :
    State.reset.runActive = false ∧ (4 : BitVec 24).toNat < (5 : BitVec 20).toNat ∧ (5 : BitVec 20).toNat ≤ (5 : BitVec 24).toNat := by decide

/-- The block of V-L2-BWT-2 with its bucket starts. -/
theorem witness_ChainIsTheStableSort :
    let s : State := { tenA with byteCount := cells ((List.range 256).map fun c => BitVec.ofNat 20 (if c ≤ 0x06 then 0 else if c ≤ 0x61 then 1 else 5)) }
    s.dbufCount.toNat ≤ 900000 ∧ (∀ i, i < s.dbufCount.toNat → wordNext (dbufAt s i) = 0) ∧
    ∀ c, c < 256 → (byteCountAt s c).toNat = bytesBelow s s.dbufCount.toNat c := by
  decide +kernel

theorem witness_ChainSeedSetsUpTheWalk : (899999 : BitVec 24).toNat < 900000 := by decide

theorem witness_ChainStepOrCount :
    (899999 : BitVec 24).toNat < 900000 ∧ (7 : BitVec 3) ≠ 3 ∧ (2 : BitVec 3) ≠ 3 ∧ (3 : BitVec 3) = 3 := by decide

theorem witness_EmitDeliversOneByte :
    State.reset.outAns = [] ∧ State.outAns { State.reset with outAns := [.accept, .fail] } = .accept :: [.fail] ∧
    State.outAns { State.reset with outAns := [.fail] } = .fail :: [] := by decide

theorem witness_BlockEndChecksTheBlockCrc :
    ~~~ State.dataCrc { State.reset with dataCrc := 0xFFFFFFFF } = State.reset.headerCrc ∧ ~~~ State.reset.dataCrc ≠ State.reset.headerCrc := by
  decide

theorem witness_EndOfStreamChecksTheTotalCrc :
    (0 : Word) = State.reset.totalCrc ∧ (1 : Word) ≠ State.reset.totalCrc ∧ (at' .blockHeader .eosCheck).pos = .eosCheck := by decide

end Sys2Proof.Tests
end

/-! ## Postconditions of operations -/

namespace Sys2Proof.Machine

/-- Every state from which an operation's caller goes on, or in which the step ends with an error, satisfies `P`. -/
def Act.Ensures (P : State → Prop) : Act → Prop
  | .go s | .halt s => P s
  | .hold | .fault _ | .refuse _ => True

/-- The next state, where there is one, satisfies `P`. -/
def NextSatisfies (P : State → Prop) : Host.Outcome State Fault Refusal → Prop
  | .next s => P s
  | .fault _ | .refused _ => True

section Ensures

variable {P : State → Prop} {a : Act} {s t : State}

@[simp] theorem Act.ensures_go : (Act.go s).Ensures P ↔ P s := Iff.rfl
@[simp] theorem nextSatisfies_next : NextSatisfies P (.next s) ↔ P s := Iff.rfl

theorem NextSatisfies.of_next {o : Host.Outcome State Fault Refusal} (ho : NextSatisfies P o) (h : o = .next t) : P t := by
  subst h; exact ho

theorem Act.Ensures.bind {k : State → Act} (ha : a.Ensures P) (hk : ∀ u, P u → (k u).Ensures P) :
    (a.bind k).Ensures P := by
  cases a with
  | go u => exact hk u ha
  | halt u => exact ha
  | hold | fault | refuse => trivial

/-- An operation that holds leaves the state it started from, so that one must satisfy `P` too. -/
theorem NextSatisfies.out (ha : a.Ensures P) (hs : P s) : NextSatisfies P (a.out s) := by
  cases a with
  | go u | halt u => exact ha
  | hold => exact hs
  | fault | refuse => trivial

theorem Act.Ensures.guardIx {m : MemId} {n i : Nat} (h : i < n → a.Ensures P) :
    (Machine.guardIx m n i a).Ensures P := by
  unfold Machine.guardIx
  split
  · exact h ‹_›
  · trivial

theorem Act.Ensures.lenIx {m : MemId} {l : Nat} (h : l < lenColumns → a.Ensures P) :
    (Machine.lenIx m l a).Ensures P := by
  unfold Machine.lenIx
  split
  · exact .guardIx h
  · trivial

theorem Act.Ensures.tableGuard (h : s.loopG < Config.maxGroups → symCount s ≤ Config.maxSymbols → a.Ensures P) :
    (Machine.tableGuard s a).Ensures P :=
  .guardIx fun hg => .guardIx fun hc => h hg (Nat.le_of_lt_succ hc)

theorem Act.Ensures.lenGuard
    (h : minLenAt s s.loopG < lenColumns → maxLenAt s s.loopG < lenColumns → a.Ensures P) :
    (Machine.lenGuard s a).Ensures P :=
  .lenIx fun hlo => .guardIx fun hhi => h hlo hhi

theorem Act.Ensures.lenCheck (herr : P (raiseError .dataError .len s)) (ha : a.Ensures P) :
    (Machine.lenCheck s a).Ensures P := by
  unfold Machine.lenCheck
  split
  · exact herr
  · exact ha

end Ensures

/-! ## The memories stay canonical (R11, R62) -/

/-- `State.memWf` with a name for each memory. -/
structure MemoriesWf (s : State) : Prop where
  dbuf : cellsWf Config.dbufWords s.dbuf = true
  symToByte : cellsWf 256 s.symToByte = true
  selectors : cellsWf Config.maxSelectors s.selectors = true
  groupMtf : cellsWf Config.maxGroups s.groupMtf = true
  mtfSym : cellsWf 256 s.mtfSym = true
  byteCount : cellsWf 256 s.byteCount = true
  minLen : cellsWf Config.maxGroups s.minLen = true
  maxLen : cellsWf Config.maxGroups s.maxLen = true
  limitTab : cellsWf (lenColumns * Config.maxGroups) s.limitTab = true
  baseTab : cellsWf (lenColumns * Config.maxGroups) s.baseTab = true
  permute : cellsWf (Config.maxSymbols * Config.maxGroups) s.permute = true
  lengths : cellsWf Config.maxSymbols s.lengths = true
  temp : cellsWf lenColumns s.temp = true

theorem memWf_iff {s : State} : s.memWf = true ↔ MemoriesWf s := by
  simp only [State.memWf, Bool.and_eq_true, and_assoc]
  constructor
  · rintro ⟨h1, h2, h3, h4, h5, h6, h7, h8, h9, h10, h11, h12, h13⟩
    exact ⟨h1, h2, h3, h4, h5, h6, h7, h8, h9, h10, h11, h12, h13⟩
  · rintro ⟨h1, h2, h3, h4, h5, h6, h7, h8, h9, h10, h11, h12, h13⟩
    exact ⟨h1, h2, h3, h4, h5, h6, h7, h8, h9, h10, h11, h12, h13⟩

theorem tableIx_lt {n g k m : Nat} (hg : g < m) (hk : k < n) : tableIx n g k < n * m := by
  have : n * (g + 1) ≤ n * m := Nat.mul_le_mul_left n hg
  simp only [tableIx]
  rw [Nat.mul_succ] at this
  omega

/-! ### The symbols of each length (R147) -/

theorem mem_symbolsOfLen {ls : List Nat} {l i : Nat} : i ∈ symbolsOfLen ls l ↔ ls[i]? = some l := by
  simp [symbolsOfLen, List.mem_zipIdx_iff_getElem?]

theorem symbolsOfLen_nodup (ls : List Nat) (l : Nat) : (symbolsOfLen ls l).Nodup := by
  have hsub : (symbolsOfLen ls l).Sublist (ls.zipIdx.map Prod.snd) := List.filter_sublist.map _
  rw [List.zipIdx_map_snd] at hsub
  exact hsub.nodup List.nodup_range'

theorem lenRange_nodup (lo hi : Nat) : (lenRange lo hi).Nodup :=
  List.nodup_range.map (add_right_injective lo)

/-- No symbol stands twice in the order of R147, because a symbol has one length. -/
theorem permOrder_nodup (ls : List Nat) (lo hi : Nat) : (permOrder ls lo hi).Nodup := by
  refine List.nodup_flatMap.2 ⟨fun l _ => symbolsOfLen_nodup ls l, (lenRange_nodup lo hi).imp fun hne i h1 h2 => ?_⟩
  rw [mem_symbolsOfLen] at h1 h2
  exact hne (Option.some.inj (h1.symm.trans h2))

theorem permOrder_length_le (ls : List Nat) (lo hi : Nat) : (permOrder ls lo hi).length ≤ ls.length := by
  have hsub : permOrder ls lo hi ⊆ List.range ls.length := by
    intro i hi
    obtain ⟨l, -, hl⟩ := List.mem_flatMap.1 hi
    obtain ⟨hlt, -⟩ := List.getElem?_eq_some_iff.1 (mem_symbolsOfLen.1 hl)
    exact List.mem_range.2 hlt
  simpa using ((permOrder_nodup ls lo hi).subperm hsub).length_le

theorem lengthList_length (s : State) : (lengthList s).length = symCount s := by
  simp [lengthList]

/-! ### Each write stays inside its memory

`{ hs with … }` names the memories written; of the others nothing has changed. -/

theorem resetCore_memoriesWf (s : State) : MemoriesWf (resetCore s) :=
  { memWf_iff.1 reset_memWf with }

section

variable {s : State} (hs : MemoriesWf s)
include hs

theorem goto_memoriesWf (p : Pos) : MemoriesWf (goto p s) :=
  { hs with }

theorem sameButReading_memoriesWf {t : State} (h : sameButReading s t) : MemoriesWf t := by
  unfold sameButReading at h
  rw [h]
  exact { hs with }

theorem sameButField_memoriesWf {t : State} (h : sameButField s t) : MemoriesWf t :=
  sameButReading_memoriesWf hs (sameButField_reading h)

theorem host_memoriesWf (acts : List HostAct) : MemoriesWf { s with host := acts } :=
  { hs with }

theorem driveTurn_memoriesWf : MemoriesWf (driveTurn s) := by
  rw [driveTurn_frame]
  exact { hs with }

theorem gotoNextMap2_memoriesWf (k : Nat) : MemoriesWf (gotoNextMap2 k s) := by
  rw [gotoNextMap2_frame]
  exact { hs with }

theorem gotoNextGroup_memoriesWf : MemoriesWf (gotoNextGroup s) := by
  unfold gotoNextGroup
  split <;> exact { hs with }

theorem setLimit_memoriesWf {g l : Nat} (v : Int) (hg : g < Config.maxGroups) (hl : l < lenColumns) :
    MemoriesWf (setLimit g l v s) :=
  { hs with limitTab := memWrite_wf _ _ _ _ (tableIx_lt hg hl) hs.limitTab }

theorem setBase_memoriesWf {g l : Nat} (v : Int) (hg : g < Config.maxGroups) (hl : l < lenColumns) :
    MemoriesWf (setBase g l v s) :=
  { hs with baseTab := memWrite_wf _ _ _ _ (tableIx_lt hg hl) hs.baseTab }

theorem appendBytes_memoriesWf (n : Nat) (b : Byte) (hn : s.dbufCount.toNat + n ≤ Config.dbufWords) :
    MemoriesWf (appendBytes n b s) :=
  { hs with
    byteCount := memWrite_wf _ _ _ _ b.isLt hs.byteCount
    dbuf := memWriteSeq_wf _ _ _ _ (by simpa using hn) hs.dbuf }

omit hs in
theorem bucketLoop_memoriesWf (k c acc : Nat) (s : State) (hs : MemoriesWf s) (hk : c + k ≤ 256) :
    MemoriesWf (bucketLoop k c acc s) := by
  induction k generalizing c acc s with
  | zero => exact hs
  | succ k ih =>
    exact ih _ _ _ { hs with byteCount := memWrite_wf _ _ _ _ (by omega) hs.byteCount } (by omega)

theorem chainLink_memoriesWf (i : Nat) : (chainLink i s).Ensures MemoriesWf :=
  .guardIx fun hj => Act.ensures_go.2 { hs with
    dbuf := memWrite_wf _ _ _ _ hj hs.dbuf
    byteCount := memWrite_wf _ _ _ _ (wordByte (dbufAt s i)).isLt hs.byteCount }

omit hs in
theorem chainLoop_memoriesWf (k i : Nat) (s : State) (hs : MemoriesWf s) : (chainLoop k i s).Ensures MemoriesWf := by
  induction k generalizing i s with
  | zero => exact hs
  | succ k ih => exact (chainLink_memoriesWf hs i).bind fun u hu => ih (i + 1) u hu

theorem chainCount_memoriesWf : MemoriesWf (chainCount s) :=
  { hs with }

theorem chainByte_memoriesWf : MemoriesWf (chainByte s) :=
  { hs with }

omit hs in
theorem limitBaseLoop_memoriesWf (g k l : Nat) (pp hh : Int) (s : State) (hs : MemoriesWf s)
    (hg : g < Config.maxGroups) (hlo : minLenAt s g < lenColumns) (hhi : maxLenAt s g < lenColumns)
    (hk : l + k < lenColumns) : MemoriesWf (limitBaseLoop g k l pp hh s) := by
  induction k generalizing l pp hh s with
  | zero => exact setBase_memoriesWf (setLimit_memoriesWf hs _ hg hhi) _ hg hlo
  | succ k ih =>
    exact ih _ _ _ _ (setBase_memoriesWf (setLimit_memoriesWf hs _ hg (by omega)) _ hg (by omega)) hlo hhi (by omega)

theorem readBits_memoriesWf (n : Nat) : (readBits n s).Ensures MemoriesWf := by
  rcases readBits_frame n s with ⟨t, e, ht⟩ | e | ⟨t, c, e, ht, -⟩ | ⟨r, e⟩ <;> rw [e]
  · exact sameButField_memoriesWf hs ht
  · trivial
  · exact sameButReading_memoriesWf hs (raiseError_reading _ _ (sameButField_reading ht))
  · trivial

theorem refillOnce_memoriesWf : (refillOnce s).Ensures MemoriesWf := by
  rcases refillOnce_cases s with ⟨-, e⟩ | ⟨b, ts, -, e⟩ | ⟨ts, -, e⟩ | ⟨ts, -, e⟩ <;> rw [e]
  · trivial
  all_goals exact { hs with }

theorem huffLoop_memoriesWf (fuel : Nat) : (huffLoop fuel s).Ensures MemoriesWf := by
  rcases huffLoop_frame fuel s with ⟨t, ht, e | e⟩ | e | ⟨f, e⟩ | ⟨r, e⟩ <;> rw [e]
  · exact sameButReading_memoriesWf hs ht
  · exact sameButReading_memoriesWf hs ht
  all_goals trivial

theorem runFlush_memoriesWf : (runFlush s).Ensures MemoriesWf := by
  rcases runFlush_cases s with ⟨-, e⟩ | ⟨-, -, e⟩ | ⟨-, -, ⟨hn, e⟩ | ⟨-, e⟩⟩ <;> rw [e]
  · exact hs
  · exact { hs with }
  · refine appendBytes_memoriesWf ?_ _ _ hn
    exact { hs with }
  · trivial

theorem literal_memoriesWf (sym : Nat) : (literal sym s).Ensures MemoriesWf := by
  rcases literal_cases sym s with ⟨-, e⟩ | ⟨-, ⟨-, e⟩ | ⟨-, -, e⟩ | ⟨hsym, hn, e⟩⟩ <;> rw [e]
  · exact { hs with }
  · trivial
  · trivial
  · refine appendBytes_memoriesWf ?_ _ _ hn
    exact { hs with mtfSym := moveToFront_wf _ _ _ _ _ hsym hs.mtfSym }

theorem emitByte_memoriesWf (b : Byte) : (emitByte b s).Ensures MemoriesWf := by
  rcases emitByte_cases b s with ⟨-, e⟩ | ⟨xs, -, e⟩ | ⟨xs, -, e⟩ <;> rw [e]
  · trivial
  all_goals exact { hs with }

/-! ### Each operation keeps them -/

theorem execStart_memoriesWf : NextSatisfies MemoriesWf (execStart s) := by
  unfold execStart
  split <;> exact { hs with }

theorem execRead_memoriesWf : NextSatisfies MemoriesWf (execRead s) := by
  unfold execRead
  split
  · dsimp only
    split
    · exact { hs with }
    · exact driveTurn_memoriesWf { hs with }
  · exact { hs with }

theorem execDrain_memoriesWf : NextSatisfies MemoriesWf (execDrain s) := by
  unfold execDrain
  split
  · dsimp only
    split
    · exact { hs with }
    · exact driveTurn_memoriesWf { hs with }
  · exact { hs with }

theorem execRelease_memoriesWf : NextSatisfies MemoriesWf (execRelease s) := by
  unfold execRelease
  split
  · exact { hs with }
  · exact resetCore_memoriesWf s

theorem execLevel_memoriesWf (b : Byte) : NextSatisfies MemoriesWf (execLevel b s) := by
  unfold execLevel
  split <;> exact { hs with }

theorem execRand_memoriesWf (r : BitVec 1) : NextSatisfies MemoriesWf (execRand r s) := by
  unfold execRand
  split <;> exact { hs with }

theorem execMap1_memoriesWf (m : BitVec 16) : NextSatisfies MemoriesWf (execMap1 m s) := by
  refine gotoNextMap2_memoriesWf ?_ 0
  exact { hs with }

theorem execMap2_memoriesWf (u : BitVec 16) : NextSatisfies MemoriesWf (execMap2 u s) := by
  refine .out (.guardIx fun hn => gotoNextMap2_memoriesWf ?_ _) hs
  exact { hs with symToByte := memWriteSeq_wf _ _ _ _ (Nat.le_of_lt_succ hn) hs.symToByte }

theorem execNgroups_memoriesWf (n : BitVec 3) : NextSatisfies MemoriesWf (execNgroups n s) := by
  unfold execNgroups
  dsimp only
  split <;> exact { hs with }

theorem execNsel_memoriesWf (n : BitVec 15) : NextSatisfies MemoriesWf (execNsel n s) := by
  unfold execNsel
  dsimp only
  split
  · exact { hs with }
  · refine .out (.guardIx fun hn => ?_) hs
    have hlen : 0 + ((List.range s.groupCount.toNat).map (BitVec.ofNat 3)).length ≤ Config.maxGroups := by
      simpa using Nat.le_of_lt_succ hn
    exact Act.ensures_go.2 { hs with groupMtf := memWriteSeq_wf _ _ _ _ hlen hs.groupMtf }

theorem execSel_memoriesWf (j : Nat) : NextSatisfies MemoriesWf (execSel j s) := by
  unfold execSel
  split
  · exact { hs with }
  · refine .out (.guardIx fun hj => .guardIx fun hi => ?_) hs
    have hmtf := moveToFront_wf Config.maxGroups s.epoch .groupMtf s.groupMtf j hj hs.groupMtf
    have hsel := memWrite_wf Config.maxSelectors s.selectors s.loopI (groupMtfAt s j) hi hs.selectors
    dsimp only
    split <;> exact { hs with groupMtf := hmtf, selectors := hsel }

theorem execLenDeltaStop_memoriesWf : NextSatisfies MemoriesWf (execLenDeltaStop s) := by
  refine .out (.lenCheck { hs with } (.guardIx fun hi => ?_)) hs
  have hlen := memWrite_wf Config.maxSymbols s.lengths s.loopS s.lenT hi hs.lengths
  dsimp only
  split <;> exact { hs with lengths := hlen }

theorem execLenDeltaInc_memoriesWf : NextSatisfies MemoriesWf (execLenDeltaInc s) :=
  .out (.lenCheck { hs with } (Act.ensures_go.2 { hs with })) hs

theorem execLenDeltaDec_memoriesWf : NextSatisfies MemoriesWf (execLenDeltaDec s) :=
  .out (.lenCheck { hs with } (Act.ensures_go.2 { hs with })) hs

theorem execSymLiteral_memoriesWf (sym : BitVec 9) : NextSatisfies MemoriesWf (execSymLiteral sym s) :=
  .out ((runFlush_memoriesWf hs).bind fun _ hu => (literal_memoriesWf hu _).bind fun _ hv =>
    Act.ensures_go.2 { hv with }) hs

theorem execSymEob_memoriesWf : NextSatisfies MemoriesWf (execSymEob s) :=
  .out ((runFlush_memoriesWf hs).bind fun _ hu => Act.ensures_go.2 { hu with }) hs

theorem execReadWide_memoriesWf (m : Nat) : NextSatisfies MemoriesWf (execReadWide m s) := by
  unfold execReadWide
  split
  · exact .out ((readBits_memoriesWf hs _).bind fun _ hu => readBits_memoriesWf hu _) hs
  · trivial

theorem execMinmax_memoriesWf : NextSatisfies MemoriesWf (execMinmax s) :=
  .out (.tableGuard fun hg _ => Act.ensures_go.2 { hs with
    minLen := memWrite_wf _ _ _ _ hg hs.minLen
    maxLen := memWrite_wf _ _ _ _ hg hs.maxLen }) hs

theorem execPermute_memoriesWf : NextSatisfies MemoriesWf (execPermute s) := by
  refine .out (.tableGuard fun hg hc => Act.ensures_go.2 { hs with
    permute := memWriteSeq_wf _ _ _ _ ?_ hs.permute }) hs
  have hlen := permOrder_length_le (lengthList s) (minLenAt s s.loopG) (maxLenAt s s.loopG)
  have hrow : Config.maxSymbols * (s.loopG + 1) ≤ Config.maxSymbols * Config.maxGroups := Nat.mul_le_mul_left _ hg
  rw [lengthList_length] at hlen
  rw [Nat.mul_succ] at hrow
  rw [List.length_map, tableIx]
  omega

theorem execTemp_memoriesWf : NextSatisfies MemoriesWf (execTemp s) := by
  refine .out (.tableGuard fun _ _ => .lenGuard fun hlo hhi => Act.ensures_go.2 { hs with
    temp := memWriteSeq_wf _ _ _ _ ?_ hs.temp }) hs
  simp only [List.length_map, lenRange, List.length_range]
  omega

theorem execLimitBase_memoriesWf : NextSatisfies MemoriesWf (execLimitBase s) :=
  .out (.tableGuard fun hg _ => .lenGuard fun hlo hhi => .lenIx fun _ => gotoNextGroup_memoriesWf
    (limitBaseLoop_memoriesWf _ _ _ _ _ _ hs hg hlo hhi (by omega))) hs

theorem execSymInit_memoriesWf : NextSatisfies MemoriesWf (execSymInit s) := by
  have hids : ((List.range 256).map (BitVec.ofNat 8)).length = 256 := by rw [List.length_map, List.length_range]
  have hzeros : (List.replicate 256 (0 : BitVec 20)).length = 256 := List.length_replicate
  unfold execSymInit
  -- as variables, so that the writes of these 256 entries are not carried out
  generalize (List.range 256).map (BitVec.ofNat 8) = ids at hids ⊢
  generalize List.replicate 256 (0 : BitVec 20) = zeros at hzeros ⊢
  refine nextSatisfies_next.2 (goto_memoriesWf ?_ _)
  exact { hs with
    mtfSym := memWriteSeq_wf _ _ _ _ (by omega) hs.mtfSym
    byteCount := memWriteSeq_wf _ _ _ _ (by omega) hs.byteCount }

theorem execGroupSwitch_memoriesWf : NextSatisfies MemoriesWf (execGroupSwitch s) := by
  unfold execGroupSwitch
  split
  · split <;> exact { hs with }
  · exact { hs with }

theorem execHuffDecode_memoriesWf : NextSatisfies MemoriesWf (execHuffDecode s) := by
  refine .out (.guardIx fun _ => huffLoop_memoriesWf ?_ _) hs
  exact { hs with }

theorem execOrigCheck_memoriesWf : NextSatisfies MemoriesWf (execOrigCheck s) := by
  unfold execOrigCheck
  split <;> exact { hs with }

theorem execBucketStart_memoriesWf : NextSatisfies MemoriesWf (execBucketStart s) :=
  goto_memoriesWf (bucketLoop_memoriesWf 256 0 0 s hs (by omega)) .chainBuild

theorem execChainBuild_memoriesWf : NextSatisfies MemoriesWf (execChainBuild s) :=
  .out (.guardIx fun _ => (chainLoop_memoriesWf _ _ _ hs).bind fun _ hu => goto_memoriesWf hu .chainSeed) hs

theorem execChainSeed_memoriesWf : NextSatisfies MemoriesWf (execChainSeed s) :=
  .out (.guardIx fun _ => Act.ensures_go.2 { hs with }) hs

theorem execChainStep_memoriesWf : NextSatisfies MemoriesWf (execChainStep s) := by
  unfold execChainStep
  refine .out (.guardIx fun _ => Act.ensures_go.2 (goto_memoriesWf ?_ _)) hs
  split
  · exact chainCount_memoriesWf hs
  · exact chainByte_memoriesWf hs

theorem execRle4_memoriesWf : NextSatisfies MemoriesWf (execRle4 s) := by
  unfold execRle4
  split
  · exact .out (.guardIx fun _ => goto_memoriesWf (chainCount_memoriesWf hs) .drive) hs
  · exact hs

theorem execEmitPend_memoriesWf : NextSatisfies MemoriesWf (execEmitPend s) :=
  .out ((emitByte_memoriesWf hs _).bind fun _ hu => Act.ensures_go.2 { hu with }) hs

theorem execBlockEnd_memoriesWf : NextSatisfies MemoriesWf (execBlockEnd s) := by
  unfold execBlockEnd
  dsimp only
  split <;> exact { hs with }

theorem execEosCheck_memoriesWf (crc : Word) : NextSatisfies MemoriesWf (execEosCheck crc s) := by
  unfold execEosCheck
  dsimp only
  split <;> exact { hs with }

/-- Every operation keeps every memory canonical. -/
theorem exec_memoriesWf (i : Instr) : NextSatisfies MemoriesWf (exec i s) := by
  cases i with
  | nop => exact hs
  | start => exact execStart_memoriesWf hs
  | read => exact execRead_memoriesWf hs
  | drain => exact execDrain_memoriesWf hs
  | release => exact execRelease_memoriesWf hs
  | reset => exact resetCore_memoriesWf s
  | level b => exact execLevel_memoriesWf hs b
  | rand r => exact execRand_memoriesWf hs r
  | map1 m => exact execMap1_memoriesWf hs m
  | map2 u => exact execMap2_memoriesWf hs u
  | ngroups n => exact execNgroups_memoriesWf hs n
  | nsel n => exact execNsel_memoriesWf hs n
  | sel j => exact execSel_memoriesWf hs j
  | lenDeltaStop => exact execLenDeltaStop_memoriesWf hs
  | lenDeltaInc => exact execLenDeltaInc_memoriesWf hs
  | lenDeltaDec => exact execLenDeltaDec_memoriesWf hs
  | symLiteral sym => exact execSymLiteral_memoriesWf hs sym
  | symEob => exact execSymEob_memoriesWf hs
  | readBits n => exact .out (readBits_memoriesWf hs n) hs
  | fetchByte => exact .out (refillOnce_memoriesWf hs) hs
  | readWide m => exact execReadWide_memoriesWf hs m
  | minmax => exact execMinmax_memoriesWf hs
  | permute => exact execPermute_memoriesWf hs
  | temp => exact execTemp_memoriesWf hs
  | limitBase => exact execLimitBase_memoriesWf hs
  | symInit => exact execSymInit_memoriesWf hs
  | groupSwitch => exact execGroupSwitch_memoriesWf hs
  | huffDecode => exact execHuffDecode_memoriesWf hs
  | runFlush => exact .out (runFlush_memoriesWf hs) hs
  | origCheck => exact execOrigCheck_memoriesWf hs
  | bucketStart => exact execBucketStart_memoriesWf hs
  | chainBuild => exact execChainBuild_memoriesWf hs
  | chainSeed => exact execChainSeed_memoriesWf hs
  | chainStep => exact execChainStep_memoriesWf hs
  | rle4 => exact execRle4_memoriesWf hs
  | emitPend => exact execEmitPend_memoriesWf hs
  | emit b => exact .out (emitByte_memoriesWf hs b) hs
  | blockEnd => exact execBlockEnd_memoriesWf hs
  | eosCheck crc => exact execEosCheck_memoriesWf hs crc
  | drive => exact driveTurn_memoriesWf hs
  | _ => exact { hs with }

end

theorem step_memoriesWf {s t : State} (hs : MemoriesWf s) (h : step s = .next t) : MemoriesWf t := by
  rcases step_cases h with ⟨i, u, hi, he, hu⟩ | ⟨v, rest, -, he⟩ | ⟨rest, -, he⟩ | ht
  · have hwf : MemoriesWf u := by
      rcases hu with rfl | ⟨rest, -, rfl⟩
      · exact hs
      · exact host_memoriesWf hs rest
    exact runWhole_induct (fun j _ _ _ hw e => (exec_memoriesWf hw j).of_next e) hi hwf he
  · exact (exec_memoriesWf (host_memoriesWf hs rest) _).of_next he
  · exact (exec_memoriesWf (host_memoriesWf hs rest) _).of_next he
  · rw [ht]
    exact { hs with }

/-- Settles O7: every write of every operation is behind the guard of its memory or inside a constant range. -/
theorem memoriesStayCanonical : Obligations.MemoriesStayCanonical := by
  unfold Obligations.MemoriesStayCanonical
  intro s t hs h
  exact memWf_iff.2 (step_memoriesWf (memWf_iff.1 hs) h)

end Sys2Proof.Machine

/-! ## ReadBits and READ_WIDE take the next bits of the stream (R63, R64, R121, R125) -/

namespace Sys2Proof.Machine

/-! ### Bytes behind the reader -/

theorem bytesVal_append (xs ys : List Byte) : bytesVal (xs ++ ys) = bytesVal xs * 256 ^ ys.length + bytesVal ys := by
  have hfold (zs : List Byte) (a : Nat) :
      zs.foldl (fun a b => a * 256 + b.toNat) a = a * 256 ^ zs.length + bytesVal zs := by
    induction zs generalizing a with
    | nil => simp [bytesVal]
    | cons z zs ih =>
      simp only [bytesVal, List.foldl_cons, List.length_cons]
      rw [ih, ih (0 * 256 + z.toNat)]
      ring
  rw [bytesVal, List.foldl_append, hfold ys]
  rfl

theorem unreadVal_append (s : State) (xs ys : List Byte) :
    unreadVal s (xs ++ ys) = unreadVal s xs * 256 ^ ys.length + bytesVal ys := by
  simp only [unreadVal, bytesVal_append, List.length_append, pow_add]
  ring

@[simp] theorem unreadVal_nil (s : State) : unreadVal s [] = s.acc.toNat % 2 ^ s.accN.toNat := by
  simp [unreadVal, bytesVal]

/-- The reader after one token, a byte (R121, R122). -/
def takeByte (b : Byte) (ts : List Token) (s : State) : State :=
  refillAcc b { s with inPort := ts, inBytes := s.inBytes + 1 }

theorem refillOnce_byte {s : State} {b : Byte} {ts : List Token} (h : s.inPort = .byte b :: ts) :
    refillOnce s = .go (takeByte b ts s) := by
  simp [refillOnce, fetchToken, h, takeByte]

theorem refillOnce_empty {s : State} (h : s.inPort = []) : refillOnce s = .hold := by
  simp [refillOnce, fetchToken, h]

theorem takeByte_accN {s : State} (hn : s.accN.toNat < 24) (b : Byte) (ts : List Token) :
    (takeByte b ts s).accN.toNat = s.accN.toNat + 8 := by
  simp only [takeByte, refillAcc_accN]
  bv_omega

theorem takeByte_frame (b : Byte) (ts : List Token) (s : State) : sameButReader s (takeByte b ts s) := rfl

theorem takeByte_inBytes (b : Byte) (ts : List Token) (s : State) : (takeByte b ts s).inBytes = s.inBytes + 1 := rfl

theorem takeByte_acc (b : Byte) (ts : List Token) (s : State) :
    (takeByte b ts s).acc.toNat = 2 ^ 8 * (s.acc.toNat % 2 ^ 24) + b.toNat := by
  have hb : b.toNat % 2 ^ 32 = b.toNat := Nat.mod_eq_of_lt (by have := b.isLt; omega)
  have hshift : s.acc.toNat * 2 ^ 8 % 2 ^ 32 = 2 ^ 8 * (s.acc.toNat % 2 ^ 24) := by omega
  rw [takeByte, refillAcc_acc, BitVec.toNat_or, BitVec.toNat_shiftLeft, BitVec.toNat_setWidth, hb,
    Nat.shiftLeft_eq, hshift, Nat.two_pow_add_eq_or_of_lt b.isLt]

theorem takeByte_unreadVal_nil {s : State} (hn : s.accN.toNat < 24) (b : Byte) (ts : List Token) :
    unreadVal (takeByte b ts s) [] = unreadVal s [b] := by
  have hlow : s.acc.toNat % 2 ^ 24 % 2 ^ s.accN.toNat = s.acc.toNat % 2 ^ s.accN.toNat :=
    Nat.mod_mod_of_dvd _ (pow_dvd_pow 2 (by omega))
  rw [unreadVal_nil, takeByte_acc, takeByte_accN hn, Nat.add_comm _ 8, pow_add, Nat.mod_mul,
    Nat.mul_add_mod, Nat.mod_eq_of_lt b.isLt, Nat.mul_add_div (by decide), Nat.div_eq_of_lt b.isLt, Nat.add_zero, hlow]
  simp only [unreadVal, bytesVal, List.foldl_cons, List.foldl_nil, List.length_singleton]
  omega

/-- A byte taken is the first of the bytes behind the unread bits before. -/
theorem takeByte_unreadVal {s : State} (hn : s.accN.toNat < 24) (b : Byte) (ts : List Token) (bs : List Byte) :
    unreadVal (takeByte b ts s) bs = unreadVal s (b :: bs) :=
  calc
    unreadVal (takeByte b ts s) bs = unreadVal (takeByte b ts s) [] * 256 ^ bs.length + bytesVal bs :=
      unreadVal_append _ [] bs
    _ = unreadVal s [b] * 256 ^ bs.length + bytesVal bs := by rw [takeByte_unreadVal_nil hn]
    _ = unreadVal s (b :: bs) := (unreadVal_append s [b] bs).symm

/-! ### The refill loop -/

/-- `t` is `s` with the bytes `bs`, and no other token, shifted into the reader; `rest` is still presented. -/
structure Refilled (s : State) (bs : List Byte) (rest : List Token) (t : State) : Prop where
  accN : t.accN.toNat = s.accN.toNat + 8 * bs.length
  unread : unreadVal t [] = unreadVal s bs
  inPort : t.inPort = rest
  inBytes : t.inBytes = s.inBytes + BitVec.ofNat 32 bs.length
  frame : sameButReader s t

/-- The refill loop takes just the bytes that `n` bits need. -/
theorem refill_bytes {n fuel : Nat} {s : State} {bs : List Byte} {rest : List Token} (hn : n ≤ 24)
    (hp : s.inPort = bs.map Token.byte ++ rest) (henough : n ≤ s.accN.toNat + 8 * bs.length)
    (hneeded : bs ≠ [] → s.accN.toNat + 8 * (bs.length - 1) < n) (hfuel : bs.length ≤ fuel) :
    ∃ t, refill n fuel s = .go t ∧ Refilled s bs rest t := by
  induction bs generalizing fuel s with
  | nil =>
    refine ⟨s, ?_, by simp, rfl, hp, by simp, rfl⟩
    cases fuel with
    | zero => rfl
    | succ fuel => exact if_neg (by simpa using henough)
  | cons b bs ih =>
    obtain ⟨fuel, rfl⟩ : ∃ k, fuel = k + 1 := ⟨fuel - 1, by simp at hfuel; omega⟩
    simp only [List.length_cons] at henough hneeded hfuel
    have hlow : s.accN.toNat < n := by have := hneeded (by simp); omega
    have haccN := takeByte_accN (s := s) (by omega) b (bs.map .byte ++ rest)
    obtain ⟨t, ht, hr⟩ := ih (fuel := fuel) (s := takeByte b (bs.map .byte ++ rest) s) rfl (by omega)
      (fun hne => by have := List.length_pos_iff.2 hne; have := hneeded (by simp); omega) (by omega)
    refine ⟨t, ?_, ?_⟩
    · rw [refill, if_pos hlow, refillOnce_byte (by simpa using hp), Act.bind_go, ht]
    · exact {
        accN := by rw [hr.accN, haccN, List.length_cons]; omega
        unread := hr.unread.trans (takeByte_unreadVal (by omega) b _ bs)
        inPort := hr.inPort
        inBytes := by
          rw [hr.inBytes, takeByte_inBytes, List.length_cons]
          bv_omega
        frame := sameButReader_trans (takeByte_frame b _ s) hr.frame }

/-- With too few bytes presented the refill loop holds. -/
theorem refill_hold {n fuel : Nat} {s : State} {bs : List Byte} (hn : n ≤ 24)
    (hp : s.inPort = bs.map Token.byte) (hfew : s.accN.toNat + 8 * bs.length < n) (hfuel : bs.length < fuel) :
    refill n fuel s = .hold := by
  induction bs generalizing fuel s with
  | nil =>
    obtain ⟨fuel, rfl⟩ : ∃ k, fuel = k + 1 := ⟨fuel - 1, by omega⟩
    rw [refill, if_pos (by simpa using hfew), refillOnce_empty hp, Act.bind_hold]
  | cons b bs ih =>
    obtain ⟨fuel, rfl⟩ : ∃ k, fuel = k + 1 := ⟨fuel - 1, by omega⟩
    simp only [List.length_cons] at hfew hfuel
    have haccN := takeByte_accN (s := s) (by omega) b (bs.map .byte)
    rw [refill, if_pos (by omega), refillOnce_byte hp, Act.bind_go]
    exact ih rfl (by omega) (by omega)

/-! ### One read -/

/-- `t` is `s` after the next `n` bits of the stream have been appended to the field, with the bytes `bs` taken for them and
the tokens `rest` still presented. -/
structure BitsRead (s : State) (n : Nat) (bs : List Byte) (rest : List Token) (t : State) : Prop where
  fLen : t.fLen = s.fLen + n
  fVal : t.fVal = s.fVal * 2 ^ n + unreadVal s bs / 2 ^ (s.accN.toNat + 8 * bs.length - n)
  accN : t.accN.toNat = s.accN.toNat + 8 * bs.length - n
  unread : unreadVal t [] = unreadVal s bs % 2 ^ (s.accN.toNat + 8 * bs.length - n)
  inPort : t.inPort = rest
  inBytes : t.inBytes = s.inBytes + BitVec.ofNat 32 bs.length
  frame : sameButField s t

/-- The bits leave the reader at its upper end: what is left is the remainder, what is read the quotient. -/
theorem takeBits_of_refilled {n : Nat} {s u : State} {bs : List Byte} {rest : List Token} (hn : n ≤ 24)
    (h : Refilled s bs rest u) (henough : n ≤ s.accN.toNat + 8 * bs.length) : BitsRead s n bs rest (takeBits n u) := by
  have hle : n ≤ u.accN.toNat := h.accN ▸ henough
  have haccN : (takeBits n u).accN.toNat = u.accN.toNat - n := by
    rw [takeBits_accN]
    bv_omega
  have hbits : accBits n u = unreadVal u [] / 2 ^ (u.accN.toNat - n) := by
    have hsplit : 2 ^ u.accN.toNat = 2 ^ (u.accN.toNat - n) * 2 ^ n := by rw [← pow_add]; congr 1; omega
    rw [accBits, unreadVal_nil, hsplit, Nat.mod_mul_right_div_self, Nat.shiftRight_eq_div_pow]
  have hframe : u = { s with inPort := u.inPort, inBytes := u.inBytes, acc := u.acc, accN := u.accN } := h.frame
  exact {
    fLen := by rw [takeBits_fLen, hframe]
    fVal := by rw [takeBits_fVal, hbits, h.unread, h.accN, hframe]
    accN := by rw [haccN, h.accN]
    unread := by
      rw [unreadVal_nil, takeBits_acc, haccN, ← h.unread, ← h.accN, unreadVal_nil,
        Nat.mod_mod_of_dvd _ (pow_dvd_pow 2 (Nat.sub_le _ _))]
    inPort := h.inPort
    inBytes := h.inBytes
    frame := by rw [sameButField, hframe]; rfl }

/-- `ReadBits(n)` with the bytes it needs presented (R121). -/
theorem readBits_bytes {n : Nat} {s : State} {bs : List Byte} {rest : List Token} (h1 : 1 ≤ n) (hn : n ≤ 24)
    (hp : s.inPort = bs.map Token.byte ++ rest) (henough : n ≤ s.accN.toNat + 8 * bs.length)
    (hneeded : bs ≠ [] → s.accN.toNat + 8 * (bs.length - 1) < n) :
    ∃ t, readBits n s = .go t ∧ BitsRead s n bs rest t := by
  have hfuel : bs.length ≤ 3 := by
    by_contra hc
    have := hneeded (by rintro rfl; simp at hc)
    omega
  obtain ⟨u, hu, hr⟩ := refill_bytes hn hp henough hneeded hfuel
  refine ⟨takeBits n u, ?_, takeBits_of_refilled hn hr henough⟩
  rw [readBits, if_pos ⟨h1, hn⟩, hu, Act.bind_go]

/-- `ReadBits(n)` with too few bytes presented (R12). -/
theorem readBits_hold {n : Nat} {s : State} {bs : List Byte} (h1 : 1 ≤ n) (hn : n ≤ 24)
    (hp : s.inPort = bs.map Token.byte) (hfew : s.accN.toNat + 8 * bs.length < n) : readBits n s = .hold := by
  rw [readBits, if_pos ⟨h1, hn⟩, refill_hold hn hp hfew (by omega), Act.bind_hold]

theorem readBits_refuse {n : Nat} (s : State) (h : n < 1 ∨ 24 < n) : readBits n s = .refuse (.readWidth n) := by
  rw [readBits, if_neg]
  simp only [Config.maxRead]
  omega

/-- Settles O30: the refill loop takes the bytes, and the upper bits leave the reader. -/
theorem readBitsTakesTheNextBits : Obligations.ReadBitsTakesTheNextBits := by
  unfold Obligations.ReadBitsTakesTheNextBits
  intro s n bs rest
  refine ⟨fun h1 hn hp henough hneeded => ?_, fun h1 hn hp hfew => ?_, fun hn => ?_⟩
  · obtain ⟨t, ht, h⟩ := readBits_bytes h1 hn hp henough hneeded
    exact ⟨t, congrArg (Act.out · s) ht, h.fLen, h.fVal, h.accN, h.unread, h.inPort, h.inBytes, h.frame⟩
  · exact congrArg (Act.out · s) (readBits_hold h1 hn hp hfew)
  · exact congrArg (Act.out · s) (readBits_refuse s hn)

/-! ### Two reads -/

/-- The bytes that a read of `n` bits takes, of those presented. -/
theorem exists_bytes_needed {n k : Nat} {bs : List Byte} (henough : n ≤ k + 8 * bs.length) :
    ∃ xs ys, bs = xs ++ ys ∧ n ≤ k + 8 * xs.length ∧ (xs ≠ [] → k + 8 * (xs.length - 1) < n) := by
  have hlen : (bs.take ((n - k + 7) / 8)).length = (n - k + 7) / 8 := List.length_take_of_le (by omega)
  refine ⟨bs.take ((n - k + 7) / 8), bs.drop ((n - k + 7) / 8), (List.take_append_drop _ _).symm, by omega, fun hne => ?_⟩
  have := List.length_pos_iff.2 hne
  omega

/-- The bits left by the first read are the remainder of the bits before it, so the second read goes on where it ended. -/
theorem BitsRead.unreadVal_append {s u : State} {n m : Nat} {xs ys : List Byte} {rest : List Token}
    (h : BitsRead s n xs rest u) (hm : m ≤ u.accN.toNat + 8 * ys.length) :
    unreadVal s (xs ++ ys) = 2 ^ (u.accN.toNat + 8 * ys.length - m) * (unreadVal s xs / 2 ^ u.accN.toNat * 2 ^ m) +
      unreadVal u ys := by
  have hu : unreadVal u ys = unreadVal s xs % 2 ^ u.accN.toNat * 256 ^ ys.length + bytesVal ys := by
    rw [h.accN, ← h.unread]
    exact Machine.unreadVal_append u [] ys
  have hpow : 2 ^ (u.accN.toNat + 8 * ys.length - m) * 2 ^ m = 2 ^ u.accN.toNat * 256 ^ ys.length := by
    rw [← pow_add, Nat.sub_add_cancel hm, pow_add, pow_mul]
    norm_num
  calc
    unreadVal s (xs ++ ys) = unreadVal s xs * 256 ^ ys.length + bytesVal ys := Machine.unreadVal_append s xs ys
    _ = (2 ^ u.accN.toNat * (unreadVal s xs / 2 ^ u.accN.toNat) + unreadVal s xs % 2 ^ u.accN.toNat) * 256 ^ ys.length +
          bytesVal ys := by rw [Nat.div_add_mod]
    _ = 2 ^ u.accN.toNat * 256 ^ ys.length * (unreadVal s xs / 2 ^ u.accN.toNat) + unreadVal u ys := by rw [hu]; ring
    _ = _ := by rw [← hpow]; ring

/-- Two reads are one read of both widths. -/
theorem BitsRead.trans {s u t : State} {n m : Nat} {xs ys : List Byte} {rest rest' : List Token}
    (h1 : BitsRead s n xs rest u) (h2 : BitsRead u m ys rest' t) (hn : n ≤ s.accN.toNat + 8 * xs.length)
    (hm : m ≤ u.accN.toNat + 8 * ys.length) : BitsRead s (n + m) (xs ++ ys) rest' t := by
  have hleft : s.accN.toNat + 8 * (xs ++ ys).length - (n + m) = u.accN.toNat + 8 * ys.length - m := by
    rw [h1.accN, List.length_append]
    omega
  exact {
    fLen := by rw [h2.fLen, h1.fLen, Nat.add_assoc]
    fVal := by
      rw [hleft, h1.unreadVal_append hm, Nat.mul_add_div (Nat.two_pow_pos _), h2.fVal, h1.fVal, ← h1.accN]
      ring
    accN := by rw [hleft, h2.accN]
    unread := by rw [hleft, h1.unreadVal_append hm, Nat.mul_add_mod, h2.unread]
    inPort := h2.inPort
    inBytes := by
      rw [h2.inBytes, h1.inBytes, List.length_append]
      bv_omega
    frame := sameButField_trans h1.frame h2.frame }

/-- A field of `2 * n` bits read in two halves, with the bytes it needs presented (R125). -/
theorem readBits_twice {n : Nat} {s : State} {bs : List Byte} {rest : List Token} (h1 : 1 ≤ n) (hn : n ≤ 24)
    (hp : s.inPort = bs.map Token.byte ++ rest) (henough : n + n ≤ s.accN.toNat + 8 * bs.length)
    (hneeded : bs ≠ [] → s.accN.toNat + 8 * (bs.length - 1) < n + n) :
    ∃ u t, readBits n s = .go u ∧ readBits n u = .go t ∧ BitsRead s (n + n) bs rest t := by
  obtain ⟨xs, ys, rfl, hx, hxneeded⟩ := exists_bytes_needed (show n ≤ s.accN.toNat + 8 * bs.length by omega)
  rw [List.length_append] at henough hneeded
  obtain ⟨u, hu, hur⟩ := readBits_bytes (rest := ys.map .byte ++ rest) h1 hn (by simpa using hp) hx hxneeded
  have hacc := hur.accN
  have hy : n ≤ u.accN.toNat + 8 * ys.length := by omega
  obtain ⟨t, ht, htr⟩ := readBits_bytes (s := u) h1 hn hur.inPort hy fun hne => by
    have := List.length_pos_iff.2 hne
    have := hneeded (by simp [hne])
    omega
  exact ⟨u, t, hu, ht, hur.trans htr hx hy⟩

/-- With too few bytes for both halves the field is left unread, whichever half waits (R12). -/
theorem readBits_twice_hold {n : Nat} {s : State} {bs : List Byte} (h1 : 1 ≤ n) (hn : n ≤ 24)
    (hp : s.inPort = bs.map Token.byte) (hfew : s.accN.toNat + 8 * bs.length < n + n) :
    (readBits n s).bind (readBits n) = .hold := by
  by_cases hfirst : n ≤ s.accN.toNat + 8 * bs.length
  · obtain ⟨xs, ys, rfl, hx, hxneeded⟩ := exists_bytes_needed hfirst
    obtain ⟨u, hu, hur⟩ := readBits_bytes h1 hn (by simpa using hp) hx hxneeded
    have hacc := hur.accN
    rw [List.length_append] at hfew
    rw [hu, Act.bind_go, readBits_hold h1 hn hur.inPort (by omega)]
  · rw [readBits_hold h1 hn hp (by omega), Act.bind_hold]

theorem execReadWide_eq {m : Nat} (hm : m = 32 ∨ m = 48) (s : State) :
    execReadWide m s = ((readBits (m / 2) s).bind (readBits (m / 2))).out s :=
  if_pos hm

/-- Settles O31: the two halves are the quotients of one division each, and compose to one read. -/
theorem wideReadEqualsOneRead : Obligations.WideReadEqualsOneRead := by
  unfold Obligations.WideReadEqualsOneRead
  intro s m bs rest
  have hhalf (hm : m = 32 ∨ m = 48) : m = m / 2 + m / 2 ∧ 1 ≤ m / 2 ∧ m / 2 ≤ 24 := by omega
  refine ⟨fun hm hp henough hneeded => ?_, fun hm hp hfew => ?_, fun h32 h48 => ?_⟩
  · obtain ⟨h2, h1, h24⟩ := hhalf hm
    obtain ⟨u, t, hu, ht, h⟩ := readBits_twice h1 h24 hp (h2 ▸ henough) fun _ => h2 ▸ hneeded
    have hfirst : exec (.readBits (m / 2)) s = .next u := congrArg (Act.out · s) hu
    have hsecond : exec (.readBits (m / 2)) u = .next t := congrArg (Act.out · u) ht
    rw [← h2] at h
    refine ⟨t, ?_, by simp only [execAll, hfirst, hsecond], h.fLen, h.fVal, h.accN, h.unread, h.inPort, h.inBytes, h.frame⟩
    calc
      exec (.readWide m) s = execReadWide m s := rfl
      _ = .next t := by rw [execReadWide_eq hm, hu, Act.bind_go, ht, Act.out_go]
  · obtain ⟨h2, h1, h24⟩ := hhalf hm
    calc
      exec (.readWide m) s = execReadWide m s := rfl
      _ = .next s := by rw [execReadWide_eq hm, readBits_twice_hold h1 h24 hp (h2 ▸ hfew), Act.out_hold]
  · exact if_neg (by omega)

end Sys2Proof.Machine

/-! ## A step runs the decoded operation (R12, R55, R206, R240) -/

namespace Sys2Proof.Machine

/-! ### The next operation at each place -/

theorem nextInstr_idle {s : State} (h : s.pos = .idle) : nextInstr s = none := by
  simp only [nextInstr, h]

/-- The places at which one operation is run, whatever the state holds. -/
theorem nextInstr_of_place {s : State} {p : Pos} {i : Instr} (h : s.pos = p)
    (hp : (p, i) ∈ [(Pos.minmax, Instr.minmax), (.permute, .permute), (.temp, .temp), (.limitBase, .limitBase),
        (.symInit, .symInit), (.groupSwitch, .groupSwitch), (.origCheck, .origCheck), (.bucketStart, .bucketStart),
        (.chainBuild, .chainBuild), (.chainSeed, .chainSeed), (.drive, .drive), (.blockEnd, .blockEnd),
        (.emitPend, .emitPend)]) : nextInstr s = some i := by
  simp only [List.mem_cons, Prod.mk.injEq, List.not_mem_nil, or_false] at hp
  rcases hp with ⟨rfl, rfl⟩ | ⟨rfl, rfl⟩ | ⟨rfl, rfl⟩ | ⟨rfl, rfl⟩ | ⟨rfl, rfl⟩ | ⟨rfl, rfl⟩ | ⟨rfl, rfl⟩ |
    ⟨rfl, rfl⟩ | ⟨rfl, rfl⟩ | ⟨rfl, rfl⟩ | ⟨rfl, rfl⟩ | ⟨rfl, rfl⟩ | ⟨rfl, rfl⟩ <;> simp only [nextInstr, h]

/-- At the places of R86, and for a codeword inside the tables, the next operation is the decoder's. -/
theorem nextInstr_element {s : State}
    (hp : s.pos ∈ [.sig, .level, .magic, .crcData, .crcEos, .rand, .origptr, .map1, .map2, .ngroups, .nsel, .sel,
      .lenStart, .lenDelta, .huff])
    (hin : s.pos = .huff → s.curGroup.toNat < 6 ∧ s.fLen ≤ 20) : nextInstr s = some (nextElement s) := by
  simp only [List.mem_cons, List.not_mem_nil, or_false] at hp
  rcases hp with h | h | h | h | h | h | h | h | h | h | h | h | h | h | h
  case inr.inr.inr.inr.inr.inr.inr.inr.inr.inr.inr.inr.inr.inr =>
    obtain ⟨hg, hl⟩ := hin h
    simp only [nextInstr, h, nextCodeword_inside hg hl]
  all_goals simp only [nextInstr, h]

/-! ### The core's turn -/

/-- The core has the turn: the host does nothing, or leaves the turn to it. `u` is the core's state then. -/
def CoreTurnFrom (s u : State) : Prop :=
  (s.host = [] ∧ u = s) ∨ ∃ rest, s.host = .core :: rest ∧ u = { s with host := rest }

theorem nextTurn_core {s u : State} (h : CoreTurnFrom s u) : nextTurn s = coreTurn u := by
  rcases h with ⟨hh, rfl⟩ | ⟨rest, hh, rfl⟩ <;> simp only [nextTurn, hh, hostTurn]

theorem step_core {s u : State} {i : Instr} (h : CoreTurnFrom s u) (hi : nextInstr u = some i) :
    step s = runWhole i u :=
  step_of_run (by rw [nextTurn_core h, coreTurn, hi])

/-- Behind every operation but the first three of R206 a step runs nothing more. -/
theorem step_core_alone {s u : State} {i : Instr} (h : CoreTurnFrom s u) (hi : nextInstr u = some i)
    (hne : i ≠ .origCheck ∧ i ≠ .bucketStart ∧ i ≠ .chainBuild) : step s = exec i u := by
  rw [step_core h hi, runWhole_eq_exec hne]

theorem step_command {s : State} {rest : List HostAct} {v : Word} (h : s.host = .write 0 4 v :: rest) :
    step s = exec (decodeCmd v) { s with host := rest } := by
  rw [← runWhole_decodeCmd]
  exact step_of_run (by simp [nextTurn, h, hostTurn, regAccessOk])

theorem step_reset {s : State} {rest : List HostAct} (h : s.host = .reset :: rest) :
    step s = exec .reset { s with host := rest } := by
  rw [← runWhole_eq_exec (by simp)]
  exact step_of_run (by simp [nextTurn, h, hostTurn])

theorem step_idle {s : State} (hh : s.host = []) (hp : s.pos = .idle) : step s = .next s := by
  rw [step_host_silent hh, nextInstr_idle hp]

/-! ### The inverse BWT in one step (R206) -/

theorem execOrigCheck_error {s : State} (h : s.dbufCount.toNat ≤ s.origPtr.toNat) :
    exec .origCheck s = .next (raiseError .dataError .origchk s) :=
  if_pos h

theorem execOrigCheck_ok {s : State} (h : s.origPtr.toNat < s.dbufCount.toNat) :
    exec .origCheck s = .next (goto .bucketStart s) :=
  if_neg (by omega)

theorem execBucketStart_pos {s t : State} (h : exec .bucketStart s = .next t) : t.pos = .chainBuild := by
  obtain rfl := Host.Outcome.next.inj h
  exact goto_pos _ _

theorem execChainBuild_pos {s t : State} (h : exec .chainBuild s = .next t) : t.pos = .chainSeed := by
  have hexec : execChainBuild s = .next t := h
  rw [execChainBuild, guardIx] at hexec
  split at hexec
  · rcases chainLoop_cases s.dbufCount.toNat 0 s with ⟨u, hu, -⟩ | ⟨f, hf⟩
    · rw [hu] at hexec
      obtain rfl := Host.Outcome.next.inj hexec
      exact goto_pos _ _
    · rw [hf] at hexec
      cases hexec
  · cases hexec

/-- The step goes on behind an operation of R206 with the one that its next state is at. -/
theorem runWhole_origCheck {s a : State} (h : exec .origCheck s = .next a) (hp : a.pos = .bucketStart) :
    runWhole .origCheck s = runWhole .bucketStart a := by
  rw [runWhole_eq (.inl ⟨rfl, rfl⟩), h]
  exact if_pos (nextInstr_of_place hp (by simp))

theorem runWhole_bucketStart {s b : State} (h : exec .bucketStart s = .next b) :
    runWhole .bucketStart s = runWhole .chainBuild b := by
  rw [runWhole_eq (.inr (.inl ⟨rfl, rfl⟩)), h]
  exact if_pos (nextInstr_of_place (execBucketStart_pos h) (by simp))

theorem runWhole_chainBuild {s c : State} (h : exec .chainBuild s = .next c) :
    runWhole .chainBuild s = exec .chainSeed c := by
  rw [runWhole_eq (.inr (.inr ⟨rfl, rfl⟩)), h, ← runWhole_eq_exec (by simp)]
  exact if_pos (nextInstr_of_place (execChainBuild_pos h) (by simp))

theorem runWhole_origCheck_error {s : State} (h : s.dbufCount.toNat ≤ s.origPtr.toNat) :
    runWhole .origCheck s = exec .origCheck s := by
  rw [runWhole_eq (.inl ⟨rfl, rfl⟩), execOrigCheck_error h]
  exact if_neg (by rw [nextInstr_idle (raiseError_pos _ _ _)]; simp)

/-- Settles O5: the cases of a step, each by its own lemma. -/
theorem stepRunsTheDecodedOperation : Obligations.StepRunsTheDecodedOperation := by
  unfold Obligations.StepRunsTheDecodedOperation
  refine ⟨fun s => ⟨step_idle, fun _ _ => step_command, fun _ => step_reset⟩, fun s u hu => ⟨?_, ?_, ?_⟩, fun s =>
    ⟨fun hp hin => ?_, fun hp hout => ?_, fun hp => ?_, nextInstr_idle, fun hp => ?_, fun hp => ?_, fun p i hpi hp => ?_⟩⟩
  · exact fun i hi h1 h2 h3 => step_core_alone hu hi ⟨h1, h2, h3⟩
  · intro hp herr
    rw [step_core (i := .origCheck) hu (nextInstr_of_place hp (by simp)), runWhole_origCheck_error herr]
  · intro a b c d hp hok ha hb hc hd
    have hpa : a.pos = .bucketStart := by
      obtain rfl := Host.Outcome.next.inj ((execOrigCheck_ok hok).symm.trans ha)
      exact goto_pos _ _
    calc
      step s = runWhole .origCheck u := step_core hu (nextInstr_of_place hp (by simp))
      _ = runWhole .bucketStart a := runWhole_origCheck ha hpa
      _ = runWhole .chainBuild b := runWhole_bucketStart hb
      _ = exec .chainSeed c := runWhole_chainBuild hc
      _ = .next d := hd
  · rw [nextInstr_element hp hin]
    refine ⟨fun i h => ?_, fun n h => ?_, fun m h => ?_, fun c st h => ?_⟩ <;> rw [nextElement, h] <;> rfl
  · simp only [nextInstr, hp, nextCodeword_outside hout]
  · simp only [nextInstr, hp, nextSymbol]
  · simp only [nextInstr, hp]
  · simp only [nextInstr, hp]
  · exact nextInstr_of_place hp hpi

/-! ## A held core is unchanged (R12) -/

/-- Settles O19: FETCH_BYTE without a token and EMIT_PEND without an answer hold, and a step is nothing more. -/
theorem heldCoreIsUnchanged : Obligations.HeldCoreIsUnchanged := by
  unfold Obligations.HeldCoreIsUnchanged
  rintro s hh (⟨hi, hin⟩ | ⟨hp, hans⟩)
  · calc
      step s = exec .fetchByte s := step_core_alone (.inl ⟨hh, rfl⟩) hi (by simp)
      _ = Act.hold.out s := congrArg (Act.out · s) (refillOnce_empty hin)
      _ = .next s := Act.out_hold s
  · have hhold : emitByte s.pendByte s = .hold := by simp only [emitByte, hans]
    calc
      step s = exec .emitPend s := step_core_alone (.inl ⟨hh, rfl⟩) (nextInstr_of_place hp (by simp)) (by simp)
      _ = execEmitPend s := rfl
      _ = .next s := by rw [execEmitPend, hhold, Act.bind_hold, Act.out_hold]

end Sys2Proof.Machine

/-! ## What one operation writes, and where it ends (R12, R55, R86, R280) -/

namespace Sys2Proof.Machine

/-! ### The parts of the state that an operation writes -/

/-- The parts of the state that few operations write. -/
inductive Part where
  /-- LEN -/
  | len
  /-- the tokens presented -/
  | tokens
  /-- the bytes delivered and the answers left -/
  | output
  /-- W_RUN -/
  | run
  /-- LEVEL and DBUF_SIZE -/
  | size
  /-- DBUF_COUNT -/
  | fill
  /-- DBUF and BYTE_COUNT, and the draw of their unwritten entries -/
  | words
  deriving DecidableEq

/-- The operations that write one of these parts. -/
def writes : Instr → List Part
  | .start => [.size, .fill]
  | .release | .reset => [.len, .run, .size, .fill, .words]
  | .level _ => [.size]
  | .fetchByte | .readBits _ | .readWide _ | .huffDecode => [.tokens]
  | .symInit | .runFlush | .symLiteral _ | .symEob => [.fill, .words]
  | .bucketStart | .chainBuild => [.words]
  | .chainSeed | .chainStep | .rle4 => [.run]
  | .emitPend | .emit _ => [.output]
  | .nop | .read | .drain | .reserved5 | .reserved6 | .reserved7 | .sig | .magicData | .magicEos | .crcDataBlock _
  | .crcEndOfStream _ | .rand _ | .origptr _ | .map1 _ | .map2 _ | .ngroups _ | .nsel _ | .sel _ | .lenStart _
  | .lenDeltaStop | .lenDeltaInc | .lenDeltaDec | .symRunA | .symRunB | .minmax | .permute | .temp | .limitBase
  | .groupSwitch | .origCheck | .blockEnd | .eosCheck _ | .drive | .errorEntry _ _ => []

/-- `s` with the part `q` taken from `t`. -/
def copyPart (q : Part) (t s : State) : State :=
  match q with
  | .len => { s with len := t.len }
  | .tokens => { s with inPort := t.inPort }
  | .output => { s with out := t.out, outAns := t.outAns }
  | .run => { s with wRun := t.wRun }
  | .size => { s with level := t.level, dbufSize := t.dbufSize }
  | .fill => { s with dbufCount := t.dbufCount }
  | .words => { s with dbuf := t.dbuf, byteCount := t.byteCount, epoch := t.epoch }

/-- `s` with some parts taken from `t`. -/
def copyParts (qs : List Part) (t s : State) : State := qs.foldl (fun u q => copyPart q t u) s

/-- `s` with every part taken from `t`. -/
def copyAll (t s : State) : State :=
  { s with
    len := t.len, inPort := t.inPort, out := t.out, outAns := t.outAns, wRun := t.wRun, level := t.level
    dbufSize := t.dbufSize, dbufCount := t.dbufCount, dbuf := t.dbuf, byteCount := t.byteCount, epoch := t.epoch }

/-- Between `s` and `t` only parts that `i` writes differ. -/
def Frame (i : Instr) (s t : State) : Prop := ∀ q ∉ writes i, copyPart q t s = s

theorem copyPart_copyAll (q : Part) (s t u : State) : copyPart q (copyAll t s) u = copyPart q t u := by
  cases q <;> rfl

theorem copyPart_copyPart_other {p q : Part} (h : p ≠ q) (s t u : State) :
    copyPart q (copyPart p t s) u = copyPart q s u := by
  cases p <;> cases q <;> try rfl
  all_goals exact absurd rfl h

theorem copyPart_copyPart_same (q : Part) (s t u : State) : copyPart q (copyPart q t s) u = copyPart q t u := by
  cases q <;> rfl

theorem copyPart_self (q : Part) (s : State) : copyPart q s s = s := by
  cases q <;> rfl

theorem copyPart_copyParts {qs : List Part} {q : Part} (h : q ∉ qs) (s t u : State) :
    copyPart q (copyParts qs t s) u = copyPart q s u := by
  induction qs generalizing s with
  | nil => rfl
  | cons p qs ih =>
    obtain ⟨hpq, hq⟩ := List.ne_and_not_mem_of_not_mem_cons h
    exact (ih hq _).trans (copyPart_copyPart_other hpq.symm s t u)

/-- A frame by comparing states field by field: copying all parts of `t` copies no more than some that `i` writes. -/
theorem Frame.of_copy {i : Instr} {s t : State} {qs : List Part} (hqs : qs ⊆ writes i)
    (h : copyAll t s = copyParts qs t s) : Frame i s t := by
  intro q hq
  calc
    copyPart q t s = copyPart q (copyAll t s) s := (copyPart_copyAll q s t s).symm
    _ = copyPart q s s := by rw [h, copyPart_copyParts fun hm => hq (hqs hm)]
    _ = s := copyPart_self q s

theorem Frame.of_eq {i : Instr} {s t : State} (h : copyAll t s = copyParts (writes i) t s) : Frame i s t :=
  .of_copy (List.Subset.refl _) h

/-- None of the parts differs. -/
theorem Frame.of_untouched {i : Instr} {s t : State} (h : copyAll t s = s) : Frame i s t :=
  .of_copy (List.nil_subset _) h

theorem Frame.refl {i : Instr} {s : State} : Frame i s s := fun q _ => copyPart_self q s

theorem Frame.trans {i : Instr} {s t u : State} (h1 : Frame i s t) (h2 : Frame i t u) : Frame i s u := by
  intro q hq
  calc
    copyPart q u s = copyPart q (copyPart q u t) s := (copyPart_copyPart_same q t u s).symm
    _ = s := by rw [h2 q hq, h1 q hq]

section

variable {i : Instr} {s t : State} (h : Frame i s t)
include h

theorem Frame.len (hi : .len ∉ writes i) : t.len = s.len := (congrArg State.len (h _ hi) :)
theorem Frame.inPort (hi : .tokens ∉ writes i) : t.inPort = s.inPort := (congrArg State.inPort (h _ hi) :)
theorem Frame.out (hi : .output ∉ writes i) : t.out = s.out := (congrArg State.out (h _ hi) :)
theorem Frame.outAns (hi : .output ∉ writes i) : t.outAns = s.outAns := (congrArg State.outAns (h _ hi) :)
theorem Frame.wRun (hi : .run ∉ writes i) : t.wRun = s.wRun := (congrArg State.wRun (h _ hi) :)
theorem Frame.level (hi : .size ∉ writes i) : t.level = s.level := (congrArg State.level (h _ hi) :)
theorem Frame.dbufSize (hi : .size ∉ writes i) : t.dbufSize = s.dbufSize := (congrArg State.dbufSize (h _ hi) :)
theorem Frame.dbufCount (hi : .fill ∉ writes i) : t.dbufCount = s.dbufCount := (congrArg State.dbufCount (h _ hi) :)
theorem Frame.dbuf (hi : .words ∉ writes i) : t.dbuf = s.dbuf := (congrArg State.dbuf (h _ hi) :)
theorem Frame.byteCount (hi : .words ∉ writes i) : t.byteCount = s.byteCount := (congrArg State.byteCount (h _ hi) :)
theorem Frame.epoch (hi : .words ∉ writes i) : t.epoch = s.epoch := (congrArg State.epoch (h _ hi) :)

end

/-! ### Where an operation ends -/

/-- Where a turn of the command loop goes, and in which control state (R247). -/
def driveExits : List (Pos × Ctl) :=
  [(.blockEnd, .output), (.idle, .paused), (.magic, .blockHeader), (.emitPend, .output), (.chainStep, .output)]

/-- Where `i` goes from the control state `c` when it raises no error, if it goes on at all (R86, R182, R206, R247,
R251). -/
def exits (c : Ctl) : Instr → List (Pos × Ctl)
  | .sig => [(.level, c)]
  | .level _ => [(.idle, .paused)]
  | .magicData => [(.crcData, c)]
  | .magicEos => [(.crcEos, c)]
  | .crcDataBlock _ => [(.rand, c)]
  | .crcEndOfStream _ => [(.eosCheck, c)]
  | .rand _ => [(.origptr, c)]
  | .origptr _ => [(.map1, c)]
  | .map1 _ | .map2 _ => [(.map2, c), (.ngroups, c)]
  | .ngroups _ => [(.nsel, c)]
  | .nsel _ => [(.sel, c)]
  | .sel _ => [(.sel, c), (.lenStart, c)]
  | .lenStart _ | .lenDeltaInc | .lenDeltaDec => [(.lenDelta, c)]
  | .lenDeltaStop => [(.lenDelta, c), (.minmax, c)]
  | .minmax => [(.permute, c)]
  | .permute => [(.temp, c)]
  | .temp => [(.limitBase, c)]
  | .limitBase => [(.lenStart, c), (.symInit, c)]
  | .symInit => [(.groupSwitch, .symbols)]
  | .groupSwitch => [(.huff, c)]
  | .huffDecode => [(.huff, c), (.symbol, c)]
  | .symRunA | .symRunB | .symLiteral _ => [(.groupSwitch, c)]
  | .symEob => [(.origCheck, .bwt)]
  | .origCheck => [(.bucketStart, c)]
  | .bucketStart => [(.chainBuild, c)]
  | .chainBuild => [(.chainSeed, c)]
  | .chainSeed => [(.drive, .output)]
  | .chainStep | .rle4 | .emitPend | .blockEnd => [(.drive, c)]
  | .eosCheck _ => [(.idle, .done)]
  | .drive => driveExits
  | .read | .drain => if c.acceptsRead then driveExits else []
  | .nop | .start | .release | .reserved5 | .reserved6 | .reserved7 | .readBits _ | .fetchByte | .readWide _
  | .runFlush | .emit _ | .errorEntry _ _ | .reset => []

/-- An error that `i` raises in `s` has a code and a stage. -/
def NamesError (s : State) : Instr → Prop
  | .fetchByte | .readBits _ | .readWide _ => stageOf s ≠ .none
  | .errorEntry c st => c ≠ .none ∧ st ≠ .none
  | _ => True

/-- The error record of `t` is that of `s`. -/
def SameError (s t : State) : Prop := t.errCode = s.errCode ∧ t.errStage = s.errStage

theorem SameError.code {s t : State} (h : SameError s t) : t.errCode = s.errCode := h.1
theorem SameError.stage {s t : State} (h : SameError s t) : t.errStage = s.errStage := h.2

/-- `t` is at the place and in the control state of `s`, with its error record. -/
def SamePlace (s t : State) : Prop := t.pos = s.pos ∧ t.ctl = s.ctl ∧ SameError s t

theorem SamePlace.pos {s t : State} (h : SamePlace s t) : t.pos = s.pos := h.1
theorem SamePlace.ctl {s t : State} (h : SamePlace s t) : t.ctl = s.ctl := h.2.1
theorem SamePlace.error {s t : State} (h : SamePlace s t) : SameError s t := h.2.2

/-- The three ends of an operation: at the place it started from, at one it goes to, or in an error. -/
inductive Moves (i : Instr) (s t : State) : Prop
  | stays (h : SamePlace s t)
  | goes (hx : (t.pos, t.ctl) ∈ exits s.ctl i) (he : SameError s t)
  | raises (hp : t.pos = .idle) (hc : t.ctl = .error)
      (he : NamesError s i → t.errCode ≠ .none ∧ t.errStage ≠ .none)

/-- `t` is an end of `i` run from `s`. -/
structure Ends (i : Instr) (s t : State) : Prop where
  frame : Frame i s t
  moves : Moves i s t

theorem NextSatisfies.mono {P Q : State → Prop} {o : Host.Outcome State Fault Refusal} (h : NextSatisfies P o)
    (hPQ : ∀ u, P u → Q u) : NextSatisfies Q o := by
  cases o with
  | next u => exact hPQ u h
  | fault | refused => trivial

theorem NextSatisfies.ite {P : State → Prop} {p : Prop} [Decidable p] {a b : Host.Outcome State Fault Refusal}
    (ha : p → NextSatisfies P a) (hb : ¬ p → NextSatisfies P b) : NextSatisfies P (if p then a else b) := by
  split
  · exact ha ‹_›
  · exact hb ‹_›

theorem Act.Ensures.ite {P : State → Prop} {p : Prop} [Decidable p] {a b : Act}
    (ha : p → a.Ensures P) (hb : ¬ p → b.Ensures P) : (if p then a else b).Ensures P := by
  split
  · exact ha ‹_›
  · exact hb ‹_›

section

variable {i : Instr} {s u : State}

theorem Ends.stay (hf : Frame i s u) (h : SamePlace s u) : Ends i s u := ⟨hf, .stays h⟩

theorem Ends.refl : Ends i s s := .stay .refl ⟨rfl, rfl, rfl, rfl⟩

theorem goto_frame (p : Pos) (hf : Frame i s u) : Frame i s (goto p u) := hf

theorem raiseError_frame (c : ErrCode) (st : Stage) (hf : Frame i s u) : Frame i s (raiseError c st u) := hf

theorem Ends.goto {p : Pos} {c : Ctl} (hf : Frame i s u) (hx : (p, c) ∈ exits s.ctl i) (hc : u.ctl = c)
    (he : SameError s u) : Ends i s (goto p u) :=
  ⟨goto_frame p hf, .goes (hc ▸ hx) he⟩

theorem Ends.goto_first {p : Pos} {xs : List (Pos × Ctl)} (hf : copyAll u s = copyParts (writes i) u s)
    (hx : exits s.ctl i = (p, u.ctl) :: xs) (hcode : u.errCode = s.errCode) (hst : u.errStage = s.errStage) :
    Ends i s (Machine.goto p u) :=
  .goto (.of_eq hf) (hx ▸ .head _) rfl ⟨hcode, hst⟩

theorem Ends.goto_second {p : Pos} {x : Pos × Ctl} {xs : List (Pos × Ctl)}
    (hf : copyAll u s = copyParts (writes i) u s) (hx : exits s.ctl i = x :: (p, u.ctl) :: xs)
    (hcode : u.errCode = s.errCode) (hst : u.errStage = s.errStage) : Ends i s (Machine.goto p u) :=
  .goto (.of_eq hf) (hx ▸ .tail _ (.head _)) rfl ⟨hcode, hst⟩

theorem Ends.raise_if {c : ErrCode} {st : Stage} (hf : Frame i s u)
    (he : NamesError s i → c ≠ .none ∧ st ≠ .none) : Ends i s (raiseError c st u) :=
  ⟨raiseError_frame c st hf, .raises rfl rfl he⟩

theorem Ends.raise {c : ErrCode} {st : Stage} (hf : Frame i s u) (hc : c ≠ .none) (hst : st ≠ .none) :
    Ends i s (raiseError c st u) :=
  .raise_if hf fun _ => ⟨hc, hst⟩

end

/-! ### Operations called by several meanings -/

/-- Where the calling rule goes on the state satisfies `Q`, where the step ends with an error it satisfies `P`. -/
def Act.EnsuresBoth (Q P : State → Prop) : Act → Prop
  | .go s => Q s
  | .halt s => P s
  | .hold | .fault _ | .refuse _ => True

theorem Act.EnsuresBoth.bind {Q P : State → Prop} {a : Act} {k : State → Act} (ha : a.EnsuresBoth Q P)
    (hk : ∀ u, Q u → (k u).Ensures P) : (a.bind k).Ensures P := by
  cases a with
  | go u => exact hk u ha
  | halt u => exact ha
  | hold | fault | refuse => trivial

theorem Act.EnsuresBoth.ensures {Q P : State → Prop} {a : Act} (ha : a.EnsuresBoth Q P) (h : ∀ u, Q u → P u) :
    a.Ensures P := by
  cases a with
  | go u => exact h u ha
  | halt u => exact ha
  | hold | fault | refuse => trivial

/-- `u` is what the calling rule of `i` goes on from: still at the place of `s`. -/
structure GoesOn (i : Instr) (s u : State) : Prop where
  frame : Frame i s u
  place : SamePlace s u

theorem GoesOn.ends {i : Instr} {s u : State} (h : GoesOn i s u) : Ends i s u := .stay h.frame h.place

theorem sameButField_frame {i : Instr} {s u : State} (hi : [.tokens] ⊆ writes i) (h : sameButField s u) :
    Frame i s u := by
  unfold sameButField at h
  rw [h]
  exact .of_copy hi rfl

theorem sameButField_samePlace {s u : State} (h : sameButField s u) : SamePlace s u := by
  unfold sameButField at h
  rw [h]
  exact ⟨rfl, rfl, rfl, rfl⟩

theorem sameButField_ends {i : Instr} {s u : State} (hi : [.tokens] ⊆ writes i) (h : sameButField s u) : Ends i s u :=
  .stay (sameButField_frame hi h) (sameButField_samePlace h)

/-- The places that read an element have a stage (R278). -/
theorem stageOf_ne_none {s : State} : stageOf s ≠ .none ↔ s.pos ∈ [.sig, .level, .magic, .crcData, .crcEos, .rand,
    .origptr, .map1, .map2, .ngroups, .nsel, .sel, .lenStart, .lenDelta, .huff] := by
  unfold stageOf
  split
  case h_3 h => split <;> simp [h]
  all_goals next h => simp [h]

theorem readBits_ends {i : Instr} (n : Nat) (s : State) (hi : [.tokens] ⊆ writes i)
    (hstage : NamesError s i → stageOf s ≠ .none) : (readBits n s).EnsuresBoth (sameButField s) (Ends i s) := by
  rcases readBits_frame n s with ⟨t, e, ht⟩ | e | ⟨t, c, e, ht, hc⟩ | ⟨r, e⟩ <;> rw [e]
  · exact ht
  · trivial
  · exact .raise_if (sameButField_frame hi ht) fun hn => ⟨hc, hstage hn⟩
  · trivial

theorem refillOnce_ends {i : Instr} (s : State) (hi : [.tokens] ⊆ writes i)
    (hstage : NamesError s i → stageOf s ≠ .none) : (refillOnce s).Ensures (Ends i s) := by
  rcases refillOnce_cases s with ⟨-, e⟩ | ⟨b, ts, -, e⟩ | ⟨ts, -, e⟩ | ⟨ts, -, e⟩ <;> rw [e]
  · trivial
  · exact .stay (.of_copy hi rfl) ⟨rfl, rfl, rfl, rfl⟩
  · exact .raise_if (.of_copy hi rfl) fun hn => ⟨nofun, hstage hn⟩
  · exact .raise_if (.of_copy hi rfl) fun hn => ⟨nofun, hstage hn⟩

theorem runFlush_ends {i : Instr} (s : State) (hi : [.fill, .words] ⊆ writes i) :
    (runFlush s).EnsuresBoth (GoesOn i s) (Ends i s) := by
  rcases runFlush_cases s with ⟨-, e⟩ | ⟨-, -, e⟩ | ⟨-, -, ⟨-, e⟩ | ⟨-, e⟩⟩ <;> rw [e]
  · exact ⟨.refl, ⟨rfl, rfl, rfl, rfl⟩⟩
  · exact .raise (.of_untouched rfl) nofun nofun
  · exact ⟨.of_copy hi rfl, ⟨rfl, rfl, rfl, rfl⟩⟩
  · trivial

theorem literal_ends {i : Instr} {s u : State} (sym : Nat) (hu : GoesOn i s u)
    (hi : [.fill, .words] ⊆ writes i) : (literal sym u).EnsuresBoth (GoesOn i s) (Ends i s) := by
  rcases literal_cases sym u with ⟨-, e⟩ | ⟨-, ⟨-, e⟩ | ⟨-, -, e⟩ | ⟨-, -, e⟩⟩ <;> rw [e]
  · exact .raise hu.frame nofun nofun
  · trivial
  · trivial
  · exact ⟨hu.frame.trans (.of_copy hi rfl), hu.place⟩

theorem emitByte_ends {i : Instr} (b : Byte) (s : State) (hi : [.output] ⊆ writes i) :
    (emitByte b s).EnsuresBoth (GoesOn i s) (Ends i s) := by
  rcases emitByte_cases b s with ⟨-, e⟩ | ⟨xs, -, e⟩ | ⟨xs, -, e⟩ <;> rw [e]
  · trivial
  · exact ⟨.of_copy hi rfl, ⟨rfl, rfl, rfl, rfl⟩⟩
  · exact .raise (.of_copy hi rfl) nofun nofun

theorem driveTurn_exits (s : State) : ((driveTurn s).pos, (driveTurn s).ctl) ∈ driveExits := by
  rcases driveTurn_cases s with ⟨-, e⟩ | ⟨-, ⟨-, e⟩ | ⟨-, ⟨-, e⟩ | ⟨-, -, e⟩ | ⟨-, -, e⟩⟩⟩ <;> rw [e]
  · exact .head _
  · exact .tail _ (.head _)
  · exact .tail _ (.tail _ (.head _))
  · exact .tail _ (.tail _ (.tail _ (.head _)))
  · exact .tail _ (.tail _ (.tail _ (.tail _ (.head _))))

theorem driveTurn_ends {i : Instr} {s u : State} (hf : Frame i s u) (he : SameError s u)
    (hx : exits s.ctl i = driveExits) : Ends i s (driveTurn u) := by
  refine ⟨hf.trans ?_, .goes (hx ▸ driveTurn_exits u) ?_⟩
  · rw [driveTurn_frame]
    exact .of_untouched rfl
  · rw [driveTurn_frame]
    exact he

theorem chainLoop_ends {i : Instr} (k j : Nat) (s : State) (hi : [.words] ⊆ writes i) :
    (chainLoop k j s).EnsuresBoth (GoesOn i s) (Ends i s) := by
  rcases chainLoop_cases k j s with ⟨t, e, ht⟩ | ⟨f, e⟩ <;> rw [e]
  · rw [ht]
    exact ⟨.of_copy hi rfl, ⟨rfl, rfl, rfl, rfl⟩⟩
  · trivial

theorem decodeHuff_illegal {lo hi : Nat} {limit : Int} {f : Field} {c : ErrCode} {st : Stage}
    (h : decodeHuff lo hi limit f = .illegal c st) : c ≠ .none ∧ st ≠ .none := by
  unfold decodeHuff at h
  split_ifs at h
  cases h
  decide

/-- The loop of R172 ends behind its codeword or in an error. -/
theorem huffLoop_ends (fuel : Nat) {s u : State} (hf : Frame .huffDecode s u) (he : SameError s u)
    (hp : u.pos = .huff) (hc : u.ctl = s.ctl) : (huffLoop fuel u).Ensures (Ends .huffDecode s) := by
  induction fuel generalizing u with
  | zero => exact ⟨hf, .goes (hp ▸ hc ▸ .head _) he⟩
  | succ fuel ih =>
    refine .guardIx fun _ => ?_
    split
    · next n _ =>
      rcases readBits_frame n u with ⟨t, e, ht⟩ | e | ⟨t, c, e, ht, hcode⟩ | ⟨r, e⟩ <;> rw [e]
      · obtain ⟨hpos, hctl, hcode, hst⟩ := sameButField_samePlace ht
        exact ih (hf.trans (sameButField_frame (List.Subset.refl _) ht)) ⟨hcode.trans he.code, hst.trans he.stage⟩
          (hpos.trans hp) (hctl.trans hc)
      · trivial
      · exact .raise (hf.trans (sameButField_frame (List.Subset.refl _) ht)) hcode (by simp [stageOf, hp])
      · trivial
    · next c st hd => exact .raise hf (decodeHuff_illegal hd).1 (decodeHuff_illegal hd).2
    · unfold huffSymbol
      dsimp only
      split
      · exact .raise hf nofun nofun
      · exact .goto (hf.trans (.of_untouched rfl)) (.tail _ (.head _)) hc he
    · exact ⟨hf, .goes (hp ▸ hc ▸ .head _) he⟩

/-! ### The ends of every operation -/

section

variable (s : State)

theorem execRead_ends : NextSatisfies (Ends .read s) (execRead s) :=
  .ite (fun haccept => .ite (fun _ => .stay (.of_eq rfl) ⟨rfl, rfl, rfl, rfl⟩)
    fun _ => driveTurn_ends (.of_eq rfl) ⟨rfl, rfl⟩ (if_pos haccept.2)) fun _ => .stay (.of_eq rfl) ⟨rfl, rfl, rfl, rfl⟩

theorem execDrain_ends : NextSatisfies (Ends .drain s) (execDrain s) :=
  .ite (fun haccept => .ite (fun _ => .stay (.of_eq rfl) ⟨rfl, rfl, rfl, rfl⟩)
    fun _ => driveTurn_ends (.of_eq rfl) ⟨rfl, rfl⟩ (if_pos haccept)) fun _ => .stay (.of_eq rfl) ⟨rfl, rfl, rfl, rfl⟩

theorem execLevel_ends (b : Byte) : NextSatisfies (Ends (.level b) s) (execLevel b s) :=
  .ite (fun _ => .raise (.of_eq rfl) nofun nofun) fun _ => .goto_first rfl rfl rfl rfl

theorem execRand_ends (r : BitVec 1) : NextSatisfies (Ends (.rand r) s) (execRand r s) :=
  .ite (fun _ => .raise (.of_eq rfl) nofun nofun) fun _ => .goto_first rfl rfl rfl rfl

theorem gotoNextMap2_ends {i : Instr} {s u : State} (k : Nat) (hf : Frame i s u) (hp : SamePlace s u)
    (hx : exits s.ctl i = [(.map2, s.ctl), (.ngroups, s.ctl)]) : Ends i s (gotoNextMap2 k u) := by
  obtain ⟨-, hc, he⟩ := hp
  unfold gotoNextMap2
  split
  · exact .goto (hf.trans (.of_untouched rfl)) (hx ▸ .head _) hc he
  · exact .goto hf (hx ▸ .tail _ (.head _)) hc he

theorem execMap2_ends (u : BitVec 16) : NextSatisfies (Ends (.map2 u) s) (execMap2 u s) :=
  .out (.guardIx fun _ => gotoNextMap2_ends _ (.of_eq rfl) ⟨rfl, rfl, rfl, rfl⟩ rfl) .refl

theorem execNgroups_ends (n : BitVec 3) : NextSatisfies (Ends (.ngroups n) s) (execNgroups n s) :=
  .ite (fun _ => .raise (.of_eq rfl) nofun nofun) fun _ => .goto_first rfl rfl rfl rfl

theorem execNsel_ends (n : BitVec 15) : NextSatisfies (Ends (.nsel n) s) (execNsel n s) :=
  .ite (fun _ => .raise (.of_eq rfl) nofun nofun)
    fun _ => .out (.guardIx fun _ => .goto_first rfl rfl rfl rfl) .refl

theorem execSel_ends (j : Nat) : NextSatisfies (Ends (.sel j) s) (execSel j s) :=
  .ite (fun _ => .raise (.of_eq rfl) nofun nofun) fun _ => .out (.guardIx fun _ => .guardIx fun _ =>
    .ite (fun _ => .goto_first rfl rfl rfl rfl) fun _ => .goto_second rfl rfl rfl rfl) .refl

theorem execLenDeltaStop_ends : NextSatisfies (Ends .lenDeltaStop s) (execLenDeltaStop s) :=
  .out (.lenCheck (.raise (.of_eq rfl) nofun nofun) (.guardIx fun _ =>
    .ite (fun _ => .goto_first rfl rfl rfl rfl) fun _ => .goto_second rfl rfl rfl rfl)) .refl

theorem execLenDeltaInc_ends : NextSatisfies (Ends .lenDeltaInc s) (execLenDeltaInc s) :=
  .out (.lenCheck (.raise (.of_eq rfl) nofun nofun) (.goto_first rfl rfl rfl rfl)) .refl

theorem execLenDeltaDec_ends : NextSatisfies (Ends .lenDeltaDec s) (execLenDeltaDec s) :=
  .out (.lenCheck (.raise (.of_eq rfl) nofun nofun) (.goto_first rfl rfl rfl rfl)) .refl

theorem execSymLiteral_ends (sym : BitVec 9) : NextSatisfies (Ends (.symLiteral sym) s) (execSymLiteral sym s) := by
  refine .out ((runFlush_ends s (List.Subset.refl _)).bind fun u hu => ?_) .refl
  refine (literal_ends _ hu (List.Subset.refl _)).bind fun v hv => ?_
  exact .goto hv.frame (.head _) hv.place.ctl hv.place.error

theorem execSymEob_ends : NextSatisfies (Ends .symEob s) (execSymEob s) := by
  refine .out ((runFlush_ends s (List.Subset.refl _)).bind fun u hu => ?_) .refl
  exact .goto (hu.frame.trans (.of_untouched rfl)) (.head _) rfl hu.place.error

theorem execRunFlush_ends : NextSatisfies (Ends .runFlush s) (execRunFlush s) :=
  .out ((runFlush_ends s (List.Subset.refl _)).ensures fun _ => GoesOn.ends) .refl

theorem execReadBits_ends (n : Nat) : NextSatisfies (Ends (.readBits n) s) (execReadBits n s) :=
  .out ((readBits_ends n s (List.Subset.refl _) id).ensures fun _ => sameButField_ends (List.Subset.refl _)) .refl

theorem execReadWide_ends (m : Nat) : NextSatisfies (Ends (.readWide m) s) (execReadWide m s) := by
  unfold execReadWide
  split
  · refine .out ((readBits_ends _ s (List.Subset.refl _) id).bind fun u hu => ?_) .refl
    rcases readBits_frame (m / 2) u with ⟨t, e, ht⟩ | e | ⟨t, c, e, ht, hc⟩ | ⟨r, e⟩ <;> rw [e]
    · exact sameButField_ends (List.Subset.refl _) (sameButField_trans hu ht)
    · trivial
    · refine .raise_if (sameButField_frame (List.Subset.refl _) (sameButField_trans hu ht)) fun hn => ⟨hc, ?_⟩
      rw [stageOf_ne_none, (sameButField_samePlace hu).pos]
      exact stageOf_ne_none.1 hn
    · trivial
  · trivial

theorem execMinmax_ends : NextSatisfies (Ends .minmax s) (execMinmax s) :=
  .out (.tableGuard fun _ _ => .goto_first rfl rfl rfl rfl) .refl

theorem execPermute_ends : NextSatisfies (Ends .permute s) (execPermute s) :=
  .out (.tableGuard fun _ _ => .goto_first rfl rfl rfl rfl) .refl

theorem execTemp_ends : NextSatisfies (Ends .temp s) (execTemp s) :=
  .out (.tableGuard fun _ _ => .lenGuard fun _ _ => .goto_first rfl rfl rfl rfl) .refl

theorem execLimitBase_ends : NextSatisfies (Ends .limitBase s) (execLimitBase s) := by
  refine .out (.tableGuard fun _ _ => .lenGuard fun _ _ => .lenIx fun _ => ?_) .refl
  rw [limitBaseLoop_frame]
  unfold gotoNextGroup
  refine Act.ensures_go.2 ?_
  split
  · exact .goto_first rfl rfl rfl rfl
  · exact .goto_second rfl rfl rfl rfl

theorem execSymInit_ends : NextSatisfies (Ends .symInit s) (execSymInit s) := by
  unfold execSymInit
  -- as variables, so that the writes of these 256 entries are not carried out
  generalize (List.range 256).map (BitVec.ofNat 8) = ids
  generalize List.replicate 256 (0 : BitVec 20) = zeros
  exact .goto_first rfl rfl rfl rfl

theorem execGroupSwitch_ends : NextSatisfies (Ends .groupSwitch s) (execGroupSwitch s) :=
  .ite (fun _ => .ite (fun _ => .raise (.of_eq rfl) nofun nofun) fun _ => .goto_first rfl rfl rfl rfl)
    fun _ => .goto_first rfl rfl rfl rfl

theorem execHuffDecode_ends : NextSatisfies (Ends .huffDecode s) (execHuffDecode s) :=
  .out (.guardIx fun _ => huffLoop_ends _ (.of_eq rfl) ⟨rfl, rfl⟩ rfl rfl) .refl

theorem execOrigCheck_ends : NextSatisfies (Ends .origCheck s) (execOrigCheck s) :=
  .ite (fun _ => .raise (.of_eq rfl) nofun nofun) fun _ => .goto_first rfl rfl rfl rfl

theorem execBucketStart_ends : NextSatisfies (Ends .bucketStart s) (execBucketStart s) := by
  unfold execBucketStart
  rw [bucketLoop_frame]
  exact .goto_first rfl rfl rfl rfl

theorem execChainBuild_ends : NextSatisfies (Ends .chainBuild s) (execChainBuild s) := by
  refine .out (.guardIx fun _ => (chainLoop_ends _ _ s (List.Subset.refl _)).bind fun u hu => ?_) .refl
  exact .goto hu.frame (.head _) hu.place.ctl hu.place.error

theorem execChainSeed_ends : NextSatisfies (Ends .chainSeed s) (execChainSeed s) :=
  .out (.guardIx fun _ => .goto_first rfl rfl rfl rfl) .refl

theorem execChainStep_ends : NextSatisfies (Ends .chainStep s) (execChainStep s) := by
  refine .out (.guardIx fun _ => ?_) .refl
  split
  · exact .goto_first rfl rfl rfl rfl
  · exact .goto_first rfl rfl rfl rfl

theorem execRle4_ends : NextSatisfies (Ends .rle4 s) (execRle4 s) :=
  .ite (fun _ => .out (.guardIx fun _ => .goto_first rfl rfl rfl rfl) .refl) fun _ => .refl

theorem execEmitPend_ends : NextSatisfies (Ends .emitPend s) (execEmitPend s) := by
  refine .out ((emitByte_ends _ s (List.Subset.refl _)).bind fun u hu => ?_) .refl
  exact .goto (hu.frame.trans (.of_untouched rfl)) (.head _) hu.place.ctl hu.place.error

theorem execBlockEnd_ends : NextSatisfies (Ends .blockEnd s) (execBlockEnd s) :=
  .ite (fun _ => .raise (.of_eq rfl) nofun nofun) fun _ => .goto_first rfl rfl rfl rfl

theorem execEosCheck_ends (crc : Word) : NextSatisfies (Ends (.eosCheck crc) s) (execEosCheck crc s) :=
  .ite (fun _ => .raise (.of_eq rfl) nofun nofun) fun _ => .goto_first rfl rfl rfl rfl

end

/-- The operations that clear the error record (R283). -/
def clearing : List Instr := [.start, .release, .reset]

/-- Every other operation ends where it started, at one of its exits, or in an error. -/
theorem exec_ends (s : State) (i : Instr) (hi : i ∉ clearing) : NextSatisfies (Ends i s) (exec i s) := by
  cases i with
  | start | release | reset => exact absurd (by simp [clearing]) hi
  | nop => exact .refl
  | read => exact execRead_ends s
  | drain => exact execDrain_ends s
  | reserved5 | reserved6 | reserved7 => exact .stay (.of_eq rfl) ⟨rfl, rfl, rfl, rfl⟩
  | sig | magicData | magicEos => exact .goto_first rfl rfl rfl rfl
  | level b => exact execLevel_ends s b
  | crcDataBlock c => exact .goto_first rfl rfl rfl rfl
  | crcEndOfStream c => exact .goto_first rfl rfl rfl rfl
  | rand r => exact execRand_ends s r
  | origptr p => exact .goto_first rfl rfl rfl rfl
  | map1 m => exact gotoNextMap2_ends 0 (.of_eq rfl) ⟨rfl, rfl, rfl, rfl⟩ rfl
  | map2 u => exact execMap2_ends s u
  | ngroups n => exact execNgroups_ends s n
  | nsel n => exact execNsel_ends s n
  | sel j => exact execSel_ends s j
  | lenStart t => exact .goto_first rfl rfl rfl rfl
  | lenDeltaStop => exact execLenDeltaStop_ends s
  | lenDeltaInc => exact execLenDeltaInc_ends s
  | lenDeltaDec => exact execLenDeltaDec_ends s
  | symRunA | symRunB => exact .goto_first rfl rfl rfl rfl
  | symLiteral sym => exact execSymLiteral_ends s sym
  | symEob => exact execSymEob_ends s
  | readBits n => exact execReadBits_ends s n
  | fetchByte => exact .out (refillOnce_ends s (List.Subset.refl _) id) .refl
  | readWide m => exact execReadWide_ends s m
  | minmax => exact execMinmax_ends s
  | permute => exact execPermute_ends s
  | temp => exact execTemp_ends s
  | limitBase => exact execLimitBase_ends s
  | symInit => exact execSymInit_ends s
  | groupSwitch => exact execGroupSwitch_ends s
  | huffDecode => exact execHuffDecode_ends s
  | runFlush => exact execRunFlush_ends s
  | origCheck => exact execOrigCheck_ends s
  | bucketStart => exact execBucketStart_ends s
  | chainBuild => exact execChainBuild_ends s
  | chainSeed => exact execChainSeed_ends s
  | chainStep => exact execChainStep_ends s
  | rle4 => exact execRle4_ends s
  | emitPend => exact execEmitPend_ends s
  | emit b => exact .out ((emitByte_ends b s (List.Subset.refl _)).ensures fun _ => GoesOn.ends) .refl
  | blockEnd => exact execBlockEnd_ends s
  | eosCheck crc => exact execEosCheck_ends s crc
  | drive => exact driveTurn_ends (.of_eq rfl) ⟨rfl, rfl⟩ rfl
  | errorEntry c st => exact .raise_if .refl id

/-! ### The operations that clear the error record -/

/-- Reset writes every part but the ports. -/
theorem resetCore_frame {i : Instr} (s : State) (hi : [.len, .run, .size, .fill, .words] ⊆ writes i) :
    Frame i s (resetCore s) :=
  .of_copy hi rfl

theorem refuseCmd_frame {i : Instr} (s : State) : Frame i s (refuseCmd s) := .of_untouched rfl

theorem execStart_frame (s : State) : NextSatisfies (Frame .start s) (execStart s) :=
  .ite (fun _ => refuseCmd_frame s) fun _ => .of_eq rfl

theorem execRelease_frame (s : State) : NextSatisfies (Frame .release s) (execRelease s) :=
  .ite (fun _ => refuseCmd_frame s) fun _ => resetCore_frame s (List.Subset.refl _)

/-- Every operation leaves the parts that it does not write. -/
theorem exec_frame (s : State) (i : Instr) : NextSatisfies (Frame i s) (exec i s) := by
  by_cases hi : i ∈ clearing
  · simp only [clearing, List.mem_cons, List.not_mem_nil, or_false] at hi
    rcases hi with rfl | rfl | rfl
    · exact execStart_frame s
    · exact execRelease_frame s
    · exact resetCore_frame s (List.Subset.refl _)
  · exact (exec_ends s i hi).mono fun _ => Ends.frame

end Sys2Proof.Machine

/-! ## The core's next operation (R55, R86, R182, R247) -/

namespace Sys2Proof.Machine

/-- The place at which the core runs `i` as its own operation. The reads and ERROR_ENTRY have none, since they are run at
every place that reads an element, and neither has what the core does not issue. -/
def home : Instr → Pos
  | .sig => .sig
  | .level _ => .level
  | .magicData | .magicEos => .magic
  | .crcDataBlock _ => .crcData
  | .crcEndOfStream _ => .crcEos
  | .rand _ => .rand
  | .origptr _ => .origptr
  | .map1 _ => .map1
  | .map2 _ => .map2
  | .ngroups _ => .ngroups
  | .nsel _ => .nsel
  | .sel _ => .sel
  | .lenStart _ => .lenStart
  | .lenDeltaStop | .lenDeltaInc | .lenDeltaDec => .lenDelta
  | .minmax => .minmax
  | .permute => .permute
  | .temp => .temp
  | .limitBase => .limitBase
  | .symInit => .symInit
  | .groupSwitch => .groupSwitch
  | .huffDecode => .huff
  | .symRunA | .symRunB | .runFlush | .symLiteral _ | .symEob => .symbol
  | .origCheck => .origCheck
  | .bucketStart => .bucketStart
  | .chainBuild => .chainBuild
  | .chainSeed => .chainSeed
  | .drive => .drive
  | .blockEnd => .blockEnd
  | .emitPend => .emitPend
  | .chainStep | .rle4 => .chainStep
  | .eosCheck _ => .eosCheck
  | .nop | .start | .read | .drain | .release | .reserved5 | .reserved6 | .reserved7 | .readBits _ | .fetchByte
  | .readWide _ | .emit _ | .errorEntry _ _ | .reset => .idle

theorem home_of_place {i : Instr} (h : i.place ≠ .idle) : home i = i.place := by
  cases i with
  | symRunA | symRunB | runFlush | symLiteral | symEob | minmax | permute | temp | limitBase | symInit | groupSwitch
  | huffDecode | origCheck | bucketStart | chainBuild | chainSeed | drive | blockEnd | emitPend | chainStep | rle4
  | eosCheck => exact absurd rfl h
  | _ => rfl

/-- The core's next operation: one of the place, a read of an element, or the error of an illegal encoding. -/
inductive NextOp (s : State) : Instr → Prop
  | own {i : Instr} (hp : home i = s.pos) (hne : s.pos ≠ .idle) : NextOp s i
  | fetch (h : stageOf s ≠ .none) : NextOp s .fetchByte
  | read (n : Nat) (h : stageOf s ≠ .none) : NextOp s (.readBits n)
  | illegal {c : ErrCode} {st : Stage} (hne : s.pos ≠ .idle) (hc : c ≠ .none) (hst : st ≠ .none) :
      NextOp s (.errorEntry c st)

theorem readStep_cases (n : Nat) (i : Instr) (s : State) : readStep n i s = .fetchByte ∨ readStep n i s = i := by
  unfold readStep
  split
  · exact .inl rfl
  · exact .inr rfl

theorem nextElement_nextOp {s : State}
    (hp : s.pos ∈ [.sig, .level, .magic, .crcData, .crcEos, .rand, .origptr, .map1, .map2, .ngroups, .nsel, .sel,
      .lenStart, .lenDelta, .huff]) : NextOp s (nextElement s) := by
  have hne : s.pos ≠ .idle := by rintro h; simp [h] at hp
  have hread (n : Nat) : NextOp s (readStep n (.readBits n) s) := by
    rcases readStep_cases n (.readBits n) s with h | h <;> rw [h]
    · exact .fetch (stageOf_ne_none.2 hp)
    · exact .read n (stageOf_ne_none.2 hp)
  have hd := decodeField_cases (readCtx s) (fieldRead s) hp
  unfold nextElement
  split <;> rename_i e <;> rw [e] at hd
  · rcases hd with ⟨hplace, -⟩ | ⟨rfl, hhuff⟩
    · exact .own ((home_of_place (hplace ▸ hne)).trans hplace) hne
    · exact .own hhuff.symm hne
  · exact hread _
  · exact hread _
  · exact .illegal hne hd.1 hd.2

theorem nextSymbol_nextOp {s : State} (hp : s.pos = .symbol) : NextOp s (nextSymbol s) := by
  refine .own ?_ (by simp [hp])
  rw [hp]
  unfold nextSymbol
  split_ifs <;> rfl

theorem nextCodeword_nextOp {s : State} (hp : s.pos = .huff) : NextOp s (nextCodeword s) := by
  unfold nextCodeword
  split
  · exact nextElement_nextOp (by simp [hp])
  · exact .own hp.symm (by simp [hp])

theorem nextInstr_nextOp {s : State} {i : Instr} (h : nextInstr s = some i) : NextOp s i := by
  unfold nextInstr at h
  cases hp : s.pos <;> rw [hp] at h <;> cases h
  case sig | level | magic | crcData | crcEos | rand | origptr | map1 | map2 | ngroups | nsel | sel | lenStart |
      lenDelta =>
    exact nextElement_nextOp (by simp [hp])
  case huff => exact nextCodeword_nextOp hp
  case symbol => exact nextSymbol_nextOp hp
  case chainStep => exact .own (by split <;> exact hp.symm) (by simp [hp])
  all_goals exact .own hp.symm (by simp [hp])

theorem NextOp.pos_ne_idle {s : State} {i : Instr} (h : NextOp s i) : s.pos ≠ .idle := by
  cases h with
  | own hp hne => exact hne
  | fetch h | read n h => rintro hp; exact h (by unfold stageOf; rw [hp])
  | illegal hne => exact hne

/-! ### What a step can run -/

/-- What a step can run from `s`: the core's next operation, or a command of the host that does not clear the error
record. -/
def Runs (s : State) (i : Instr) : Prop :=
  NextOp s i ∨ i ∈ [.nop, .read, .drain, .reserved5, .reserved6, .reserved7]

theorem Runs.command_cases {i : Instr} (h : i ∈ [Instr.nop, .read, .drain, .reserved5, .reserved6, .reserved7]) :
    i = .nop ∨ i = .read ∨ i = .drain ∨ i = .reserved5 ∨ i = .reserved6 ∨ i = .reserved7 := by
  simpa using h

theorem NextOp.not_clearing {s : State} {i : Instr} (h : NextOp s i) : i ∉ clearing := by
  simp only [clearing, List.mem_cons, List.not_mem_nil, or_false]
  cases h with
  | own hp hne => rintro (rfl | rfl | rfl) <;> exact hne hp.symm
  | fetch | read | illegal => simp

theorem Runs.not_clearing {s : State} {i : Instr} (h : Runs s i) : i ∉ clearing := by
  rcases h with h | h
  · exact h.not_clearing
  · rcases Runs.command_cases h with rfl | rfl | rfl | rfl | rfl | rfl <;> simp [clearing]

theorem Runs.ends {s t : State} {i : Instr} (h : Runs s i) (he : exec i s = .next t) : Ends i s t :=
  (exec_ends s i h.not_clearing).of_next he

/-- In a step every error has a code and a stage. -/
theorem Runs.namesError {s : State} {i : Instr} (h : Runs s i) : NamesError s i := by
  rcases h with h | h
  · cases h with
    | own hp hne =>
      cases i with
      | fetchByte | readBits | readWide | errorEntry => exact absurd hp.symm hne
      | _ => trivial
    | fetch h | read n h => exact h
    | illegal hne hc hst => exact ⟨hc, hst⟩
  · rcases Runs.command_cases h with rfl | rfl | rfl | rfl | rfl | rfl <;> trivial

/-! ### Places and control states -/

/-- The place `p` belongs to the control state `c`. -/
def placed (p : Pos) (c : Ctl) : Bool :=
  match placeCtl p with
  | some d => c == d
  | none => !c.busy

theorem placeWf_eq (s : State) : s.placeWf = placed s.pos s.ctl := rfl

theorem placeCtl_of_placed {p : Pos} {c : Ctl} (h : placed p c = true) (hp : p ≠ .idle) : placeCtl p = some c := by
  unfold placed at h
  split at h
  · next d hd => rw [hd, beq_iff_eq.1 h]
  · next hd =>
    cases p with
    | idle => exact absurd rfl hp
    | _ => cases hd

theorem placeCtl_busy {p : Pos} {c : Ctl} (h : placeCtl p = some c) : c.busy = true := by
  cases p <;> cases h <;> rfl

/-- A core with a next operation is in the control state of its place. -/
theorem NextOp.placeCtl {s : State} {i : Instr} (h : NextOp s i) (hs : s.placeWf = true) :
    Machine.placeCtl s.pos = some s.ctl :=
  placeCtl_of_placed hs h.pos_ne_idle

/-- The exits of an operation of the place, from the control state of the place. -/
theorem exits_placed {i : Instr} {c : Ctl} (hc : placeCtl (home i) = some c) :
    ∀ x ∈ exits c i, placed x.1 x.2 = true := by
  cases i <;> cases hc <;> simp [exits, driveExits, placed, placeCtl, Ctl.busy]

/-- READ and DRAIN go where a turn of the command loop goes, and only from a state that accepts them. -/
theorem mem_exits_command {c : Ctl} {i : Instr} {x : Pos × Ctl} (hx : x ∈ exits c i)
    (hi : i ∈ [Instr.nop, .read, .drain, .reserved5, .reserved6, .reserved7]) :
    c.acceptsRead = true ∧ x ∈ driveExits := by
  rcases Runs.command_cases hi with rfl | rfl | rfl | rfl | rfl | rfl
  case inr.inl | inr.inr.inl => simpa [exits] using hx
  all_goals simp [exits] at hx

theorem driveExits_placed : ∀ x ∈ driveExits, placed x.1 x.2 = true := by decide

/-- Whatever a step runs, its exits belong to their control states. -/
theorem Runs.exits_placed {s : State} {i : Instr} {x : Pos × Ctl} (h : Runs s i) (hs : s.placeWf = true)
    (hx : x ∈ exits s.ctl i) : placed x.1 x.2 = true := by
  rcases h with h | h
  · have hc := h.placeCtl hs
    cases h with
    | own hp hne => exact Machine.exits_placed (hp ▸ hc) x hx
    | fetch | read | illegal => simp [exits] at hx
  · exact driveExits_placed x (mem_exits_command hx h).2

/-- An operation goes to an exit from a busy state, or from one that accepts READ. -/
theorem Runs.ctl_ne_error {s : State} {i : Instr} {x : Pos × Ctl} (h : Runs s i) (hs : s.placeWf = true)
    (hx : x ∈ exits s.ctl i) : s.ctl ≠ .error := by
  rintro he
  rcases h with h | h
  · exact absurd (placeCtl_busy (h.placeCtl hs)) (by simp [he, Ctl.busy])
  · exact absurd (mem_exits_command hx h).1 (by simp [he, Ctl.acceptsRead])

/-- The control states that an operation goes to. -/
theorem exits_ctl (c : Ctl) (i : Instr) : ∀ x ∈ exits c i,
    x.2 = c ∨ (x.2 = .symbols ∧ i = .symInit) ∨ x.2 ∈ [.blockHeader, .bwt, .output, .paused, .done] := by
  cases i with
  | read | drain =>
    unfold exits
    cases c.acceptsRead <;> simp [driveExits]
  | _ => simp [exits, driveExits]

/-- The control state behind an operation. -/
theorem Moves.ctl_cases {i : Instr} {s t : State} (h : Moves i s t) :
    t.ctl = s.ctl ∨ (t.ctl = .symbols ∧ i = .symInit) ∨
      t.ctl ∈ [.blockHeader, .bwt, .output, .paused, .done, .error] := by
  cases h with
  | stays h => exact .inl h.ctl
  | goes hx => exact (exits_ctl _ _ _ hx).imp_right (.imp_right (List.mem_append_left [Ctl.error]))
  | raises _ hc => exact .inr (.inr (by simp [hc]))

/-- Only ORIG_CHECK and the two operations behind it go to a place inside the inverse BWT (R206). -/
theorem exits_insideBwt (c : Ctl) (i : Instr) : ∀ x ∈ exits c i, x.1 ∈ [.bucketStart, .chainBuild, .chainSeed] →
    i = .origCheck ∨ i = .bucketStart ∨ i = .chainBuild := by
  cases i with
  | read | drain =>
    unfold exits
    cases c.acceptsRead <;> simp [driveExits]
  | _ => simp [exits, driveExits]

/-! ### What every step keeps -/

/-- A command of the host has the effect of one that does not clear the error record, or it is START or RELEASE of a core
that is not busy. -/
theorem command_cases {v : Word} {s t : State} (h : exec (decodeCmd v) s = .next t) :
    (∃ i ∈ [Instr.nop, .read, .drain, .reserved5, .reserved6, .reserved7], exec i s = .next t) ∨
      (s.ctl.busy = false ∧ exec .start s = .next t) ∨ t = resetCore s := by
  rcases decodeCmd_cases v with hv | hv | hv | hv | hv | hv | hv | hv <;> rw [hv] at h
  case inr.inl =>
    by_cases hb : s.ctl.busy = true
    · exact .inl ⟨.reserved5, by simp, (if_pos hb).symm.trans h⟩
    · exact .inr (.inl ⟨by simpa using hb, h⟩)
  case inr.inr.inr.inr.inl =>
    by_cases hb : s.ctl.busy = true
    · exact .inl ⟨.reserved5, by simp, (if_pos hb).symm.trans h⟩
    · exact .inr (.inr (Host.Outcome.next.inj ((if_neg hb).symm.trans h)).symm)
  all_goals exact .inl ⟨_, by simp, h⟩

/-- `P` says nothing of what the host changes outside a command. -/
def IgnoresHost (P : State → Prop) : Prop :=
  ∀ (s : State) (host : List HostAct) (len rdata : Word) (draws : Nat) (inPort : List Token) (outAns : List Answer),
    P s → P { s with host := host, len := len, rdata := rdata, draws := draws, inPort := inPort, outAns := outAns }

/-- A predicate holds behind every step from a state where it holds, if the operations keep it, START and reset establish
it, and it ignores the host. -/
theorem step_induct {P : State → Prop}
    (hop : ∀ (i : Instr) (s t : State), Runs s i → P s → exec i s = .next t → P t)
    (hstart : ∀ s t : State, s.ctl.busy = false → P s → exec .start s = .next t → P t)
    (hreset : ∀ s : State, P (resetCore s))
    (hhost : IgnoresHost P) {s t : State} (hs : P s) (h : step s = .next t) : P t := by
  rcases step_cases h with ⟨i, u, hi, he, hu⟩ | ⟨v, rest, -, he⟩ | ⟨rest, -, he⟩ | ht
  · have hPu : P u := by
      rcases hu with rfl | ⟨rest, -, rfl⟩
      · exact hs
      · exact hhost s rest s.len s.rdata s.draws s.inPort s.outAns hs
    exact runWhole_induct (fun j a b hj => hop j a b (.inl (nextInstr_nextOp hj))) hi hPu he
  · have hPu := hhost s rest s.len s.rdata s.draws s.inPort s.outAns hs
    rcases command_cases he with ⟨i, hi, he⟩ | ⟨hb, he⟩ | rfl
    · exact hop i _ t (.inr hi) hPu he
    · exact hstart _ t hb hPu he
    · exact hreset _
  · obtain rfl := Host.Outcome.next.inj he
    exact hreset _
  · rw [ht]
    exact hhost s _ _ _ _ _ _ hs

end Sys2Proof.Machine

/-! ## The place agrees with the control state (R21, R206, R251) -/

namespace Sys2Proof.Machine

theorem execStart_result {s t : State} (hb : s.ctl.busy = false) (h : exec .start s = .next t) :
    t.pos = .sig ∧ t.ctl = .starting ∧ t.errCode = .none ∧ t.errStage = .none ∧ t.level = 0 ∧ t.dbufSize = 0 ∧
      t.dbufCount = 0 := by
  obtain rfl := Host.Outcome.next.inj ((if_neg (by simp [hb])).symm.trans h)
  exact ⟨rfl, rfl, rfl, rfl, rfl, rfl, rfl⟩

theorem Moves.placeWf {i : Instr} {s t : State} (h : Moves i s t) (hi : Runs s i) (hs : s.placeWf = true) :
    t.placeWf = true := by
  rw [placeWf_eq] at *
  cases h with
  | stays h =>
    obtain ⟨hp, hc, -⟩ := h
    rwa [hp, hc]
  | goes hx => exact hi.exits_placed hs hx
  | raises hp hc =>
    rw [hp, hc]
    rfl

theorem execStart_placeWf {s t : State} (hb : s.ctl.busy = false) (h : exec .start s = .next t) :
    t.placeWf = true := by
  obtain ⟨hp, hc, -⟩ := execStart_result hb h
  rw [placeWf_eq, hp, hc]
  rfl

theorem step_placeWf {s t : State} (hs : s.placeWf = true) (h : step s = .next t) : t.placeWf = true :=
  step_induct (P := fun u => u.placeWf = true) (fun _ _ _ hi hu he => (hi.ends he).moves.placeWf hi hu)
    (fun _ _ hb _ he => execStart_placeWf hb he) (fun _ => rfl) (fun _ _ _ _ _ _ _ hu => hu) hs h

/-- `step_induct` from a state whose place and control state agree. -/
theorem step_induct_placed {P : State → Prop}
    (hop : ∀ (i : Instr) (s t : State), Runs s i → s.placeWf = true → P s → exec i s = .next t → P t)
    (hstart : ∀ s t : State, s.ctl.busy = false → P s → exec .start s = .next t → P t)
    (hreset : ∀ s : State, P (resetCore s))
    (hhost : IgnoresHost P) {s t : State} (hp : s.placeWf = true) (hs : P s) (h : step s = .next t) : P t := by
  refine (step_induct (P := fun u => u.placeWf = true ∧ P u) ?_ ?_ ?_ ?_ ⟨hp, hs⟩ h).2
  · exact fun i u v hi hu he => ⟨(hi.ends he).moves.placeWf hi hu.1, hop i u v hi hu.1 hu.2 he⟩
  · exact fun u v hb hu he => ⟨execStart_placeWf hb he, hstart u v hb hu.2 he⟩
  · exact fun u => ⟨rfl, hreset u⟩
  · exact fun u a b c d e f hu => ⟨hu.1, hhost u a b c d e f hu.2⟩

/-! ### No step ends inside the inverse BWT -/

/-- A place inside the inverse BWT, behind ORIG_CHECK and before the end of CHAIN_SEED (R206). -/
def insideBwt (p : Pos) : Prop := p ∈ [.bucketStart, .chainBuild, .chainSeed]

theorem Moves.not_insideBwt {i : Instr} {s t : State} (h : Moves i s t)
    (hi : i ≠ .origCheck ∧ i ≠ .bucketStart ∧ i ≠ .chainBuild) (hs : ¬ insideBwt s.pos) : ¬ insideBwt t.pos := by
  cases h with
  | stays h => exact h.pos ▸ hs
  | goes hx =>
    intro ht
    rcases exits_insideBwt _ _ _ hx ht with h | h | h
    · exact hi.1 h
    · exact hi.2.1 h
    · exact hi.2.2 h
  | raises hp => simp [insideBwt, hp]

theorem execChainSeed_pos {s t : State} (h : exec .chainSeed s = .next t) : t.pos = .drive := by
  have hexec : execChainSeed s = .next t := h
  unfold execChainSeed guardIx at hexec
  dsimp only at hexec
  split at hexec
  · obtain rfl := Host.Outcome.next.inj hexec
    exact goto_pos _ _
  · cases hexec

theorem runWhole_chainBuild_pos {s t : State} (h : runWhole .chainBuild s = .next t) : t.pos = .drive := by
  cases hb : exec .chainBuild s with
  | next c =>
    rw [runWhole_chainBuild hb] at h
    exact execChainSeed_pos h
  | fault | refused =>
    rw [runWhole_eq (.inr (.inr ⟨rfl, rfl⟩)), hb] at h
    cases h

/-- A step that starts at ORIG_CHECK ends in its error or behind CHAIN_SEED. -/
theorem runWhole_origCheck_pos {s t : State} (h : runWhole .origCheck s = .next t) :
    t.pos = .idle ∨ t.pos = .drive := by
  by_cases herr : s.dbufCount.toNat ≤ s.origPtr.toNat
  · rw [runWhole_origCheck_error herr, execOrigCheck_error herr] at h
    obtain rfl := Host.Outcome.next.inj h
    exact .inl (raiseError_pos _ _ _)
  · rw [runWhole_origCheck (execOrigCheck_ok (by omega)) (goto_pos _ _), runWhole_bucketStart rfl] at h
    exact .inr (runWhole_chainBuild_pos h)

/-- The core's own step starts inside the inverse BWT or does not end there. -/
theorem runWhole_not_insideBwt {i : Instr} {s t : State} (hi : nextInstr s = some i) (hs : ¬ insideBwt s.pos)
    (h : runWhole i s = .next t) : ¬ insideBwt t.pos := by
  have hop := nextInstr_nextOp hi
  by_cases horig : i = .origCheck
  · subst horig
    rcases runWhole_origCheck_pos h with hp | hp <;> simp [insideBwt, hp]
  · have hne : i ≠ .origCheck ∧ i ≠ .bucketStart ∧ i ≠ .chainBuild := by
      refine ⟨horig, ?_, ?_⟩
      all_goals
        rintro rfl
        cases hop with
        | own hp => simp [insideBwt, ← hp, home] at hs
    rw [runWhole_eq_exec hne] at h
    exact (Runs.ends (.inl hop) h).moves.not_insideBwt hne hs

theorem step_not_insideBwt {s t : State} (hs : ¬ insideBwt s.pos) (h : step s = .next t) : ¬ insideBwt t.pos := by
  rcases step_cases h with ⟨i, u, hi, he, hu⟩ | ⟨v, rest, -, he⟩ | ⟨rest, -, he⟩ | ht
  · refine runWhole_not_insideBwt hi ?_ he
    rcases hu with rfl | ⟨rest, -, rfl⟩ <;> exact hs
  · rcases command_cases he with ⟨i, hi, he⟩ | ⟨hb, he⟩ | rfl
    · refine (Runs.ends (.inr hi) he).moves.not_insideBwt ?_ hs
      rcases Runs.command_cases hi with rfl | rfl | rfl | rfl | rfl | rfl <;> simp
    · simp [insideBwt, (execStart_result hb he).1]
    · simp [insideBwt, resetCore, State.reset]
  · obtain rfl := Host.Outcome.next.inj he
    simp [insideBwt, resetCore, State.reset]
  · rw [ht]
    exact hs

/-- Settles O8: an operation's exits are places of its control state, and only ORIG_CHECK, whose step goes on to the end
of CHAIN_SEED, leads inside the inverse BWT. -/
theorem placeAgreesWithControlState : Obligations.PlaceAgreesWithControlState := by
  unfold Obligations.PlaceAgreesWithControlState
  exact fun s t hs h => ⟨step_placeWf hs h, fun hp => step_not_insideBwt hp h⟩

/-! ## The error record is there in ERROR and nowhere else (R29, R30, R280, R283) -/

theorem errWf_iff {s : State} : s.errWf = true ↔
    (s.errCode ≠ .none ↔ s.ctl = .error) ∧ (s.errStage ≠ .none ↔ s.errCode ≠ .none) := by
  rw [State.errWf, Bool.and_eq_true, beq_iff_eq.trans Bool.eq_iff_iff, beq_iff_eq.trans Bool.eq_iff_iff]
  simp only [bne_iff_ne, beq_iff_eq]

theorem Moves.errWf {i : Instr} {s t : State} (h : Moves i s t) (hi : Runs s i) (hp : s.placeWf = true)
    (hs : s.errWf = true) : t.errWf = true := by
  rw [errWf_iff] at *
  cases h with
  | stays h =>
    obtain ⟨-, hc, hcode, hst⟩ := h
    rwa [hc, hcode, hst]
  | goes hx he =>
    have hctl : t.ctl ≠ .error := by
      intro ht
      rcases exits_ctl _ _ _ hx with h | ⟨h, -⟩ | h
      · exact hi.ctl_ne_error hp hx (h.symm.trans ht)
      · simp [ht] at h
      · simp [ht] at h
    rw [he.code, he.stage]
    simpa [hctl, hi.ctl_ne_error hp hx] using hs
  | raises hp hc he =>
    obtain ⟨hcode, hst⟩ := he hi.namesError
    simp [hcode, hst, hc]

/-- Settles O9: an operation that raises no error keeps the record and does not go on in ERROR, one that does writes a
code and a stage, and START and reset clear both. -/
theorem errorRecordExactlyInError : Obligations.ErrorRecordExactlyInError := by
  unfold Obligations.ErrorRecordExactlyInError
  intro s t hp hs h
  refine step_induct_placed (P := fun u => u.errWf = true) ?_ ?_ ?_ ?_ hp hs h
  · exact fun i u v hi hp hu he => (hi.ends he).moves.errWf hi hp hu
  · intro u v hb _ he
    obtain ⟨-, hc, hcode, hst, -⟩ := execStart_result hb he
    rw [errWf_iff, hc, hcode, hst]
    simp
  · exact fun u => rfl
  · exact fun u _ _ _ _ _ _ hu => hu

end Sys2Proof.Machine

/-! ## DBUF_COUNT never exceeds DBUF_SIZE (R32, R39, R176, R178) -/

namespace Sys2Proof.Machine

/-- DBUF_SIZE = 100000 * LEVEL with LEVEL at most 9, and DBUF_COUNT does not exceed it. -/
structure SizeOk (s : State) : Prop where
  level : s.level.toNat ≤ 9
  size : s.dbufSize.toNat = 100000 * s.level.toNat
  count : s.dbufCount.toNat ≤ s.dbufSize.toNat

theorem sizeWf_iff {s : State} : s.sizeWf = true ↔ SizeOk s ∧ (s.ctl = .starting → s.dbufCount.toNat = 0) := by
  simp only [State.sizeWf, Bool.and_eq_true, decide_eq_true_eq, Bool.or_eq_true, Bool.not_eq_true', beq_eq_false_iff_ne,
    ← imp_iff_not_or]
  exact ⟨fun ⟨⟨⟨h1, h2⟩, h3⟩, h4⟩ => ⟨⟨h1, h2, h3⟩, h4⟩, fun ⟨⟨h1, h2, h3⟩, h4⟩ => ⟨⟨⟨h1, h2⟩, h3⟩, h4⟩⟩

theorem SizeOk.size_le {s : State} (h : SizeOk s) : s.dbufSize.toNat ≤ 900000 := by
  have := h.level
  have := h.size
  omega

theorem size_writers {i : Instr} (hc : i ∉ clearing) (h : .size ∈ writes i) : ∃ b, i = .level b := by
  cases i <;> simp [writes, clearing] at h hc ⊢

theorem fill_writers {i : Instr} (hc : i ∉ clearing) (h : .fill ∈ writes i) :
    i = .symInit ∨ i = .runFlush ∨ i = .symEob ∨ ∃ sym, i = .symLiteral sym := by
  cases i <;> simp [writes, clearing] at h hc ⊢

section

variable {s t : State}

theorem Frame.sizeOk {i : Instr} (hf : Frame i s t) (hsize : .size ∉ writes i) (hfill : .fill ∉ writes i)
    (hs : SizeOk s) : SizeOk t where
  level := hf.level hsize ▸ hs.level
  size := hf.dbufSize hsize ▸ hf.level hsize ▸ hs.size
  count := hf.dbufSize hsize ▸ hf.dbufCount hfill ▸ hs.count

theorem execLevel_sizeOk (b : Byte) (hs : SizeOk s) (hempty : s.dbufCount.toNat = 0) :
    NextSatisfies SizeOk (execLevel b s) := by
  unfold execLevel
  split
  · exact { hs with }
  · next hb =>
    have hlevel : (BitVec.ofNat 4 (b.toNat - 0x30)).toNat = b.toNat - 0x30 := by
      rw [BitVec.toNat_ofNat]
      omega
    refine nextSatisfies_next.2 ⟨?_, ?_, ?_⟩
    · simp only [goto_level, hlevel]
      omega
    · simp only [goto_level, goto_dbufSize, hlevel, Config.dbufUnit, BitVec.toNat_ofNat]
      omega
    · simp [hempty]

theorem appendBytes_dbufCount_toNat {n : Nat} (b : Byte) (h : s.dbufCount.toNat + n < 2 ^ 20) :
    (appendBytes n b s).dbufCount.toNat = s.dbufCount.toNat + n := by
  rw [appendBytes_dbufCount, BitVec.toNat_add, BitVec.toNat_ofNat]
  omega

theorem appendBytes_sizeOk {n : Nat} (b : Byte) (hs : SizeOk s) (h : s.dbufCount.toNat + n ≤ s.dbufSize.toNat) :
    SizeOk (appendBytes n b s) where
  level := hs.level
  size := hs.size
  count := by
    have := hs.size_le
    rwa [appendBytes_dbufCount_toNat b (by omega)]

theorem runFlush_sizeOk (hs : SizeOk s) : (runFlush s).Ensures SizeOk := by
  rcases runFlush_cases s with ⟨-, e⟩ | ⟨-, -, e⟩ | ⟨-, hfit, ⟨-, e⟩ | ⟨-, e⟩⟩ <;> rw [e]
  · exact hs
  · exact { hs with }
  · refine appendBytes_sizeOk _ ?_ hfit
    exact { hs with }
  · trivial

theorem literal_sizeOk (sym : Nat) (hs : SizeOk s) : (literal sym s).Ensures SizeOk := by
  rcases literal_cases sym s with ⟨-, e⟩ | ⟨hfit, ⟨-, e⟩ | ⟨-, -, e⟩ | ⟨-, -, e⟩⟩ <;> rw [e]
  · exact { hs with }
  · trivial
  · trivial
  · refine appendBytes_sizeOk _ ?_ hfit
    exact { hs with }

theorem execSymInit_sizeOk (hs : SizeOk s) : NextSatisfies SizeOk (execSymInit s) := by
  unfold execSymInit
  exact { level := hs.level, size := hs.size, count := Nat.zero_le _ }

theorem execSymLiteral_sizeOk (sym : BitVec 9) (hs : SizeOk s) : NextSatisfies SizeOk (execSymLiteral sym s) :=
  .out ((runFlush_sizeOk hs).bind fun _ hu => (literal_sizeOk _ hu).bind fun _ hv => Act.ensures_go.2 { hv with }) hs

theorem execSymEob_sizeOk (hs : SizeOk s) : NextSatisfies SizeOk (execSymEob s) :=
  .out ((runFlush_sizeOk hs).bind fun _ hu => Act.ensures_go.2 { hu with }) hs

/-- Every operation that a step runs keeps the sizes; LEVEL is run with nothing in DBUF. -/
theorem exec_sizeOk {i : Instr} (hi : i ∉ clearing) (hs : SizeOk s)
    (hempty : ∀ b, i = .level b → s.dbufCount.toNat = 0) : NextSatisfies SizeOk (exec i s) := by
  by_cases hsize : .size ∈ writes i
  · obtain ⟨b, rfl⟩ := size_writers hi hsize
    exact execLevel_sizeOk b hs (hempty b rfl)
  by_cases hfill : .fill ∈ writes i
  · rcases fill_writers hi hfill with rfl | rfl | rfl | ⟨sym, rfl⟩
    · exact execSymInit_sizeOk hs
    · exact .out (runFlush_sizeOk hs) hs
    · exact execSymEob_sizeOk hs
    · exact execSymLiteral_sizeOk sym hs
  exact (exec_frame s i).mono fun _ hf => hf.sizeOk hsize hfill hs

/-- An operation of the place runs in the control state of the place. -/
theorem Runs.ctl_of_home {i : Instr} {c : Ctl} (h : Runs s i) (hs : s.placeWf = true)
    (hc : placeCtl (home i) = some c) : s.ctl = c := by
  rcases h with h | h
  · have hp := h.placeCtl hs
    cases h with
    | own he => exact Option.some.inj (hp.symm.trans (he ▸ hc))
    | fetch | read | illegal => cases hc
  · rcases Runs.command_cases h with rfl | rfl | rfl | rfl | rfl | rfl <;> cases hc

/-- In STARTING nothing is put into DBUF. -/
theorem Runs.not_fill_starting {i : Instr} (h : Runs s i) (hs : s.placeWf = true) (hc : s.ctl = .starting) :
    .fill ∉ writes i := by
  intro hfill
  rcases fill_writers h.not_clearing hfill with rfl | rfl | rfl | ⟨sym, rfl⟩
  all_goals
    have := h.ctl_of_home hs rfl
    rw [hc] at this
    cases this

theorem Runs.sizeWf {i : Instr} (h : Runs s i) (hp : s.placeWf = true) (hs : s.sizeWf = true)
    (he : exec i s = .next t) : t.sizeWf = true := by
  obtain ⟨hok, hempty⟩ := sizeWf_iff.1 hs
  refine sizeWf_iff.2 ⟨(exec_sizeOk h.not_clearing hok ?_).of_next he, fun ht => ?_⟩
  · rintro b rfl
    exact hempty (h.ctl_of_home hp rfl)
  · have hc : s.ctl = .starting := by
      rcases (h.ends he).moves.ctl_cases with hc | ⟨hc, -⟩ | hc
      · exact hc ▸ ht
      · simp [ht] at hc
      · simp [ht] at hc
    rw [(h.ends he).frame.dbufCount (h.not_fill_starting hp hc)]
    exact hempty hc

theorem execStart_sizeWf (hb : s.ctl.busy = false) (he : exec .start s = .next t) : t.sizeWf = true := by
  obtain ⟨-, -, -, -, hlevel, hsize, hcount⟩ := execStart_result hb he
  refine sizeWf_iff.2 ⟨⟨?_, ?_, ?_⟩, ?_⟩ <;> simp [hlevel, hsize, hcount]

end

/-- Settles O10: LEVEL sets both sizes while DBUF is empty, and a run or a literal is appended only where it fits. -/
theorem bufferNeverExceedsItsSize : Obligations.BufferNeverExceedsItsSize := by
  unfold Obligations.BufferNeverExceedsItsSize
  exact fun s t hp hs h => step_induct_placed (P := fun u => u.sizeWf = true)
    (fun _ _ _ hi hp hu he => hi.sizeWf hp hu he) (fun _ _ hb _ he => execStart_sizeWf hb he) (fun _ => rfl)
    (fun _ _ _ _ _ _ _ hu => hu) hp hs h

end Sys2Proof.Machine

/-! ## BYTE_COUNT counts the words of DBUF (R50, R176, R178, R180) -/

namespace Sys2Proof.Machine

/-- BYTE_COUNT[b] is the number of DBUF words with low byte `b`, and the pointers of the words are still 0. -/
structure CountsDbuf (s : State) : Prop where
  counts : ∀ b : Byte, (byteCountAt s b.toNat).toNat = bytesOf s s.dbufCount.toNat b
  pointers : ∀ i, i < s.dbufCount.toNat → wordNext (dbufAt s i) = 0

theorem countWf_iff {s : State} : s.countWf ↔ (s.ctl = .symbols → CountsDbuf s) :=
  ⟨fun h hc => ⟨(h hc).1, (h hc).2⟩, fun h hc => ⟨(h hc).counts, (h hc).pointers⟩⟩

theorem words_writers {i : Instr} (hc : i ∉ clearing) (h : .words ∈ writes i) :
    .fill ∈ writes i ∨ i = .bucketStart ∨ i = .chainBuild := by
  cases i <;> simp [writes, clearing] at h hc ⊢

section

variable {s t : State}

/-- The counts rest on DBUF, BYTE_COUNT and the free values of their unwritten entries alone. -/
theorem CountsDbuf.congr (hs : CountsDbuf s) (hcount : t.dbufCount = s.dbufCount) (hdbuf : t.dbuf = s.dbuf)
    (hbytes : t.byteCount = s.byteCount) (hepoch : t.epoch = s.epoch) : CountsDbuf t := by
  have hword (i : Nat) : dbufAt t i = dbufAt s i := by rw [dbufAt, dbufAt, hdbuf, hepoch]
  have hbyte (c : Nat) : byteCountAt t c = byteCountAt s c := by rw [byteCountAt, byteCountAt, hbytes, hepoch]
  constructor
  · intro b
    rw [hbyte, hs.counts, hcount]
    simp only [bytesOf, hword]
  · intro i hi
    rw [hword]
    exact hs.pointers i (hcount ▸ hi)

/-! ### Appending to DBUF -/

theorem dbufAt_appendBytes (n : Nat) (b : Byte) (s : State) (i : Nat) :
    dbufAt (appendBytes n b s) i =
      if s.dbufCount.toNat ≤ i ∧ i < s.dbufCount.toNat + n then b.setWidth 32 else dbufAt s i := by
  simp only [dbufAt, appendBytes_dbuf, appendBytes_epoch, memRead_memWriteSeq, List.length_replicate,
    List.getElem_replicate, dite_eq_ite]

theorem byteCountAt_appendBytes (n : Nat) (b : Byte) (s : State) (c : Nat) :
    byteCountAt (appendBytes n b s) c =
      if b.toNat = c then byteCountAt s b.toNat + BitVec.ofNat 20 n else byteCountAt s c := by
  simp only [byteCountAt, appendBytes_byteCount, appendBytes_epoch, memRead_memWrite]

theorem wordByte_setWidth (b : Byte) : wordByte (b.setWidth 32) = b := by
  simp [wordByte]

theorem wordNext_setWidth (b : Byte) : wordNext (b.setWidth 32) = 0 := by
  apply BitVec.eq_of_toNat_eq
  have := b.isLt
  simp only [wordNext, BitVec.toNat_setWidth, BitVec.toNat_ushiftRight, Nat.shiftRight_eq_div_pow]
  change _ = 0
  omega

theorem bytesOf_le (s : State) (n : Nat) (b : Byte) : bytesOf s n b ≤ n := by
  simpa [bytesOf] using List.length_filter_le (fun i => decide (wordByte (dbufAt s i) = b)) (List.range n)

theorem bytesOf_add (s : State) (m n : Nat) (b : Byte) :
    bytesOf s (m + n) b =
      bytesOf s m b + ((List.range n).filter fun i => decide (wordByte (dbufAt s (m + i)) = b)).length := by
  simp [bytesOf, List.range_add, List.filter_append, List.filter_map, Function.comp_def]

theorem bytesOf_appendBytes (n : Nat) (b c : Byte) (s : State) :
    bytesOf (appendBytes n b s) (s.dbufCount.toNat + n) c =
      bytesOf s s.dbufCount.toNat c + if b = c then n else 0 := by
  rw [bytesOf_add]
  congr 1
  · refine congrArg List.length (List.filter_congr fun i hi => ?_)
    have := List.mem_range.1 hi
    rw [dbufAt_appendBytes, if_neg (by omega)]
  · have hnew : ∀ i ∈ List.range n,
        decide (wordByte (dbufAt (appendBytes n b s) (s.dbufCount.toNat + i)) = c) = decide (b = c) := by
      intro i hi
      have := List.mem_range.1 hi
      rw [dbufAt_appendBytes, if_pos (by omega), wordByte_setWidth]
    rw [List.filter_congr hnew]
    by_cases h : b = c <;> simp [h]

/-- Appending and counting `n` copies of a byte keeps the counts exact, where they fit DBUF. -/
theorem appendBytes_countsDbuf {n : Nat} (b : Byte) (hs : CountsDbuf s) (h : s.dbufCount.toNat + n < 2 ^ 20) :
    CountsDbuf (appendBytes n b s) where
  counts c := by
    have hle := bytesOf_le s s.dbufCount.toNat b
    rw [appendBytes_dbufCount_toNat b h, bytesOf_appendBytes, byteCountAt_appendBytes]
    by_cases hbc : b = c
    · subst hbc
      rw [if_pos rfl, if_pos rfl, BitVec.toNat_add, hs.counts, BitVec.toNat_ofNat]
      omega
    · rw [if_neg (fun he => hbc (BitVec.eq_of_toNat_eq he)), if_neg hbc, hs.counts, Nat.add_zero]
  pointers i hi := by
    rw [appendBytes_dbufCount_toNat b h] at hi
    rw [dbufAt_appendBytes]
    split
    · exact wordNext_setWidth b
    · exact hs.pointers i (by omega)

/-! ### Each operation keeps the counts -/

theorem Act.Ensures.and {P Q : State → Prop} {a : Act} (hP : a.Ensures P) (hQ : a.Ensures Q) :
    a.Ensures fun u => P u ∧ Q u := by
  cases a with
  | go u | halt u => exact ⟨hP, hQ⟩
  | hold | fault | refuse => trivial

theorem runFlush_countsDbuf (hsize : SizeOk s) (hs : CountsDbuf s) : (runFlush s).Ensures CountsDbuf := by
  have hle := hsize.size_le
  rcases runFlush_cases s with ⟨-, e⟩ | ⟨-, -, e⟩ | ⟨-, hfit, ⟨-, e⟩ | ⟨-, e⟩⟩ <;> rw [e]
  · exact hs
  · exact hs.congr rfl rfl rfl rfl
  · refine appendBytes_countsDbuf _ (hs.congr rfl rfl rfl rfl) ?_
    exact Nat.lt_of_le_of_lt hfit (by omega)
  · trivial

theorem literal_countsDbuf (sym : Nat) (hsize : SizeOk s) (hs : CountsDbuf s) :
    (literal sym s).Ensures CountsDbuf := by
  have hle := hsize.size_le
  rcases literal_cases sym s with ⟨-, e⟩ | ⟨hfit, ⟨-, e⟩ | ⟨-, -, e⟩ | ⟨-, -, e⟩⟩ <;> rw [e]
  · exact hs.congr rfl rfl rfl rfl
  · trivial
  · trivial
  · refine appendBytes_countsDbuf _ (hs.congr rfl rfl rfl rfl) ?_
    exact Nat.lt_of_le_of_lt (Nat.succ_le_of_lt hfit) (by omega)

theorem execSymLiteral_countsDbuf (sym : BitVec 9) (hsize : SizeOk s) (hs : CountsDbuf s) :
    NextSatisfies CountsDbuf (execSymLiteral sym s) := by
  have hflush := (runFlush_sizeOk hsize).and (runFlush_countsDbuf hsize hs)
  refine NextSatisfies.mono (.out (hflush.bind fun u hu => ?_) ⟨hsize, hs⟩) fun _ => And.right
  have hlit := (literal_sizeOk sym.toNat hu.1).and (literal_countsDbuf sym.toNat hu.1 hu.2)
  exact hlit.bind fun _ hv => Act.ensures_go.2 ⟨{ hv.1 with }, hv.2.congr rfl rfl rfl rfl⟩

theorem execSymEob_countsDbuf (hsize : SizeOk s) (hs : CountsDbuf s) : NextSatisfies CountsDbuf (execSymEob s) :=
  .out ((runFlush_countsDbuf hsize hs).bind fun _ hu => Act.ensures_go.2 (hu.congr rfl rfl rfl rfl)) hs

/-- SYM_INIT empties DBUF and sets the 256 counts to 0 (R170). -/
theorem execSymInit_countsDbuf (s : State) : NextSatisfies CountsDbuf (execSymInit s) := by
  unfold execSymInit
  refine nextSatisfies_next.2 ⟨fun b => ?_, fun i hi => absurd hi (Nat.not_lt_zero i)⟩
  have hb : 0 ≤ b.toNat ∧ b.toNat < 0 + (List.replicate 256 (0 : BitVec 20)).length := by
    rw [List.length_replicate]
    have := b.isLt
    omega
  rw [byteCountAt, goto_byteCount, memRead_memWriteSeq, dif_pos hb, List.getElem_replicate]
  rfl

/-- A core in SYMBOLS keeps the counts, whatever a step runs there. -/
theorem exec_countsDbuf {i : Instr} (hi : Runs s i) (hp : s.placeWf = true) (hc : s.ctl = .symbols) (hsize : SizeOk s)
    (hs : CountsDbuf s) : NextSatisfies CountsDbuf (exec i s) := by
  by_cases hwords : .words ∈ writes i
  · rcases words_writers hi.not_clearing hwords with hfill | rfl | rfl
    · rcases fill_writers hi.not_clearing hfill with rfl | rfl | rfl | ⟨sym, rfl⟩
      · exact execSymInit_countsDbuf s
      · exact .out (runFlush_countsDbuf hsize hs) hs
      · exact execSymEob_countsDbuf hsize hs
      · exact execSymLiteral_countsDbuf sym hsize hs
    all_goals
      have := hi.ctl_of_home hp rfl
      rw [hc] at this
      cases this
  · have hfill : .fill ∉ writes i := by
      intro h
      rcases fill_writers hi.not_clearing h with rfl | rfl | rfl | ⟨sym, rfl⟩ <;> simp [writes] at hwords
    exact (exec_frame s i).mono fun _ hf =>
      hs.congr (hf.dbufCount hfill) (hf.dbuf hwords) (hf.byteCount hwords) (hf.epoch hwords)

theorem Runs.countWf {i : Instr} (hi : Runs s i) (hp : s.placeWf = true) (hsize : SizeOk s) (hs : s.countWf)
    (he : exec i s = .next t) : t.countWf := by
  rw [countWf_iff] at *
  intro ht
  rcases (hi.ends he).moves.ctl_cases with hc | ⟨-, rfl⟩ | hc
  · rw [hc] at ht
    exact (exec_countsDbuf hi hp ht hsize (hs ht)).of_next he
  · exact (execSymInit_countsDbuf s).of_next he
  · simp [ht] at hc

end

/-- Settles O12: SYM_INIT clears the counts, and what appends a byte to DBUF counts it in the same step. -/
theorem byteCountsCountTheBuffer : Obligations.ByteCountsCountTheBuffer := by
  unfold Obligations.ByteCountsCountTheBuffer
  intro s t hp hsize hs h
  refine (step_induct_placed (P := fun u => u.sizeWf = true ∧ u.countWf) ?_ ?_ ?_ ?_ hp ⟨hsize, hs⟩ h).2
  · exact fun i u v hi hp hu he => ⟨hi.sizeWf hp hu.1 he, hi.countWf hp (sizeWf_iff.1 hu.1).1 hu.2 he⟩
  · intro u v hb hu he
    refine ⟨execStart_sizeWf hb he, fun hc => ?_⟩
    simp [(execStart_result hb he).2.1] at hc
  · exact fun u => ⟨rfl, nofun⟩
  · exact fun u _ _ _ _ _ _ hu => hu

end Sys2Proof.Machine

/-! ## W_RUN stays in its range (R51, R213) -/

namespace Sys2Proof.Machine

theorem run_writers {i : Instr} (hc : i ∉ clearing) (h : .run ∈ writes i) :
    i = .chainSeed ∨ i = .chainStep ∨ i = .rle4 := by
  cases i <;> simp [writes, clearing] at h hc ⊢

theorem runWf_iff {s : State} : s.runWf = true ↔ -1 ≤ s.wRun.toInt := decide_eq_true_iff

section

variable {s : State}

theorem chainCount_runWf (s : State) : (chainCount s).runWf = true := rfl

/-- One more equal byte is counted only below 3, so the count does not wrap to -4 (R213). -/
theorem chainByte_runWf (hs : s.runWf = true) (hrun : s.wRun ≠ 3) : (chainByte s).runWf = true := by
  have hstep : ∀ r : BitVec 3, -1 ≤ r.toInt → r ≠ 3 → -1 ≤ (r + 1).toInt := by decide
  rw [runWf_iff] at *
  unfold chainByte
  dsimp only
  split
  · exact hstep s.wRun hs hrun
  · decide

theorem execChainStep_runWf (hs : s.runWf = true) :
    NextSatisfies (fun t => t.runWf = true) (execChainStep s) := by
  refine .out (.guardIx fun _ => ?_) hs
  split
  · exact chainCount_runWf s
  · next hrun => exact chainByte_runWf hs hrun

theorem execRle4_runWf (hs : s.runWf = true) : NextSatisfies (fun t => t.runWf = true) (execRle4 s) :=
  .ite (fun _ => .out (.guardIx fun _ => chainCount_runWf s) hs) fun _ => hs

theorem execChainSeed_runWf (hs : s.runWf = true) : NextSatisfies (fun t => t.runWf = true) (execChainSeed s) :=
  .out (.guardIx fun _ => rfl) hs

theorem exec_runWf {i : Instr} (hi : i ∉ clearing) (hs : s.runWf = true) :
    NextSatisfies (fun t => t.runWf = true) (exec i s) := by
  by_cases hrun : .run ∈ writes i
  · rcases run_writers hi hrun with rfl | rfl | rfl
    · exact execChainSeed_runWf hs
    · exact execChainStep_runWf hs
    · exact execRle4_runWf hs
  · refine (exec_frame s i).mono fun t hf => ?_
    rwa [runWf_iff, hf.wRun hrun, ← runWf_iff]

end

/-- Settles O13: CHAIN_SEED starts W_RUN at -1, a chain step counts it up only below 3, and nothing else writes it but
reset. -/
theorem runCounterStaysInRange : Obligations.RunCounterStaysInRange := by
  unfold Obligations.RunCounterStaysInRange
  exact fun s t hs h => step_induct (P := fun u => u.runWf = true)
    (fun _ _ _ hi hu he => (exec_runWf hi.not_clearing hu).of_next he)
    (fun u v _ hu he => by
      rwa [runWf_iff, ((exec_frame u .start).of_next he).wRun (by simp [writes]), ← runWf_iff])
    (fun _ => rfl) (fun _ _ _ _ _ _ _ hu => hu) hs h

/-! ## The ports and LEN change only by their operations (R24, R122, R123, R214, R245) -/

theorem tokens_writers {i : Instr} (h : .tokens ∈ writes i) :
    i = .fetchByte ∨ (∃ n, i = .readBits n) ∨ (∃ m, i = .readWide m) ∨ i = .huffDecode := by
  cases i <;> simp [writes] at h ⊢

theorem output_writers {i : Instr} (h : .output ∈ writes i) : i = .emitPend ∨ ∃ b, i = .emit b := by
  cases i <;> simp [writes] at h ⊢

theorem len_writers {i : Instr} (h : .len ∈ writes i) : i = .release ∨ i = .reset := by
  cases i <;> simp [writes] at h ⊢

/-- Settles O16: an operation that changes one of these parts writes it. -/
theorem portsAndLenOnlyByTheirOperations : Obligations.PortsAndLenOnlyByTheirOperations := by
  unfold Obligations.PortsAndLenOnlyByTheirOperations
  intro i s t he
  have hf : Frame i s t := (exec_frame s i).of_next he
  refine ⟨fun h => tokens_writers ?_, fun h => output_writers ?_, fun h => len_writers ?_⟩ <;> by_contra hw
  · exact h (hf.inPort hw)
  · exact h.elim (fun ho => ho (hf.out hw)) fun ha => ha (hf.outAns hw)
  · exact h (hf.len hw)

end Sys2Proof.Machine

/-! ## Reset, RELEASE and the register port (R24, R44, R53, R61, R68, R70, R245, R300, R301) -/

namespace Sys2Proof.Machine

/-- Settles O6: no invariant is in force but the ranges, which the reset values meet. -/
theorem resetStateIsSound : Obligations.ResetStateIsSound := by
  unfold Obligations.ResetStateIsSound
  exact ⟨reset_memWf, rfl, rfl, rfl, rfl, ⟨Nat.zero_le _, nofun⟩, nofun⟩

theorem ite_eq_of_both {α : Type} {p : Prop} [Decidable p] {a b x : α} (ha : a = x) (hb : b = x) :
    (if p then a else b) = x := by
  rw [ha, hb, ite_self]

theorem regValue_reset (off : Nat) : regValue State.reset off = if off = 0x3C then 0x425A6831 else 0 := by
  by_cases h : off = 0x3C
  · subst h
    rfl
  · rw [if_neg h, regValue, if_neg h]
    iterate 15 refine ite_eq_of_both rfl ?_
    rfl

/-- Settles O28: the constant of ID apart, every branch of the register map is 0. -/
theorem registersAfterReset : Obligations.RegistersAfterReset := regValue_reset

/-- Settles O27: RESET and an accepted RELEASE are both `resetCore`, which starts from the reset state. -/
theorem releaseAndResetGiveResetValues : Obligations.ReleaseAndResetGiveResetValues := by
  unfold Obligations.ReleaseAndResetGiveResetValues
  intro s
  refine ⟨resetCore s, rfl, fun hb => if_neg (by simp [hb]), rfl, fun off => rfl, rfl⟩

/-! ### Accesses of the register port -/

theorem regAccessOk_eq {off size : Nat} : regAccessOk off size = true ↔ size = 4 ∧ off % 4 = 0 := by
  simp [regAccessOk]

section

variable {s : State} {rest : List HostAct} {off size : Nat} {v : Word}

theorem step_read (h : s.host = .read off 4 :: rest) (hoff : off % 4 = 0) :
    step s = .next (readRegister off { s with host := rest }) :=
  step_of_stay (by simp [nextTurn, h, hostTurn, regAccessOk, hoff])

theorem step_write (h : s.host = .write off 4 v :: rest) (hoff : off % 4 = 0) (hcmd : off ≠ 0) :
    step s = .next (writeRegister off v { s with host := rest }) :=
  step_of_stay (by simp [nextTurn, h, hostTurn, regAccessOk, hoff, hcmd])

theorem step_access_refused (h : s.host = .read off size :: rest ∨ s.host = .write off size v :: rest)
    (hok : size ≠ 4 ∨ off % 4 ≠ 0) : step s = .refused (.registerAccess off size) := by
  have hbad : regAccessOk off size = false := by
    rw [← Bool.not_eq_true, regAccessOk_eq]
    omega
  rcases h with h | h <;> simp [step, nextTurn, h, hostTurn, hbad]

theorem readRegister_idle (h : s.ctl.busy = false ∨ off = 0x08) :
    readRegister off s = { s with rdata := regValue s off } := by
  refine if_neg ?_
  rcases h with h | h <;> simp [h]

theorem readRegister_busy (hb : s.ctl.busy = true) (hstatus : off ≠ 0x08) (hoff : off < 0x40) :
    readRegister off s = { s with rdata := Config.freeRead s.draws, draws := s.draws + 1 } :=
  if_pos (by simp [hb, hstatus, hoff])

theorem readRegister_unmapped (hoff : 0x40 ≤ off) : readRegister off s = { s with rdata := 0 } := by
  have hval : regValue s off = 0 := by
    rw [regValue]
    iterate 16 rw [if_neg (by omega)]
  rw [← hval]
  exact if_neg (by simp [hoff])

end

/-- Settles O20: one lemma for each kind of access; the map of R69 is `regValue` itself. -/
theorem registerPortAccesses : Obligations.RegisterPortAccesses := by
  unfold Obligations.RegisterPortAccesses
  intro s rest off size v
  refine ⟨fun h hoff => ⟨fun hi => ?_, fun hb hst hlt => ?_, fun hge => ?_⟩,
    fun h hoff => ⟨fun hl => ?_, fun h0 hl => ?_⟩, step_access_refused, rfl, rfl, rfl, rfl, rfl, rfl, rfl, rfl, rfl, rfl, rfl, rfl, rfl, rfl, rfl, rfl⟩
  · rw [step_read h hoff, readRegister_idle (s := { s with host := rest }) hi]
    rfl
  · exact ⟨_, (step_read h hoff).trans (congrArg _ (readRegister_busy (s := { s with host := rest }) hb hst hlt))⟩
  · rw [step_read h hoff, readRegister_unmapped hge]
  · rw [step_write h hoff (by omega), writeRegister, if_pos hl]
  · rw [step_write h hoff h0, writeRegister, if_neg hl]

/-! ### The fields of STATUS and BLOCK_INFO (R21, R25 to R30, R40, R271, R278) -/

/-- The lowest field of a word. -/
theorem append_field_low {m n : Nat} (x : BitVec n) (y : BitVec m) : (x ++ y).extractLsb' 0 m = y := by
  rw [BitVec.extractLsb'_append_eq_of_add_le (by omega), BitVec.extractLsb'_eq_self]

/-- A field `k` bits above a lowest field of `m` bits. -/
theorem append_field_high (m k : Nat) {n l : Nat} (x : BitVec n) (y : BitVec m) :
    (x ++ y).extractLsb' (k + m) l = x.extractLsb' k l := by
  rw [BitVec.extractLsb'_append_eq_of_le (by omega), Nat.add_sub_cancel]

theorem append_bit_low {n : Nat} (x : BitVec n) (b : Bool) : (x ++ BitVec.ofBool b).getLsbD 0 = b := by
  rw [BitVec.getLsbD_append, if_pos (by omega)]
  cases b <;> rfl

theorem append_bit_high (m k : Nat) {n : Nat} (x : BitVec n) (y : BitVec m) :
    (x ++ y).getLsbD (k + m) = x.getLsbD k := by
  rw [BitVec.getLsbD_append, if_neg (by omega), Nat.add_sub_cancel]

section

variable (s : State)

theorem statusWord_state : (statusWord s).extractLsb' 0 4 = s.ctl.code := by
  rw [statusWord, append_field_low]

theorem statusWord_busy : (statusWord s).getLsbD 4 = s.ctl.busy := by
  rw [statusWord, append_bit_high 4 0, append_bit_low]

theorem statusWord_done : (statusWord s).getLsbD 5 = (s.ctl == .done) := by
  rw [statusWord, append_bit_high 4 1, append_bit_high 1 0, append_bit_low]

theorem statusWord_err : (statusWord s).getLsbD 6 = (s.ctl == .error) := by
  rw [statusWord, append_bit_high 4 2, append_bit_high 1 1, append_bit_high 1 0, append_bit_low]

theorem statusWord_cmdRej : (statusWord s).getLsbD 7 = s.cmdRej := by
  rw [statusWord, append_bit_high 4 3, append_bit_high 1 2, append_bit_high 1 1, append_bit_high 1 0,
    append_bit_low]

theorem statusWord_errCode : (statusWord s).extractLsb' 8 4 = errCodeBits s.errCode := by
  rw [statusWord, append_field_high 4 4, append_field_high 1 3, append_field_high 1 2, append_field_high 1 1,
    append_field_high 1 0, append_field_low]

theorem statusWord_errStage : (statusWord s).extractLsb' 12 5 = stageBits s.errStage := by
  rw [statusWord, append_field_high 4 8, append_field_high 1 7, append_field_high 1 6, append_field_high 1 5,
    append_field_high 1 4, append_field_high 4 0, append_field_low]

theorem statusWord_blkLoaded : (statusWord s).getLsbD 17 = s.blkLoaded := by
  rw [statusWord, append_bit_high 4 13, append_bit_high 1 12, append_bit_high 1 11, append_bit_high 1 10,
    append_bit_high 1 9, append_bit_high 4 5, append_bit_high 5 0, append_bit_low]

theorem statusWord_reserved : (statusWord s).extractLsb' 18 14 = 0 := by
  rw [statusWord, append_field_high 4 14, append_field_high 1 13, append_field_high 1 12,
    append_field_high 1 11, append_field_high 1 10, append_field_high 4 6, append_field_high 5 1,
    append_field_high 1 0, BitVec.extractLsb'_eq_self]

theorem blockInfoWord_symTotal : (blockInfoWord s).extractLsb' 0 9 = s.symTotal := by
  rw [blockInfoWord, append_field_low]

theorem blockInfoWord_groupCount : (blockInfoWord s).extractLsb' 9 3 = s.groupCount := by
  rw [blockInfoWord, append_field_high 9 0, append_field_low]

theorem blockInfoWord_nSel : (blockInfoWord s).extractLsb' 12 15 = s.nSel := by
  rw [blockInfoWord, append_field_high 9 3, append_field_high 3 0, append_field_low]

theorem blockInfoWord_reserved : (blockInfoWord s).extractLsb' 27 5 = 0 := by
  rw [blockInfoWord, append_field_high 9 18, append_field_high 3 15, append_field_high 15 0,
    BitVec.extractLsb'_eq_self]

end

/-- Settles O21: each field of the two words, peeled off from the right. -/
theorem statusAndBlockInfoFields : Obligations.StatusAndBlockInfoFields := by
  unfold Obligations.StatusAndBlockInfoFields
  intro s
  refine ⟨?_, ?_, ?_, ?_, statusWord_cmdRej s, ?_, ?_, statusWord_blkLoaded s, statusWord_reserved s,
    blockInfoWord_symTotal s, blockInfoWord_groupCount s, blockInfoWord_nSel s, blockInfoWord_reserved s⟩
  · rw [statusWord_state]
    cases s.ctl <;> rfl
  · rw [statusWord_busy]
    cases s.ctl <;> rfl
  · rw [statusWord_done]
    cases s.ctl <;> rfl
  · rw [statusWord_err]
    cases s.ctl <;> rfl
  · rw [statusWord_errCode]
    cases s.errCode <;> rfl
  · rw [statusWord_errStage]
    cases s.errStage <;> rfl

end Sys2Proof.Machine

/-! ## What the encoder wrote, the two decoders read back (R81 to R91, R97) -/

namespace Sys2Proof

/-! ### A command word (R81, R82, R83) -/

theorem decodeCmd_congr {v w : Word} (h : v.setWidth 3 = w.setWidth 3) : decodeCmd v = decodeCmd w := by
  rw [decodeCmd, decodeCmd, h]

/-- The reserved bits 31:3 are above the three bits that OP is read from. -/
theorem decodeCmd_reserved (op r : Nat) : decodeCmd (BitVec.ofNat 32 (op + 8 * r)) = decodeCmd (BitVec.ofNat 32 op) := by
  refine decodeCmd_congr ?_
  rw [BitVec.setWidth_ofNat_of_le (by decide), BitVec.setWidth_ofNat_of_le (by decide)]
  exact BitVec.eq_of_toNat_eq (by simp [Nat.add_mul_mod_self_left])

theorem decodeCmd_encode {i : Instr} {f : Field} (he : encode i = some f) (hi : i.place = .idle) :
    decodeCmd (BitVec.ofNat 32 f.val) = i := by
  cases i with
  | nop | start | read | drain | release | reserved5 | reserved6 | reserved7 => cases he; rfl
  | sig | level | magicData | magicEos | crcDataBlock | crcEndOfStream | rand | origptr | map1 | map2 | ngroups | nsel | sel
  | lenStart | lenDeltaStop | lenDeltaInc | lenDeltaDec => cases hi
  | _ => cases he

/-- Settles O2: the word with its reserved bits 0 decodes to the command, and the reserved bits are not looked at. -/
theorem commandDecodesByOpAlone : Obligations.CommandDecodesByOpAlone := by
  unfold Obligations.CommandDecodesByOpAlone
  intro i f r he hi
  rw [decodeCmd_reserved, decodeCmd_encode he hi]

/-! ### Which of its readers the decoder uses for an element (R86) -/

/-- The two magics with their encodings (R87). -/
def magicCodes : List (Instr × Field) := [(.magicData, ⟨48, dataMagic⟩), (.magicEos, ⟨48, eosMagic⟩)]

/-- The three delta codes with their encodings (R91). -/
def deltaCodes : List (Instr × Field) := [(.lenDeltaStop, ⟨1, 0⟩), (.lenDeltaInc, ⟨2, 2⟩), (.lenDeltaDec, ⟨2, 3⟩)]

/-- How the bits of the element `i`, encoded as the second field, are read at its place: as a field of fixed width, in two
halves, or by the reader of the signature, a magic, a selector code or a delta code. -/
inductive ReadAs (ctx : Ctx) : Instr → Field → Prop
  | fixed {n : Nat} (c : BitVec n → Instr) (x : BitVec n)
      (hdec : ∀ g, decodeField ctx g = fixedField n g (c (BitVec.ofNat n g.val))) : ReadAs ctx (c x) ⟨n, x.toNat⟩
  | wide (c : Word → Instr) (x : Word)
      (hdec : ∀ g, decodeField ctx g = wideField32 g (c (BitVec.ofNat 32 g.val))) : ReadAs ctx (c x) ⟨32, x.toNat⟩
  | sig (hdec : ∀ g, decodeField ctx g = decodeSig g) : ReadAs ctx .sig ⟨24, sigWord⟩
  | magic {i : Instr} {f : Field} (hcode : (i, f) ∈ magicCodes)
      (hdec : ∀ g, decodeField ctx g = decodeMagic g) : ReadAs ctx i f
  | sel {j : Nat} (hj : j < ctx.groupCount)
      (hdec : ∀ g, decodeField ctx g = decodeSel ctx.groupCount g) : ReadAs ctx (.sel j) ⟨j + 1, 2 ^ (j + 1) - 2⟩
  | delta {i : Instr} {f : Field} (hcode : (i, f) ∈ deltaCodes) (ht : 1 ≤ ctx.lenT ∧ ctx.lenT ≤ 20)
      (hdec : ∀ g, decodeField ctx g = decodeDelta ctx.lenT g) : ReadAs ctx i f

theorem readAs_of_encode {ctx : Ctx} {i : Instr} {f : Field} (he : encode i = some f) (hi : i.place ≠ .idle)
    (hpos : ctx.pos = i.place) (hsel : ∀ j, i = .sel j → j < ctx.groupCount)
    (hdelta : i.place = .lenDelta → 1 ≤ ctx.lenT ∧ ctx.lenT ≤ 20) : ReadAs ctx i f := by
  obtain ⟨_, _, _, _, _, _⟩ := ctx
  cases hpos
  cases i with
  | nop | start | read | drain | release | reserved5 | reserved6 | reserved7 => exact absurd rfl hi
  | sig => cases he; exact .sig fun _ => rfl
  | level b => cases he; exact .fixed .level b fun _ => rfl
  | magicData | magicEos => cases he; exact .magic (by decide) fun _ => rfl
  | crcDataBlock c => cases he; exact .wide .crcDataBlock c fun _ => rfl
  | crcEndOfStream c => cases he; exact .wide .crcEndOfStream c fun _ => rfl
  | rand r => cases he; exact .fixed .rand r fun _ => rfl
  | origptr p => cases he; exact .fixed .origptr p fun _ => rfl
  | map1 m => cases he; exact .fixed .map1 m fun _ => rfl
  | map2 u => cases he; exact .fixed .map2 u fun _ => rfl
  | ngroups n => cases he; exact .fixed .ngroups n fun _ => rfl
  | nsel n => cases he; exact .fixed .nsel n fun _ => rfl
  | sel j => cases he; exact .sel (hsel j rfl) fun _ => rfl
  | lenStart t => cases he; exact .fixed .lenStart t fun _ => rfl
  | lenDeltaStop | lenDeltaInc | lenDeltaDec => cases he; exact .delta (by decide) (hdelta rfl) fun _ => rfl
  | _ => cases he

/-! ### The whole element is read -/

theorem fixedField_whole (n v : Nat) (i : Instr) : fixedField n ⟨n, v⟩ i = .run i := if_neg (Nat.lt_irrefl n)

theorem decodeMagic_whole : ∀ x ∈ magicCodes, decodeMagic x.2 = .run x.1 := by decide

theorem decodeSel_whole (g j : Nat) : decodeSel g ⟨j + 1, 2 ^ (j + 1) - 2⟩ = .run (.sel j) := by
  have htwo : 2 ≤ 2 ^ (j + 1) := Nat.le_self_pow (Nat.succ_ne_zero j) 2
  rw [decodeSel, if_neg (by simp only; omega), if_pos (Nat.sub_add_cancel htwo), Nat.add_sub_cancel]

/-- In the range of R145 the working length is not looked at. -/
theorem decodeDelta_inRange {t : Nat} (ht : 1 ≤ t ∧ t ≤ 20) (f : Field) : decodeDelta t f = decodeDelta 1 f := by
  have hok {u : Nat} (hu : 1 ≤ u ∧ u ≤ 20) : ¬ (u < 1 ∨ Config.maxCodeBits < u) := by
    simp only [Config.maxCodeBits]
    omega
  exact (if_neg (hok ht)).trans (if_neg (hok (by decide))).symm

theorem decodeDelta_whole : ∀ x ∈ deltaCodes, decodeDelta 1 x.2 = .run x.1 := by decide

/-- Settles O1: each reader answers the element on the whole of its encoding. -/
theorem elementDecodesToItself : Obligations.ElementDecodesToItself := by
  unfold Obligations.ElementDecodesToItself
  intro ctx i f he hi hpos hsel hdelta
  cases readAs_of_encode he hi hpos hsel hdelta with
  | fixed c x hdec => rw [hdec, fixedField_whole, BitVec.ofNat_toNat, BitVec.setWidth_eq]
  | wide c x hdec =>
    rw [hdec, BitVec.ofNat_toNat, BitVec.setWidth_eq]
    rfl
  | sig hdec => exact hdec _
  | magic hcode hdec => rw [hdec, decodeMagic_whole _ hcode]
  | sel hj hdec => rw [hdec, decodeSel_whole]
  | delta hcode ht hdec => rw [hdec, decodeDelta_inRange ht, decodeDelta_whole _ hcode]

/-! ### A part of the element is read -/

/-- With `m` of an element's `n` bits read the decoder asks for more of them, or for the whole as a wide field (R125). -/
def AsksOn (n m : Nat) (d : Decoded) : Prop :=
  ∃ k, 1 ≤ k ∧ m + k ≤ n ∧ (d = .more k ∨ (m = 0 ∧ k = n ∧ d = .wide k))

theorem asksOn_more {n m k : Nat} (hk : 1 ≤ k) (hn : m + k ≤ n) : AsksOn n m (.more k) := ⟨k, hk, hn, .inl rfl⟩

theorem asksOn_rest {n m : Nat} (h : m < n) : AsksOn n m (.more (n - m)) := asksOn_more (by omega) (by omega)

theorem asksOn_wide {n : Nat} (h : 1 ≤ n) : AsksOn n 0 (.wide n) := ⟨n, h, by omega, .inr ⟨rfl, rfl, rfl⟩⟩

theorem fixedField_asksOn {n m : Nat} (h : m < n) (v : Nat) (i : Instr) : AsksOn n m (fixedField n ⟨m, v⟩ i) := by
  rw [fixedField, if_pos h]
  exact asksOn_rest h

theorem wideField32_asksOn {m : Nat} (h : m < 32) (v : Nat) (i : Instr) : AsksOn 32 m (wideField32 ⟨m, v⟩ i) := by
  by_cases hm : m = 0
  · subst hm
    exact asksOn_wide (by decide)
  · rw [wideField32, if_neg hm, if_pos h]
    exact asksOn_rest h

theorem magicCodes_len : ∀ x ∈ magicCodes, x.2.len = 48 := by decide

theorem decodeMagic_asksOn {m : Nat} (h : m < 48) (v : Nat) : AsksOn 48 m (decodeMagic ⟨m, v⟩) := by
  by_cases hm : m = 0
  · subst hm
    exact asksOn_wide (by decide)
  · rw [decodeMagic, if_neg hm, if_pos h]
    exact asksOn_rest h

/-- Between the bytes of the signature the decoder asks for the next byte (R130). -/
theorem decodeSig_asksOn : ∀ m ∈ [0, 8, 16], decodeSig ⟨m, sigWord / 2 ^ (24 - m)⟩ = .more 8 := by decide

/-- A selector code of one-bits alone is illegal from GROUP_COUNT of them on, and otherwise goes on (R90, R143). -/
theorem decodeSel_ones (g m : Nat) :
    decodeSel g ⟨m, 2 ^ m - 1⟩ = if m ≠ 0 ∧ g ≤ m then .illegal .dataError .sel else .more 1 := by
  rw [decodeSel, if_pos (Nat.sub_add_cancel (Nat.two_pow_pos m))]

/-- The bits of a selector code before its zero-bit are one-bits. -/
theorem selCode_leading_ones {j m : Nat} (h : m ≤ j) : (2 ^ (j + 1) - 2) / 2 ^ (j + 1 - m) = 2 ^ m - 1 := by
  have hpow : 2 ^ (j + 1) = 2 ^ m * 2 ^ (j + 1 - m) := by rw [← pow_add, Nat.add_sub_cancel' (by omega)]
  have htwo : 2 ≤ 2 ^ (j + 1 - m) := Nat.le_self_pow (by omega) 2
  have hone : 1 ≤ 2 ^ m := Nat.two_pow_pos m
  rw [hpow]
  refine Nat.div_eq_of_lt_le ?_ ?_
  · rw [Nat.sub_mul]
    omega
  · rw [Nat.sub_add_cancel hone]
    exact Nat.sub_lt (by positivity) (by decide)

theorem decodeDelta_asksOn :
    ∀ x ∈ deltaCodes, ∀ m < x.2.len, decodeDelta 1 ⟨m, x.2.val / 2 ^ (x.2.len - m)⟩ = .more 1 := by decide

/-- Settles O3: each reader asks on with a part of its element read. -/
theorem readerAsksForTheElementsBits : Obligations.ReaderAsksForTheElementsBits := by
  unfold Obligations.ReaderAsksForTheElementsBits
  intro ctx i f m he hi hpos hsel hdelta hm hsig
  change AsksOn f.len m (decodeField ctx ⟨m, f.val / 2 ^ (f.len - m)⟩)
  cases readAs_of_encode he hi hpos hsel hdelta with
  | fixed c x hdec =>
    rw [hdec]
    exact fixedField_asksOn hm _ _
  | wide c x hdec =>
    rw [hdec]
    exact wideField32_asksOn hm _ _
  | sig hdec =>
    have hbytes : m ∈ [0, 8, 16] := by simpa using hsig rfl
    rw [hdec, decodeSig_asksOn m hbytes]
    exact asksOn_more (by decide) (by have := hsig rfl; simp only; omega)
  | magic hcode hdec =>
    have hlen : f.len = 48 := magicCodes_len _ hcode
    rw [hdec, hlen]
    exact decodeMagic_asksOn (hlen ▸ hm) _
  | sel hj hdec =>
    have hle := Nat.le_of_lt_succ hm
    rw [hdec, selCode_leading_ones hle, decodeSel_ones, if_neg (by omega)]
    exact asksOn_more (by decide) hm
  | delta hcode ht hdec =>
    rw [hdec, decodeDelta_inRange ht, decodeDelta_asksOn _ hcode m hm]
    exact asksOn_more (by decide) hm

/-- Settles O4: the decoders evaluated on the words. -/
theorem writtenOutWordsDecode : Obligations.WrittenOutWordsDecode := by
  unfold Obligations.WrittenOutWordsDecode
  decide

end Sys2Proof

/-! ## Run digits are bijective base 2 (R94, R174, R175) -/

namespace Sys2Proof.Machine

/-! ### A digit sequence leaves its length in RUN_VAL -/

/-- The symbol of a run digit, `true` for RUNB. -/
def runSymbol (d : Bool) : Instr := if d then .symRunB else .symRunA

/-- RUN_VAL as the next run digit finds it: 0 where no run is pending (R174). -/
def pendingVal (s : State) : Nat := if s.runActive then s.runVal else 0

/-- RUN_POS as the next run digit finds it: 1 where no run is pending (R174). -/
def pendingPos (s : State) : Nat := if s.runActive then s.runPos else 1

/-- One digit is acted on: a run is pending, of the length and weight this gives. -/
theorem exec_runSymbol (d : Bool) (s : State) :
    ∃ t, exec (runSymbol d) s = .next t ∧ t.runActive = true ∧
      pendingVal t = pendingVal s + pendingPos s * (if d then 2 else 1) ∧ pendingPos t = pendingPos s * 2 := by
  cases d with
  | false => exact ⟨goto .groupSwitch (runDigit 0 s), rfl, rfl, rfl, rfl⟩
  | true => exact ⟨goto .groupSwitch (runDigit 1 s), rfl, rfl, rfl, rfl⟩

/-- The digits add their length, weighted by the digits before them. -/
theorem execAll_runSymbols (ds : List Bool) (s : State) :
    ∃ t, execAll (ds.map runSymbol) s = .next t ∧ t.runActive = (s.runActive || !ds.isEmpty) ∧
      pendingVal t = pendingVal s + pendingPos s * runLength ds ∧ pendingPos t = pendingPos s * 2 ^ ds.length := by
  induction ds generalizing s with
  | nil => exact ⟨s, rfl, by simp, rfl, by simp⟩
  | cons d ds ih =>
    obtain ⟨u, hu, hactive, hval, hpos⟩ := exec_runSymbol d s
    obtain ⟨t, ht, htactive, htval, htpos⟩ := ih u
    refine ⟨t, ?_, by simp [htactive, hactive], ?_, ?_⟩
    · rw [List.map_cons, execAll, hu]
      exact ht
    · rw [htval, hval, hpos, runLength]
      ring
    · rw [htpos, hpos, List.length_cons]
      ring

/-! ### Every length has one digit sequence -/

theorem runLength_pos (d : Bool) (ds : List Bool) : 1 ≤ runLength (d :: ds) := by
  rw [runLength]
  split <;> omega

/-- The parity of the length gives the first digit, and the half of the rest the length of the others. -/
theorem runLength_injective : Function.Injective runLength := by
  intro ds
  induction ds with
  | nil =>
    intro es h
    cases es with
    | nil => rfl
    | cons e es => exact absurd h (Nat.ne_of_lt (runLength_pos e es))
  | cons d ds ih =>
    intro es h
    cases es with
    | nil => exact absurd h.symm (Nat.ne_of_lt (runLength_pos d ds))
    | cons e es =>
      simp only [runLength] at h
      have hd : d = e := by cases d <;> cases e <;> simp at h ⊢ <;> omega
      subst hd
      rw [ih (a₂ := es) (by omega)]

/-- An odd length starts with RUNA, an even one with RUNB. -/
theorem runLength_surjective : Function.Surjective runLength := by
  intro n
  induction n using Nat.strongRec with
  | ind n ih =>
    by_cases hn : n = 0
    · exact ⟨[], hn.symm⟩
    · obtain ⟨ds, hds⟩ := ih ((n - 1) / 2) (by omega)
      refine ⟨decide (n % 2 = 0) :: ds, ?_⟩
      rw [runLength, hds]
      simp only [decide_eq_true_eq]
      split <;> omega

/-- R94's sum, digit by digit. -/
theorem runLength_eq_sum (ds : List Bool) :
    runLength ds = ((List.range ds.length).map fun i => (if ds[i]! then 2 else 1) * 2 ^ i).sum := by
  induction ds with
  | nil => rfl
  | cons d ds ih =>
    have htail : ∀ i ∈ List.range ds.length,
        (if (d :: ds)[i + 1]! then 2 else 1) * 2 ^ (i + 1) = 2 * ((if ds[i]! then 2 else 1) * 2 ^ i) := by
      intro i _
      rw [List.getElem!_cons_succ]
      ring
    calc
      runLength (d :: ds) = (if d then 2 else 1) * 2 ^ 0 +
          ((List.range ds.length).map fun i => 2 * ((if ds[i]! then 2 else 1) * 2 ^ i)).sum := by
        rw [List.sum_map_mul_left, ← ih, runLength, pow_zero, mul_one]
      _ = _ := by
        rw [← List.map_congr_left htail, List.length_cons, List.range_succ_eq_map, List.map_cons, List.map_map, List.sum_cons]
        rfl

/-- Settles O47: a digit adds its weight to RUN_VAL, and the parity of a length determines its first digit. -/
theorem runCodeIsBijective : Obligations.RunCodeIsBijective := by
  unfold Obligations.RunCodeIsBijective
  refine ⟨fun s ds hs hds => ?_, fun n hn => ?_, fun ds hds => ⟨runLength_eq_sum ds, ?_⟩⟩
  · obtain ⟨t, ht, hactive, hval, hpos⟩ := execAll_runSymbols ds s
    have ht1 : t.runActive = true := by rw [hactive, hs, List.isEmpty_eq_false_iff.2 hds]; rfl
    exact ⟨t, ht, by simpa [pendingVal, pendingPos, hs, ht1] using hval,
      by simpa [pendingPos, hs, ht1] using hpos, ht1⟩
  · obtain ⟨ds, hds⟩ := runLength_surjective n
    exact ⟨ds, by rintro rfl; exact absurd hds (Nat.ne_of_lt hn), hds, fun es hes => runLength_injective (hes.trans hds.symm)⟩
  · obtain ⟨d, ds, rfl⟩ := List.exists_cons_of_ne_nil hds
    exact Nat.ne_of_gt (runLength_pos d ds)

end Sys2Proof.Machine

/-! ## The block header's alphabet and selectors (R88, R90, R138 to R140, R143) -/

namespace Sys2Proof.Machine

/-- Settles O35: the count is stored on both sides of the check. -/
theorem groupCountStoredThenChecked : Obligations.GroupCountStoredThenChecked := by
  unfold Obligations.GroupCountStoredThenChecked
  exact fun s n => ⟨fun hlo hhi => if_neg (by simp only [Config.minGroups, Config.maxGroups]; omega), fun h => if_pos h⟩

/-! ### The next used group (R88, R139) -/

theorem nextUsedGroup_eq_none {used : BitVec 16} {i : Nat} (h : ∀ k, i ≤ k → k < 16 → used.getLsbD (15 - k) = false) :
    nextUsedGroup used i = none := by
  rw [nextUsedGroup, List.find?_range_eq_none]
  intro k hk
  by_cases hik : i ≤ k
  · simp [h k hik hk]
  · simp [hik]

theorem nextUsedGroup_eq_some {used : BitVec 16} {i k : Nat} (hik : i ≤ k) (hk : k < 16)
    (hused : used.getLsbD (15 - k) = true) (hfirst : ∀ l, i ≤ l → l < k → used.getLsbD (15 - l) = false) :
    nextUsedGroup used i = some k := by
  rw [nextUsedGroup, List.find?_range_eq_some]
  refine ⟨by simp [hik, hused], List.mem_range.2 hk, fun l hl => ?_⟩
  by_cases hil : i ≤ l
  · simp [hfirst l hil hl]
  · simp [hil]

theorem gotoNextMap2_none {i : Nat} {s : State} (h : ∀ k, i ≤ k → k < 16 → s.mapUsed.getLsbD (15 - k) = false) :
    (gotoNextMap2 i s).pos = .ngroups := by
  rw [gotoNextMap2, nextUsedGroup_eq_none h]
  rfl

theorem gotoNextMap2_some {i k : Nat} {s : State} (hik : i ≤ k) (hk : k < 16)
    (hused : s.mapUsed.getLsbD (15 - k) = true) (hfirst : ∀ l, i ≤ l → l < k → s.mapUsed.getLsbD (15 - l) = false) :
    (gotoNextMap2 i s).pos = .map2 ∧ (gotoNextMap2 i s).loopI = k := by
  rw [gotoNextMap2, nextUsedGroup_eq_some hik hk hused hfirst]
  exact ⟨rfl, rfl⟩

/-! ### The byte values of one MAP2 field (R88, R139) -/

theorem usedBytes_length (i : Nat) (u : BitVec 16) : (usedBytes i u).length = usedBefore u 16 := List.length_map _

/-- A member of a range, among those that satisfy `p`, stands behind the smaller ones. -/
theorem filter_range_getElem? {p : Nat → Bool} {n j : Nat} (hj : j < n) (hp : p j = true) :
    ((List.range n).filter p)[((List.range j).filter p).length]? = some j := by
  obtain ⟨k, rfl⟩ : ∃ k, n = j + 1 + k := ⟨n - (j + 1), by omega⟩
  rw [List.range_add, List.range_succ, List.append_assoc, List.filter_append, List.getElem?_append_right le_rfl]
  simp [hp]

theorem usedBytes_getElem? (i : Nat) {u : BitVec 16} {j : Nat} (hj : j < 16) (hused : u.getLsbD (15 - j) = true) :
    (usedBytes i u)[usedBefore u j]? = some (BitVec.ofNat 8 (16 * i + j)) := by
  rw [usedBytes, usedBefore, List.getElem?_map, filter_range_getElem? (p := fun k => u.getLsbD (15 - k)) hj hused]
  rfl

theorem memRead_memWriteSeq_getElem? {w : Nat} (e : Nat) (id : MemId) {vs : List (BitVec w)} (m : Cells w) (a : Nat) {k : Nat}
    {v : BitVec w} (h : vs[k]? = some v) : memRead e id (memWriteSeq m a vs) (a + k) = v := by
  obtain ⟨hk, rfl⟩ := List.getElem?_eq_some_iff.1 h
  rw [memRead_memWriteSeq, dif_pos (by omega)]
  simp

/-- The state with the byte values of one MAP2 field appended to SYM_TO_BYTE (R139). -/
def appendUsed (u : BitVec 16) (s : State) : State :=
  { s with
    symToByte := memWriteSeq s.symToByte s.symTotal.toNat (usedBytes s.loopI u)
    symTotal := s.symTotal + BitVec.ofNat 9 (usedBytes s.loopI u).length }

theorem exec_map2 {u : BitVec 16} {s : State} (h : s.symTotal.toNat + usedBefore u 16 ≤ 256) :
    exec (.map2 u) s = .next (gotoNextMap2 (s.loopI + 1) (appendUsed u s)) :=
  congrArg (Act.out · s) (guardIx_of_lt (by rw [usedBytes_length]; omega))

theorem appendUsed_symTotal {u : BitVec 16} {s : State} (h : s.symTotal.toNat + usedBefore u 16 ≤ 256) :
    (appendUsed u s).symTotal.toNat = s.symTotal.toNat + usedBefore u 16 := by
  rw [appendUsed, usedBytes_length, BitVec.toNat_add, BitVec.toNat_ofNat, Nat.add_mod_mod, Nat.mod_eq_of_lt (by omega)]

theorem symToByteAt_gotoNextMap2 (k : Nat) (s : State) (e : Nat) : symToByteAt (gotoNextMap2 k s) e = symToByteAt s e := by
  rw [gotoNextMap2_frame]
  rfl

/-- Settles O34: the bytes of a MAP2 field are written behind SYM_TOTAL in order, and the next group is the first used one. -/
theorem mapsBuildTheAlphabet : Obligations.MapsBuildTheAlphabet := by
  unfold Obligations.MapsBuildTheAlphabet
  intro s m u
  refine ⟨⟨gotoNextMap2 0 { s with mapUsed := m, symTotal := 0 }, rfl, ?_, ?_, ?_, ?_, ?_⟩,
    fun h => ⟨gotoNextMap2 (s.loopI + 1) (appendUsed u s), exec_map2 h, ?_, ?_, ?_, ?_, ?_, ?_⟩⟩
  · rw [gotoNextMap2_frame]
  · rw [gotoNextMap2_frame]
  · rintro rfl
    exact gotoNextMap2_none fun _ _ _ => BitVec.getLsbD_zero
  · exact fun k hk hused hfirst => gotoNextMap2_some (Nat.zero_le k) hk hused fun l _ => hfirst l
  · rw [gotoNextMap2_frame]
  · rw [gotoNextMap2_frame]
    exact appendUsed_symTotal h
  · intro j hj hused
    rw [symToByteAt_gotoNextMap2]
    exact memRead_memWriteSeq_getElem? _ _ _ _ (usedBytes_getElem? s.loopI hj hused)
  · intro e he
    rw [symToByteAt_gotoNextMap2]
    exact memRead_memWriteSeq_other _ _ _ _ (by rwa [usedBytes_length])
  · exact gotoNextMap2_none (i := s.loopI + 1) (s := appendUsed u s)
  · exact fun k => gotoNextMap2_some (i := s.loopI + 1) (s := appendUsed u s)
  · rw [gotoNextMap2_frame]
    rfl

/-! ### One selector (R90, R143) -/

/-- The state with the group at position `j` stored as the next selector and moved to the front (R143). -/
def selectGroup (j : Nat) (s : State) : State :=
  { s with
    groupMtf := moveToFront s.epoch .groupMtf s.groupMtf j
    selectors := memWrite s.selectors s.loopI (groupMtfAt s j)
    loopI := s.loopI + 1 }

theorem exec_sel {j : Nat} {s : State} (hj : j < s.groupCount.toNat) (hgroups : s.groupCount.toNat ≤ 6)
    (hi : s.loopI < s.nSel.toNat) :
    exec (.sel j) s = .next { selectGroup j s with
      pos := if s.loopI + 1 < s.nSel.toNat then .sel else .lenStart
      loopG := if s.loopI + 1 < s.nSel.toNat then s.loopG else 0
      fLen := 0, fVal := 0 } := by
  have hsel : s.loopI < Config.maxSelectors := by
    have := s.nSel.isLt
    simp only [Config.maxSelectors]
    omega
  change execSel j s = _
  rw [execSel, if_neg (by omega), guardIx_of_lt (show j < Config.maxGroups by simp only [Config.maxGroups]; omega),
    guardIx_of_lt hsel]
  by_cases hlast : s.loopI + 1 < s.nSel.toNat <;> simp only [hlast, if_true, if_false] <;> rfl

/-- Settles O37: the entries of the list and of SELECTORS by the laws of their writes; a code of one-bits by its length. -/
theorem selectorMovesItsGroupToFront : Obligations.SelectorMovesItsGroupToFront := by
  unfold Obligations.SelectorMovesItsGroupToFront
  refine fun s j => ⟨fun hj hgroups hi => ⟨_, exec_sel hj hgroups hi, ?_, ?_, ?_, ?_, ?_, rfl⟩, fun hj => if_pos hj, ?_⟩
  · exact memRead_memWrite_same ..
  · exact fun e he => memRead_memWrite_other _ _ _ _ he.symm
  · exact (memRead_moveToFront ..).trans (if_pos rfl)
  · exact fun k hk hkj => (memRead_moveToFront ..).trans ((if_neg (by omega)).trans (if_pos hkj))
  · exact fun k hjk => (memRead_moveToFront ..).trans ((if_neg (by omega)).trans (if_neg (by omega)))
  · intro ctx hpos hcount
    rw [decodeField, hpos]
    exact (decodeSel_ones ctx.groupCount ctx.groupCount).trans (if_pos ⟨by omega, le_rfl⟩)

end Sys2Proof.Machine

/-! ## START (R242) and one token of the input port (R122) -/

namespace Sys2Proof.Machine

/-- Settles O23: START in a state that is not busy takes the accepting branch, which writes the registers of R242. -/
theorem startClearsTheStream : Obligations.StartClearsTheStream := by
  unfold Obligations.StartClearsTheStream
  intro s hidle
  have haccepted : ¬ s.ctl.busy = true := by simp [hidle]
  calc
    exec .start s = execStart s := rfl
    _ = .next _ := if_neg haccepted

/-! ### The stage of the element being read (R121, R133) -/

/-- At every place but that of the magic, the place alone gives the stage. -/
theorem stageOf_of_place {s : State} {st : Stage}
    (h : (s.pos, st) ∈ [(Pos.sig, Stage.sig), (.level, .level), (.crcData, .hcrc), (.crcEos, .hcrc), (.rand, .rand),
        (.origptr, .origptr), (.map1, .map1), (.map2, .map2), (.ngroups, .ngroups), (.nsel, .nsel), (.sel, .sel),
        (.lenStart, .len), (.lenDelta, .len), (.huff, .huff)]) : stageOf s = st := by
  simp only [List.mem_cons, Prod.mk.injEq, List.not_mem_nil, or_false] at h
  rcases h with ⟨h, rfl⟩ | ⟨h, rfl⟩ | ⟨h, rfl⟩ | ⟨h, rfl⟩ | ⟨h, rfl⟩ | ⟨h, rfl⟩ | ⟨h, rfl⟩ | ⟨h, rfl⟩ | ⟨h, rfl⟩ |
    ⟨h, rfl⟩ | ⟨h, rfl⟩ | ⟨h, rfl⟩ | ⟨h, rfl⟩ | ⟨h, rfl⟩ <;> simp only [stageOf, h]

theorem stageOf_magic {s : State} (h : s.pos = .magic) : stageOf s = if s.fLen < 48 then .magic else .hcrc := by
  simp only [stageOf, h]

/-! ### The tokens that are no byte (R275, R277) -/

theorem refillOnce_endOfInput {s : State} {ts : List Token} (h : s.inPort = .endOfInput :: ts) :
    refillOnce s = .halt (raiseError .unexpectedEof (stageOf s) { s with inPort := ts }) := by
  simp [refillOnce, fetchToken, h]

theorem refillOnce_ioErr {s : State} {ts : List Token} (h : s.inPort = .ioErr :: ts) :
    refillOnce s = .halt (raiseError .ioError (stageOf s) { s with inPort := ts }) := by
  simp [refillOnce, fetchToken, h]

/-- Settles O29: FETCH_BYTE is one refill, with one lemma for each token, and the place read gives the stage. -/
theorem fetchByteTakesOneToken : Obligations.FetchByteTakesOneToken := by
  unfold Obligations.FetchByteTakesOneToken
  refine fun s b ts => ⟨fun hp => congrArg (Act.out · s) (refillOnce_empty hp),
    fun hp => congrArg (Act.out · s) (refillOnce_byte hp), fun st hst => ?_⟩
  obtain rfl : stageOf s = st := by
    rcases hst with hplace | ⟨hpos, hlen, rfl⟩ | ⟨hpos, hlen, rfl⟩
    · exact stageOf_of_place hplace
    · exact (stageOf_magic hpos).trans (if_pos hlen)
    · exact (stageOf_magic hpos).trans (if_neg (by omega))
  exact ⟨fun hp => congrArg (Act.out · s) (refillOnce_endOfInput hp),
    fun hp => congrArg (Act.out · s) (refillOnce_ioErr hp)⟩

end Sys2Proof.Machine

/-! ## The stream header and the fields of the block header (R130 to R137, R141, R142, R144, R145, R242) -/

namespace Sys2Proof.Machine

/-! ### The next operation from the decoder's answer (R86, R97) -/

/-- The places of R86 but that of a codeword, at which every field read is an element's. -/
def elementPlaces : List Pos :=
  [.sig, .level, .magic, .crcData, .crcEos, .rand, .origptr, .map1, .map2, .ngroups, .nsel, .sel, .lenStart, .lenDelta]

section

variable {s : State} (hp : s.pos ∈ elementPlaces)
include hp

theorem nextInstr_elementPlace : nextInstr s = some (nextElement s) :=
  nextInstr_element (show s.pos ∈ elementPlaces ++ [.huff] from List.mem_append_left _ hp) fun h => by
    simp [h, elementPlaces] at hp

theorem nextInstr_run {i : Instr} (h : decodeField (readCtx s) (fieldRead s) = .run i) : nextInstr s = some i := by
  rw [nextInstr_elementPlace hp, nextElement, h]

theorem nextInstr_more {n : Nat} (h : decodeField (readCtx s) (fieldRead s) = .more n) :
    nextInstr s = some (readStep n (.readBits n) s) := by
  rw [nextInstr_elementPlace hp, nextElement, h]

theorem nextInstr_illegal {c : ErrCode} {st : Stage} (h : decodeField (readCtx s) (fieldRead s) = .illegal c st) :
    nextInstr s = some (.errorEntry c st) := by
  rw [nextInstr_elementPlace hp, nextElement, h]

end

/-! ### The signature and the level digit (R130 to R132) -/

theorem decodeField_sig {s : State} (h : s.pos = .sig) : decodeField (readCtx s) (fieldRead s) = decodeSig (fieldRead s) := by
  simp only [decodeField, readCtx, h]

theorem decodeField_level {s : State} (h : s.pos = .level) :
    decodeField (readCtx s) (fieldRead s) = fixedField 8 (fieldRead s) (.level (BitVec.ofNat 8 s.fVal)) := by
  simp only [decodeField, readCtx, h]
  rfl

/-- Each byte of the signature is checked once it is read (R130). -/
theorem decodeSig_illegal {f : Field}
    (h : (f.len = 8 ∧ f.val ≠ 0x42) ∨ (f.len = 16 ∧ f.val ≠ 0x425A) ∨ (f.len = 24 ∧ f.val ≠ 0x425A68)) :
    decodeSig f = .illegal .notBzipData .sig := by
  rcases h with ⟨hl, hv⟩ | ⟨hl, hv⟩ | ⟨hl, hv⟩ <;> simp [decodeSig, sigWord, hl, hv]

/-- With the bytes so far as they should be the next byte is read. -/
theorem decodeSig_more {f : Field}
    (h : f.len = 0 ∨ (f.len = 8 ∧ f.val = 0x42) ∨ (f.len = 16 ∧ f.val = 0x425A)) : decodeSig f = .more 8 := by
  rcases h with hl | ⟨hl, hv⟩ | ⟨hl, hv⟩ <;> simp [decodeSig, *]

theorem decodeSig_run {f : Field} (h : f.len = 24 ∧ f.val = 0x425A68) : decodeSig f = .run .sig := by
  simp [decodeSig, sigWord, h]

theorem exec_level_digit {b : Byte} (hlo : 0x31 ≤ b.toNat) (hhi : b.toNat ≤ 0x39) (s : State) :
    exec (.level b) s = .next { s with
      level := BitVec.ofNat 4 (b.toNat - 0x30), dbufSize := BitVec.ofNat 20 (100000 * (b.toNat - 0x30))
      ctl := .paused, pos := .idle, fLen := 0, fVal := 0 } :=
  if_neg (by omega)

/-- Settles O32: the decoder's answer for each number of signature bytes, and both sides of the check of the digit. -/
theorem signatureAndLevel : Obligations.SignatureAndLevel := by
  unfold Obligations.SignatureAndLevel
  refine fun s b => ⟨fun hp => ?_, rfl, fun hlo hhi => exec_level_digit hlo hhi s, fun h => if_pos h⟩
  have hplace : s.pos ∈ elementPlaces := by simp [hp, elementPlaces]
  refine ⟨fun h => ⟨nextInstr_illegal hplace ?_, rfl⟩, fun h => nextInstr_more hplace ?_, fun h => nextInstr_run hplace ?_⟩ <;>
    rw [decodeField_sig hp]
  · exact decodeSig_illegal h
  · exact decodeSig_more h
  · exact decodeSig_run h

/-! ### The fields of the block header (R133 to R137, R141, R142) -/

/-- A magic that is neither of the two is read on through its CRC field, and only then illegal (R133). -/
theorem decodeMagic_unknown {v : Nat} (hdata : v ≠ dataMagic) (heos : v ≠ eosMagic) (w : Nat) :
    decodeMagic ⟨48, v⟩ = .wide 32 ∧ decodeMagic ⟨80, w⟩ = .illegal .notBzipData .magic :=
  ⟨(if_neg hdata).trans (if_neg heos), rfl⟩

/-- Settles O33: each field is stored and the next place follows; the magic by the decoder. -/
theorem blockHeaderFields : Obligations.BlockHeaderFields := by
  unfold Obligations.BlockHeaderFields
  refine fun s c p v w ctx => ⟨rfl, rfl, fun hp hdata heos => ?_, rfl, rfl, rfl, rfl⟩
  simp only [decodeField, hp]
  exact decodeMagic_unknown hdata heos w

theorem groupMtfAt_initGroupMtf (s : State) (c : Nat) :
    groupMtfAt (initGroupMtf s) c = if c < s.groupCount.toNat then BitVec.ofNat 3 c else groupMtfAt s c := by
  have hlen : ((List.range s.groupCount.toNat).map (BitVec.ofNat 3)).length = s.groupCount.toNat := by simp
  split
  · next hc =>
    have hread := memRead_memWriteSeq_getElem? s.epoch .groupMtf s.groupMtf 0
      (vs := (List.range s.groupCount.toNat).map (BitVec.ofNat 3)) (k := c) (v := BitVec.ofNat 3 c) (by simp [hc])
    rwa [Nat.zero_add] at hread
  · exact memRead_memWriteSeq_other _ _ _ _ (by omega)

theorem exec_nsel {n : BitVec 15} {s : State} (hn : n ≠ 0) (hgroups : s.groupCount.toNat ≤ 6) :
    exec (.nsel n) s = .next (goto .sel { initGroupMtf { s with nSel := n } with loopI := 0 }) :=
  (if_neg hn).trans (congrArg (Act.out · s) (guardIx_of_lt (Nat.lt_succ_of_le hgroups)))

/-- Settles O36: the count is stored on both sides of the check, and the list read entry by entry. -/
theorem selectorCountStoredThenChecked : Obligations.SelectorCountStoredThenChecked := by
  unfold Obligations.SelectorCountStoredThenChecked
  refine fun s n => ⟨rfl, fun hn hgroups => ⟨_, exec_nsel hn hgroups, fun c hc => ?_, fun c hc => ?_, rfl⟩⟩
  · exact (groupMtfAt_initGroupMtf { s with nSel := n } c).trans (if_pos hc)
  · exact (groupMtfAt_initGroupMtf { s with nSel := n } c).trans (if_neg (Nat.not_lt.2 hc))

/-! ### The code lengths (R144, R145) -/

theorem lenCheck_inRange {s : State} (h1 : 1 ≤ s.lenT.toNat) (h20 : s.lenT.toNat ≤ 20) (k : Act) : lenCheck s k = k :=
  if_neg (by simp only [Config.maxCodeBits]; omega)

theorem lenCheck_outside {s : State} (h : s.lenT.toNat < 1 ∨ 20 < s.lenT.toNat) (k : Act) :
    lenCheck s k = .halt (raiseError .dataError .len s) :=
  if_pos h

/-- The state with the working length stored as that of the symbol reached (R145). -/
def storeLength (s : State) : State :=
  { s with lengths := memWrite s.lengths s.loopS s.lenT, loopS := s.loopS + 1 }

theorem exec_lenDeltaStop {s : State} (h1 : 1 ≤ s.lenT.toNat) (h20 : s.lenT.toNat ≤ 20) (hs : s.loopS < 258) :
    exec .lenDeltaStop s =
      .next (goto (if s.loopS + 1 < s.symTotal.toNat + 2 then .lenDelta else .minmax) (storeLength s)) := by
  change execLenDeltaStop s = _
  rw [execLenDeltaStop, lenCheck_inRange h1 h20, guardIx_of_lt (n := Config.maxSymbols) hs]
  change Act.out (if s.loopS + 1 < s.symTotal.toNat + 2 then _ else _) s = _
  split <;> rfl

theorem decodeDelta_outside {t : Nat} (h : t < 1 ∨ 20 < t) (f : Field) : decodeDelta t f = .illegal .dataError .len :=
  if_pos h

/-- Settles O38: the check of R145 on both of its sides, before each code and in each meaning. -/
theorem codeLengthsOfAGroup : Obligations.CodeLengthsOfAGroup := by
  unfold Obligations.CodeLengthsOfAGroup
  refine fun s t0 => ⟨rfl, fun h1 h20 => ⟨fun hs => ⟨_, exec_lenDeltaStop h1 h20 hs, ?_, fun e he => ?_, rfl⟩, ?_, ?_⟩,
    fun hout => ⟨?_, fun hp => ?_⟩⟩
  · exact congrArg BitVec.toNat (memRead_memWrite_same ..)
  · exact congrArg BitVec.toNat (memRead_memWrite_other _ _ _ _ he.symm)
  · exact congrArg (Act.out · s) (lenCheck_inRange h1 h20 _)
  · exact congrArg (Act.out · s) (lenCheck_inRange h1 h20 _)
  · rintro i (rfl | rfl | rfl) <;> exact congrArg (Act.out · s) (lenCheck_outside hout _)
  · refine nextInstr_illegal (by simp [hp, elementPlaces]) ?_
    simp only [decodeField, readCtx, hp]
    exact decodeDelta_outside hout _

/-! ### Steps of a core whose host is silent -/

/-- Some number of steps leads from one state to the other. -/
def Reaches : State → State → Prop := Relation.ReflTransGen fun s t => step s = .next t

theorem reaches_of_step {s t : State} (h : step s = .next t) : Reaches s t := .single h

theorem run_of_step (M : Host.Core) {s u : M.State} (h : M.step s = .next u) (n : Nat) : M.run (n + 1) s = M.run n u := by
  rw [Host.Core.run, h]

theorem Reaches.exists_run {s t : State} (h : Reaches s t) : ∃ n, Host.Core.run Sys2Proof.core n s = .next t := by
  induction h using Relation.ReflTransGen.head_induction_on with
  | refl => exact ⟨0, rfl⟩
  | head hstep _ ih =>
    obtain ⟨n, hn⟩ := ih
    exact ⟨n + 1, (run_of_step Sys2Proof.core hstep n).trans hn⟩

theorem reaches_of_op {s t : State} {i : Instr} (hh : s.host = []) (hi : nextInstr s = some i)
    (hne : i ≠ .origCheck ∧ i ≠ .bucketStart ∧ i ≠ .chainBuild) (he : exec i s = .next t) : Reaches s t :=
  reaches_of_step ((step_core_alone (.inl ⟨hh, rfl⟩) hi hne).trans he)

/-! ### The bytes of an element read from an empty reader (R121, R122) -/

/-- The place `p` has just been reached, with no bit left in the reader, and the host is silent. -/
structure StartsAt (p : Pos) (s : State) : Prop where
  pos : s.pos = p
  fLen : s.fLen = 0
  fVal : s.fVal = 0
  accN : s.accN = 0
  host : s.host = []

/-- From `s` the core has come to `t` by reading the bytes `bs` of one element; the tokens `ts` are still presented. -/
structure HasRead (s : State) (bs : List Byte) (ts : List Token) (t : State) : Prop where
  reaches : Reaches s t
  bits : BitsRead s (8 * bs.length) bs ts t

theorem HasRead.nil {s : State} : HasRead s [] s.inPort s where
  reaches := .refl
  bits := {
    fLen := rfl
    fVal := by simp
    accN := rfl
    unread := by simp
    inPort := rfl
    inBytes := by simp
    frame := rfl }

/-- With an empty reader, FETCH_BYTE and READ_BITS take the next byte whole. -/
theorem bitsRead_byte {s : State} {b : Byte} {ts : List Token} (ha : s.accN = 0) :
    BitsRead s 8 [b] ts (takeBits 8 (takeByte b ts s)) := by
  have hempty : s.accN.toNat = 0 := by rw [ha]; rfl
  refine takeBits_of_refilled (by decide) ?_ (by simp [hempty])
  exact {
    accN := takeByte_accN (by omega) b ts
    unread := takeByte_unreadVal_nil (by omega) b ts
    inPort := rfl
    inBytes := takeByte_inBytes b ts s
    frame := takeByte_frame b ts s }

section

variable {p : Pos} {s t : State} {bs : List Byte} {ts : List Token} (hs : StartsAt p s) (h : HasRead s bs ts t)
include hs h

theorem HasRead.pos : t.pos = p := by
  have hf : sameButField s t := h.bits.frame
  unfold sameButField at hf
  rw [hf]
  exact hs.pos

theorem HasRead.host : t.host = [] := by
  have hf : sameButField s t := h.bits.frame
  unfold sameButField at hf
  rw [hf]
  exact hs.host

theorem HasRead.accN : t.accN = 0 := by
  have hbits := h.bits.accN
  rw [hs.accN] at hbits
  exact BitVec.eq_of_toNat_eq (by simpa using hbits)

/-- The field read is the number of the bytes. -/
theorem HasRead.fieldRead : Machine.fieldRead t = ⟨8 * bs.length, bytesVal bs⟩ := by
  have hlen := h.bits.fLen
  have hval := h.bits.fVal
  rw [hs.fLen, Nat.zero_add] at hlen
  rw [hs.fVal, hs.accN] at hval
  rw [Machine.fieldRead, hlen, hval]
  simp [unreadVal, hs.accN, Nat.mod_one]

/-- One more byte of the element is read, in two steps. -/
theorem HasRead.next {b : Byte} {ts' : List Token} (hts : ts = .byte b :: ts') (hp : p ∈ elementPlaces)
    (hmore : decodeField (readCtx t) (Machine.fieldRead t) = .more 8) : ∃ u, HasRead s (bs ++ [b]) ts' u := by
  subst hts
  have ha := h.accN hs
  have hplace : t.pos ∈ elementPlaces := h.pos hs ▸ hp
  have hfetch : Reaches t (takeByte b ts' t) := by
    refine reaches_of_op (i := .fetchByte) (h.host hs) ?_ (by simp) (congrArg (Act.out · t) (refillOnce_byte h.bits.inPort))
    rw [nextInstr_more hplace hmore, readStep, if_pos (by rw [ha]; decide)]
  have haccN : (takeByte b ts' t).accN.toNat = 8 := by rw [takeByte_accN (by rw [ha]; decide), ha]; rfl
  have hread : Reaches (takeByte b ts' t) (takeBits 8 (takeByte b ts' t)) := by
    have hbits : readBits 8 (takeByte b ts' t) = .go (takeBits 8 (takeByte b ts' t)) := by
      rw [readBits, if_pos (by decide), refill, if_neg (by omega), Act.bind_go]
    refine reaches_of_op (s := takeByte b ts' t) (i := .readBits 8) (h.host hs :) ?_ (by simp)
      (congrArg (Act.out · (takeByte b ts' t)) hbits)
    rw [nextInstr_more (s := takeByte b ts' t) hplace hmore, readStep, if_neg (by omega)]
  refine ⟨takeBits 8 (takeByte b ts' t), (h.reaches.trans hfetch).trans hread, ?_⟩
  have hbits := h.bits.trans (bitsRead_byte (b := b) (ts := ts') ha) (by omega) (by simp)
  rwa [List.length_append]

/-- The whole element is run. -/
theorem HasRead.run {i : Instr} {u : State} (hp : p ∈ elementPlaces)
    (hdec : decodeField (readCtx t) (Machine.fieldRead t) = .run i)
    (hne : i ≠ .origCheck ∧ i ≠ .bucketStart ∧ i ≠ .chainBuild) (he : exec i t = .next u) : Reaches s u :=
  h.reaches.trans (reaches_of_op (h.host hs) (nextInstr_run (h.pos hs ▸ hp) hdec) hne he)

end

/-! ### The stream header -/

/-- The registers that nothing in the stream header writes once START has cleared the stream. -/
def streamRegs (s : State) : Word × Bool × ErrCode × Word × Bool := (s.len, s.cmdRej, s.errCode, s.totalCrc, s.blkLoaded)

theorem sameButField_streamRegs {s t : State} (h : sameButField s t) : streamRegs t = streamRegs s := by
  unfold sameButField at h
  rw [h]
  rfl

/-- The three bytes of the signature lead to the level digit (R130). -/
theorem reaches_level {s : State} {ts : List Token} (hs : StartsAt .sig s)
    (hin : s.inPort = .byte 0x42 :: .byte 0x5A :: .byte 0x68 :: ts) :
    ∃ t, HasRead s [0x42, 0x5A, 0x68] ts t ∧ Reaches s (goto .level t) := by
  have hplace : Pos.sig ∈ elementPlaces := by decide
  have hdec {bs : List Byte} {ts : List Token} {t : State} (h : HasRead s bs ts t) :
      decodeField (readCtx t) (fieldRead t) = decodeSig ⟨8 * bs.length, bytesVal bs⟩ := by
    rw [decodeField_sig (h.pos hs), h.fieldRead hs]
  have h0 : HasRead s [] s.inPort s := .nil
  obtain ⟨t1, h1⟩ := h0.next hs hin hplace ((hdec h0).trans (decodeSig_more (.inl rfl)))
  obtain ⟨t2, h2⟩ := h1.next hs rfl hplace ((hdec h1).trans (decodeSig_more (.inr (.inl (by decide)))))
  obtain ⟨t3, h3⟩ := h2.next hs rfl hplace ((hdec h2).trans (decodeSig_more (.inr (.inr (by decide)))))
  exact ⟨t3, h3, h3.run hs hplace ((hdec h3).trans (decodeSig_run (by decide))) (by simp) rfl⟩

/-- The level digit ends START in PAUSED (R131, R132). -/
theorem reaches_paused {s : State} {d : Byte} {ts : List Token} (hs : StartsAt .level s) (hin : s.inPort = .byte d :: ts)
    (hlo : 0x31 ≤ d.toNat) (hhi : d.toNat ≤ 0x39) :
    ∃ t, HasRead s [d] ts t ∧ Reaches s { t with
      level := BitVec.ofNat 4 (d.toNat - 0x30), dbufSize := BitVec.ofNat 20 (100000 * (d.toNat - 0x30))
      ctl := .paused, pos := .idle, fLen := 0, fVal := 0 } := by
  have hplace : Pos.level ∈ elementPlaces := by decide
  have h0 : HasRead s [] s.inPort s := .nil
  obtain ⟨t, ht⟩ := h0.next hs hin hplace (by rw [decodeField_level (h0.pos hs), h0.fieldRead hs]; rfl)
  refine ⟨t, ht, ht.run hs hplace (i := .level d) ?_ (by simp) (exec_level_digit hlo hhi t)⟩
  have hval : t.fVal = d.toNat := (congrArg Field.val (ht.fieldRead hs)).trans (by simp [bytesVal])
  rw [decodeField_level (ht.pos hs), ht.fieldRead hs, hval, BitVec.ofNat_toNat, BitVec.setWidth_eq]
  rfl

/-- The state START leaves with the host's list at its end (R242). -/
theorem step_start {s : State} (hidle : s.ctl.busy = false) (hh : s.host = [.write 0 4 1]) :
    ∃ t, step s = .next t ∧ StartsAt .sig t ∧ t.inPort = s.inPort ∧ t.inBytes = 0 ∧
      streamRegs t = (s.len, false, .none, 0, false) :=
  ⟨_, (step_command hh).trans (startClearsTheStream { s with host := [] } hidle),
    ⟨rfl, rfl, rfl, rfl, rfl⟩, rfl, rfl, rfl⟩

/-- Settles O24: START, the signature and the level digit, each from the state the one before it reaches. -/
theorem startOpensAStream : Obligations.StartOpensAStream := by
  unfold Obligations.StartOpensAStream
  intro s d rest hidle hh hin hlo hhi
  obtain ⟨s1, hstart, hs1, hin1, hbytes1, hregs1⟩ := step_start hidle hh
  obtain ⟨u, hu, hlevel⟩ := reaches_level hs1 (hin1.trans hin)
  have hs2 : StartsAt .level (goto .level u) := ⟨rfl, rfl, rfl, (hu.accN hs1 :), (hu.host hs1 :)⟩
  obtain ⟨t, ht, hpaused⟩ := reaches_paused hs2 hu.bits.inPort hlo hhi
  have hbytes : t.inBytes = 4 := by
    rw [ht.bits.inBytes, goto_inBytes, hu.bits.inBytes, hbytes1]
    rfl
  have hregs : streamRegs t = (s.len, false, .none, 0, false) :=
    calc
      streamRegs t = streamRegs (goto .level u) := sameButField_streamRegs ht.bits.frame
      _ = streamRegs u := rfl
      _ = streamRegs s1 := sameButField_streamRegs hu.bits.frame
      _ = _ := hregs1
  simp only [streamRegs, Prod.mk.injEq] at hregs
  obtain ⟨hlen, hrej, herr, hcrc, hloaded⟩ := hregs
  have hempty : t.accN = 0 := ht.accN hs2
  obtain ⟨n, hn⟩ := Reaches.exists_run ((reaches_of_step hstart).trans (hlevel.trans hpaused))
  refine ⟨n, _, hn, rfl, ?_, ?_, hbytes, hempty, ht.bits.inPort, hloaded, hcrc, herr, hrej, hlen⟩ <;>
    rw [BitVec.toNat_ofNat] <;> omega

end Sys2Proof.Machine

/-! ## The tables of a group (R146 to R149, R173) -/

namespace Sys2Proof.Machine

/-! ### The guards of the group tables (R62) -/

theorem tableGuard_inside {s : State} (hg : s.loopG < 6) (hsym : s.symTotal.toNat ≤ 256) (k : Act) :
    tableGuard s k = k :=
  (guardIx_of_lt hg).trans (guardIx_of_lt (Nat.lt_succ_of_le (Nat.add_le_add_right hsym 2)))

theorem lenIx_inside {m : MemId} {l : Nat} (h1 : 1 ≤ l) (hl : l ≤ 20) (k : Act) : lenIx m l k = k :=
  (if_pos h1).trans (guardIx_of_lt (Nat.lt_succ_of_le hl))

theorem lenGuard_inside {s : State} (h1 : 1 ≤ minLenAt s s.loopG) (hlo : minLenAt s s.loopG ≤ 20)
    (hhi : maxLenAt s s.loopG ≤ 20) (k : Act) : lenGuard s k = k :=
  (lenIx_inside h1 hlo _).trans (guardIx_of_lt (Nat.lt_succ_of_le hhi))

/-! ### MIN_LEN and MAX_LEN (R146) -/

/-- From 31, which is above every length, the fold is the least entry. -/
theorem leastLen_eq_min {ls : List Nat} (hne : ls ≠ []) (h : ∀ l ∈ ls, l ≤ 31) : leastLen ls = ls.min hne := by
  rw [leastLen, List.foldl_min_eq_min hne]
  exact min_eq_right (h _ (List.min_mem hne))

theorem greatestLen_eq_max {ls : List Nat} (hne : ls ≠ []) : greatestLen ls = ls.max hne := by
  rw [greatestLen, List.foldl_max_eq_max hne]
  exact max_eq_right (Nat.zero_le _)

theorem lengthList_ne_nil (s : State) : lengthList s ≠ [] := by
  refine List.ne_nil_of_length_pos ?_
  rw [lengthList_length, symCount]
  omega

/-- The state with the extreme lengths of the group stored (R146). -/
def storeExtremes (s : State) : State :=
  { s with
    minLen := memWrite s.minLen s.loopG (BitVec.ofNat 5 (leastLen (lengthList s)))
    maxLen := memWrite s.maxLen s.loopG (BitVec.ofNat 5 (greatestLen (lengthList s))) }

theorem exec_minmax {s : State} (hg : s.loopG < 6) (hsym : s.symTotal.toNat ≤ 256) :
    exec .minmax s = .next (goto .permute (storeExtremes s)) :=
  congrArg (Act.out · s) (tableGuard_inside hg hsym _)

theorem minLenAt_storeExtremes {s : State} (h : ∀ l ∈ lengthList s, l ≤ 20) :
    minLenAt (storeExtremes s) s.loopG = (lengthList s).min (lengthList_ne_nil s) := by
  have hfits := h _ (List.min_mem (lengthList_ne_nil s))
  rw [minLenAt, storeExtremes, memRead_memWrite_same,
    leastLen_eq_min (lengthList_ne_nil s) fun l hl => (h l hl).trans (by decide), BitVec.toNat_ofNat]
  omega

theorem maxLenAt_storeExtremes {s : State} (h : ∀ l ∈ lengthList s, l ≤ 20) :
    maxLenAt (storeExtremes s) s.loopG = (lengthList s).max (lengthList_ne_nil s) := by
  have hfits := h _ (List.max_mem (lengthList_ne_nil s))
  rw [maxLenAt, storeExtremes, memRead_memWrite_same, greatestLen_eq_max (lengthList_ne_nil s), BitVec.toNat_ofNat]
  omega

/-- Settles O39: the folds of MINMAX are the least and the greatest entry, which fit the five bits of a length. -/
theorem minMaxAreTheExtremeLengths : Obligations.MinMaxAreTheExtremeLengths := by
  unfold Obligations.MinMaxAreTheExtremeLengths
  intro s hg hsym hlen
  have hne := lengthList_ne_nil s
  have hmin : minLenAt (goto .permute (storeExtremes s)) s.loopG = (lengthList s).min hne :=
    minLenAt_storeExtremes fun l hl => (hlen l hl).2
  have hmax : maxLenAt (goto .permute (storeExtremes s)) s.loopG = (lengthList s).max hne :=
    maxLenAt_storeExtremes fun l hl => (hlen l hl).2
  refine ⟨_, exec_minmax hg hsym, ?_⟩
  rw [hmin, hmax]
  refine ⟨fun l hl => ⟨List.min_le_of_mem hl, List.le_max_of_mem hl⟩, List.min_mem hne, List.max_mem hne,
    (hlen _ (List.min_mem hne)).1, List.min_le_of_mem (List.max_mem hne), (hlen _ (List.max_mem hne)).2, ?_, rfl⟩
  exact fun g hg => ⟨congrArg BitVec.toNat (memRead_memWrite_other _ _ _ _ hg.symm),
    congrArg BitVec.toNat (memRead_memWrite_other _ _ _ _ hg.symm)⟩

/-! ### PERMUTE (R147) -/

theorem lenRange_pairwise_lt (lo hi : Nat) : (lenRange lo hi).Pairwise (· < ·) :=
  List.pairwise_map.2 (List.pairwise_lt_range.imp fun h => Nat.add_lt_add_left h lo)

theorem mem_lenRange {lo hi l : Nat} : l ∈ lenRange lo hi ↔ lo ≤ l ∧ l ≤ hi := by
  simp only [lenRange, List.mem_map, List.mem_range]
  exact ⟨by rintro ⟨k, hk, rfl⟩; omega, fun h => ⟨l - lo, by omega, by omega⟩⟩

theorem symbolsOfLen_pairwise_lt (ls : List Nat) (l : Nat) : (symbolsOfLen ls l).Pairwise (· < ·) := by
  have hsub : (symbolsOfLen ls l).Sublist (ls.zipIdx.map Prod.snd) := List.filter_sublist.map _
  rw [List.zipIdx_map_snd] at hsub
  exact List.Pairwise.sublist hsub List.pairwise_lt_range'

/-- Symbol `i` comes before symbol `j`: it has the shorter code, or one of the same length and the smaller number (R147). -/
def codeBefore (ls : List Nat) (i j : Nat) : Prop := ls[i]! < ls[j]! ∨ (ls[i]! = ls[j]! ∧ i < j)

theorem getElem!_of_mem_symbolsOfLen {ls : List Nat} {l i : Nat} (h : i ∈ symbolsOfLen ls l) : ls[i]! = l := by
  rw [List.getElem!_eq_getElem?_getD, mem_symbolsOfLen.1 h]
  rfl

/-- The lengths rise from one bucket to the next, and within a bucket the numbers do. -/
theorem permOrder_pairwise_codeBefore (ls : List Nat) (lo hi : Nat) : (permOrder ls lo hi).Pairwise (codeBefore ls) := by
  refine List.pairwise_flatMap.2 ⟨fun l _ => ?_, (lenRange_pairwise_lt lo hi).imp fun hlt i hi j hj => .inl ?_⟩
  · refine (symbolsOfLen_pairwise_lt ls l).imp_of_mem fun hi hj hlt => .inr ⟨?_, hlt⟩
    rw [getElem!_of_mem_symbolsOfLen hi, getElem!_of_mem_symbolsOfLen hj]
  · rwa [getElem!_of_mem_symbolsOfLen hi, getElem!_of_mem_symbolsOfLen hj]

/-- With all lengths in the range every symbol stands in the order. -/
theorem mem_permOrder {ls : List Nat} {lo hi : Nat} (h : ∀ l ∈ ls, lo ≤ l ∧ l ≤ hi) {i : Nat} :
    i ∈ permOrder ls lo hi ↔ i < ls.length := by
  rw [permOrder, List.mem_flatMap]
  constructor
  · rintro ⟨l, -, hl⟩
    exact (List.getElem?_eq_some_iff.1 (mem_symbolsOfLen.1 hl)).1
  · exact fun hi => ⟨ls[i], mem_lenRange.2 (h _ (List.getElem_mem hi)), mem_symbolsOfLen.2 (List.getElem?_eq_getElem hi)⟩

theorem permOrder_length {ls : List Nat} {lo hi : Nat} (h : ∀ l ∈ ls, lo ≤ l ∧ l ≤ hi) :
    (permOrder ls lo hi).length = ls.length := by
  have hperm : (permOrder ls lo hi).Perm (List.range ls.length) :=
    (List.perm_ext_iff_of_nodup (permOrder_nodup ls lo hi) List.nodup_range).2 fun i => by
      rw [mem_permOrder h, List.mem_range]
  simpa using hperm.length_eq

/-- The order of R147 of the symbols of the group being built. -/
def groupOrder (s : State) : List Nat := permOrder (lengthList s) (minLenAt s s.loopG) (maxLenAt s s.loopG)

/-- The state with that order stored in PERMUTE (R147). -/
def storeOrder (s : State) : State :=
  { s with
    permute := memWriteSeq s.permute (tableIx Config.maxSymbols s.loopG 0) ((groupOrder s).map (BitVec.ofNat 9)) }

theorem exec_permute {s : State} (hg : s.loopG < 6) (hsym : s.symTotal.toNat ≤ 256) :
    exec .permute s = .next (goto .temp (storeOrder s)) :=
  congrArg (Act.out · s) (tableGuard_inside hg hsym _)

theorem permuteAt_storeOrder {s : State} {p : Nat} (hp : p < (groupOrder s).length)
    (hfits : (groupOrder s)[p] < 2 ^ 9) :
    (permuteAt (storeOrder s) s.loopG p).toNat = (groupOrder s)[p] := by
  have hread : permuteAt (storeOrder s) s.loopG p = BitVec.ofNat 9 (groupOrder s)[p] :=
    memRead_memWriteSeq_getElem? s.epoch .permute s.permute (tableIx Config.maxSymbols s.loopG 0) (k := p) (by simp [hp])
  rw [hread, BitVec.toNat_ofNat, Nat.mod_eq_of_lt hfits]

theorem permuteAt_storeOrder_other {s : State} {g k : Nat} (hlen : (groupOrder s).length ≤ 258) (hk : k < 258)
    (h : g ≠ s.loopG ∨ (groupOrder s).length ≤ k) : permuteAt (storeOrder s) g k = permuteAt s g k := by
  refine memRead_memWriteSeq_other _ _ _ _ ?_
  simp only [tableIx, Config.maxSymbols, List.length_map]
  omega

theorem lengthList_getElem! {s : State} {i : Nat} (h : i < symCount s) : (lengthList s)[i]! = lengthAt s i := by
  simp [lengthList, h]

/-- Settles O40: the order holds every symbol, and of any two of its entries the first comes before the second. -/
theorem permuteSortsTheSymbols : Obligations.PermuteSortsTheSymbols := by
  unfold Obligations.PermuteSortsTheSymbols
  intro s hg hsym hlen
  have hcount : symCount s = s.symTotal.toNat + 2 := rfl
  have hlength : (groupOrder s).length = symCount s := (permOrder_length hlen).trans (lengthList_length s)
  have hmem {p : Nat} (hp : p < (groupOrder s).length) : (groupOrder s)[p] < symCount s := by
    rw [← lengthList_length]
    exact (mem_permOrder hlen).1 (List.getElem_mem hp)
  have hread {p : Nat} (hp : p < (groupOrder s).length) :
      (permuteAt (goto .temp (storeOrder s)) s.loopG p).toNat = (groupOrder s)[p] :=
    permuteAt_storeOrder hp (by have := hmem hp; omega)
  refine ⟨goto .temp (storeOrder s), exec_permute hg hsym, fun p hp => ?_, fun p q hpq hq => ?_, fun g k hk h => ?_, rfl⟩
  · rw [hread (by omega)]
    exact hmem _
  · have hp : p < (groupOrder s).length := by omega
    have hq : q < (groupOrder s).length := by omega
    have hord : codeBefore (lengthList s) (groupOrder s)[p] (groupOrder s)[q] :=
      List.pairwise_iff_getElem.1 (permOrder_pairwise_codeBefore ..) p q hp hq hpq
    rw [hread hp, hread hq, ← lengthList_getElem! (hmem hp), ← lengthList_getElem! (hmem hq)]
    exact hord
  · exact permuteAt_storeOrder_other (by omega) hk (by rwa [hlength])

/-! ### TEMP (R148) -/

theorem symbolsOfLen_length (ls : List Nat) (l : Nat) : (symbolsOfLen ls l).length = ls.count l := by
  have hfst : ls.zipIdx.map Prod.fst = ls := List.zipIdx_map_fst 0 ls
  conv_rhs => rw [← hfst, List.count_eq_countP, List.countP_map, List.countP_eq_length_filter]
  rw [symbolsOfLen, List.length_map]
  rfl

/-- The number of symbols of each length of the group, from MIN_LEN to MAX_LEN, as TEMP holds it. -/
def lengthCounts (s : State) : List (BitVec 9) :=
  (lenRange (minLenAt s s.loopG) (maxLenAt s s.loopG)).map fun l =>
    BitVec.ofNat 9 (symbolsOfLen (lengthList s) l).length

/-- The state with those numbers stored in TEMP (R148). -/
def storeCounts (s : State) : State := { s with temp := memWriteSeq s.temp (minLenAt s s.loopG) (lengthCounts s) }

theorem lengthCounts_length (s : State) :
    (lengthCounts s).length = maxLenAt s s.loopG + 1 - minLenAt s s.loopG := by
  simp [lengthCounts, lenRange]

theorem lengthCounts_getElem? {s : State} {k : Nat} (h : minLenAt s s.loopG + k ≤ maxLenAt s s.loopG) :
    (lengthCounts s)[k]? = some (BitVec.ofNat 9 ((lengthList s).count (minLenAt s s.loopG + k))) := by
  rw [← symbolsOfLen_length, lengthCounts, lenRange, List.map_map, List.getElem?_map, List.getElem?_range (by omega)]
  rfl

/-- Settles O41: TEMP is written from MIN_LEN on with the sizes of the buckets; none is above the 258 symbols. -/
theorem tempCountsTheLengths : Obligations.TempCountsTheLengths := by
  unfold Obligations.TempCountsTheLengths
  intro s hg hsym h1 hlo hhi
  have hexec : exec .temp s = .next (goto .limitBase (storeCounts s)) :=
    congrArg (Act.out · s) ((tableGuard_inside hg hsym _).trans (lenGuard_inside h1 hlo hhi _))
  refine ⟨_, hexec, fun l hmin hmax => ?_, fun l hl => ?_, rfl⟩
  · obtain ⟨k, rfl⟩ := Nat.exists_eq_add_of_le hmin
    have hcount : (lengthList s).count (minLenAt s s.loopG + k) ≤ symCount s :=
      List.count_le_length.trans_eq (lengthList_length s)
    have hread := memRead_memWriteSeq_getElem? s.epoch .temp s.temp (minLenAt s s.loopG) (lengthCounts_getElem? hmax)
    refine (congrArg BitVec.toNat hread).trans ?_
    rw [BitVec.toNat_ofNat, Nat.mod_eq_of_lt]
    simp only [symCount] at hcount
    omega
  · refine congrArg BitVec.toNat (memRead_memWriteSeq_other _ _ _ _ ?_)
    rw [lengthCounts_length]
    omega

end Sys2Proof.Machine

/-! ## LIMIT and BASE are canonical, and bound the index into PERMUTE (R149, R172, R173) -/

namespace Sys2Proof.Machine

/-! ### The canonical derivation -/

section

variable (T : Nat → Nat) (lo : Nat)

/-- The greatest codeword value of length `lo + k`, one below the first where there is no such codeword (R149). -/
def canonicalLimit (k : Nat) : Int := firstCode T lo k + T (lo + k) - 1

/-- The first codeword value of length `lo + k` less the symbols of the shorter lengths (R149). -/
def canonicalBase (k : Nat) : Int := firstCode T lo k - symbolsBelow T lo k

theorem symbolsBelow_succ (k : Nat) : symbolsBelow T lo (k + 1) = symbolsBelow T lo k + T (lo + k) :=
  List.sum_range_succ ..

theorem symbolsBelow_mono {j k : Nat} (h : j ≤ k) : symbolsBelow T lo j ≤ symbolsBelow T lo k :=
  monotone_nat_of_le_succ (fun i => by rw [symbolsBelow_succ]; omega) h

/-- Each shorter code takes at least one value of the longer length away, so BASE is not negative. -/
theorem symbolsBelow_le_firstCode (k : Nat) : symbolsBelow T lo k ≤ firstCode T lo k := by
  induction k with
  | zero => exact Nat.le_refl 0
  | succ k ih =>
    rw [symbolsBelow_succ, firstCode]
    omega

/-- A value is doubled at most once for each further bit. -/
theorem firstCode_le (k : Nat) : firstCode T lo k ≤ 2 ^ k * symbolsBelow T lo k := by
  induction k with
  | zero => exact Nat.zero_le _
  | succ k ih =>
    have hpos : 1 ≤ 2 ^ k := Nat.one_le_two_pow
    calc
      firstCode T lo (k + 1) = 2 * (firstCode T lo k + T (lo + k)) := rfl
      _ ≤ 2 * (2 ^ k * symbolsBelow T lo k + 2 ^ k * T (lo + k)) :=
        Nat.mul_le_mul_left 2 (Nat.add_le_add ih (Nat.le_mul_of_pos_left _ hpos))
      _ = 2 ^ (k + 1) * symbolsBelow T lo (k + 1) := by
        rw [symbolsBelow_succ]
        ring

/-- For lengths in 1..20 and an alphabet of at most 258 symbols every codeword value fits the 32 bits of LIMIT and BASE. -/
theorem firstCode_lt {k : Nat} (hk : k ≤ 19) (htotal : symbolsBelow T lo (k + 1) ≤ 258) :
    firstCode T lo k + T (lo + k) < 2 ^ 31 := by
  have hpow : 2 ^ k ≤ 2 ^ 19 := Nat.pow_le_pow_right (by decide) hk
  have hsum := symbolsBelow_succ T lo k
  have hcode : firstCode T lo k ≤ 2 ^ 19 * 258 :=
    (firstCode_le T lo k).trans (Nat.mul_le_mul hpow (by omega))
  omega

end

/-! ### The entries of LIMIT and BASE -/

/-- LIMIT[g][l] as it is stored. -/
def limitCell (s : State) (g l : Nat) : BitVec 32 := memRead s.epoch .limit s.limitTab (tableIx lenColumns g l)

/-- BASE[g][l] as it is stored. -/
def baseCell (s : State) (g l : Nat) : BitVec 32 := memRead s.epoch .base s.baseTab (tableIx lenColumns g l)

theorem limitAt_eq (s : State) (g l : Nat) : limitAt s g l = (limitCell s g l).toInt := rfl

theorem baseAt_eq (s : State) (g l : Nat) : baseAt s g l = (baseCell s g l).toNat := rfl

theorem tableIx_inj {n g k g' k' : Nat} (hk : k < n) (hk' : k' < n) :
    tableIx n g k = tableIx n g' k' ↔ g = g' ∧ k = k' := by
  refine ⟨fun h => ?_, by rintro ⟨rfl, rfl⟩; rfl⟩
  have hdiv {a b : Nat} (hb : b < n) : tableIx n a b / n = a := by
    rw [tableIx, Nat.mul_add_div (by omega), Nat.div_eq_of_lt hb, Nat.add_zero]
  have hg : g = g' := by rw [← hdiv (a := g) hk, h, hdiv hk']
  subst hg
  exact ⟨rfl, Nat.add_left_cancel h⟩

section

variable (s : State) (g l : Nat) (v : Int) (g' l' : Nat)

@[simp] theorem limitCell_setBase : limitCell (setBase g l v s) g' l' = limitCell s g' l' := rfl

@[simp] theorem baseCell_setLimit : baseCell (setLimit g l v s) g' l' = baseCell s g' l' := rfl

variable {l l'}

theorem limitCell_setLimit (hl : l ≤ 20) (hl' : l' ≤ 20) :
    limitCell (setLimit g l v s) g' l' = if g = g' ∧ l = l' then BitVec.ofInt 32 v else limitCell s g' l' := by
  rw [limitCell, setLimit_limitTab, memRead_memWrite]
  exact if_congr (tableIx_inj (Nat.lt_succ_of_le hl) (Nat.lt_succ_of_le hl')) rfl rfl

theorem baseCell_setBase (hl : l ≤ 20) (hl' : l' ≤ 20) :
    baseCell (setBase g l v s) g' l' = if g = g' ∧ l = l' then BitVec.ofInt 32 v else baseCell s g' l' := by
  rw [baseCell, setBase_baseTab, memRead_memWrite]
  exact if_congr (tableIx_inj (Nat.lt_succ_of_le hl) (Nat.lt_succ_of_le hl')) rfl rfl

end

/-! ### The loop of R149 -/

/-- One turn of the loop at the length `lo + j`, with the sums of R149 in their closed forms. -/
theorem limitBaseLoop_turn {s : State} {T : Nat → Nat} {lo j : Nat} (hT : T = tempAt s) (g k : Nat) :
    limitBaseLoop g (k + 1) (lo + j) (firstCode T lo j) (symbolsBelow T lo j) s =
      limitBaseLoop g k (lo + (j + 1)) (firstCode T lo (j + 1)) (symbolsBelow T lo (j + 1))
        (setBase g (lo + (j + 1)) (canonicalBase T lo (j + 1)) (setLimit g (lo + j) (canonicalLimit T lo j) s)) := by
  have hfirst : (firstCode T lo (j + 1) : Int) = 2 * (firstCode T lo j + T (lo + j)) := by
    rw [firstCode]
    push_cast
    ring
  have hsum : (symbolsBelow T lo (j + 1) : Int) = symbolsBelow T lo j + T (lo + j) := by
    rw [symbolsBelow_succ]
    push_cast
    ring
  rw [limitBaseLoop, canonicalBase, canonicalLimit, hfirst, hsum, hT]
  rfl

section

variable {T : Nat → Nat} {lo hi g k j l : Nat} (g' : Nat) {s : State}
  (hT : T = tempAt s) (hlo : minLenAt s g = lo) (hhi : maxLenAt s g = hi) (hk : lo + j + k = hi) (h20 : hi ≤ 20)
  (hl : l ≤ 20)
include hT hlo hhi hk h20 hl

/-- From the length `lo + j` on the loop writes LIMIT of that length and of the greater ones. -/
theorem limitBaseLoop_limitCell :
    limitCell (limitBaseLoop g k (lo + j) (firstCode T lo j) (symbolsBelow T lo j) s) g' l =
      if g = g' ∧ lo + j ≤ l ∧ l ≤ hi then BitVec.ofInt 32 (canonicalLimit T lo (l - lo)) else limitCell s g' l := by
  induction k generalizing j s with
  | zero =>
    rw [limitBaseLoop, limitCell_setBase, limitCell_setLimit s g _ g' (by omega) hl, hhi]
    by_cases hlast : hi = l
    · obtain rfl : l = lo + j := by omega
      simp [canonicalLimit, hT, hlast]
    · rw [if_neg (by omega), if_neg (by omega)]
  | succ k ih =>
    rw [limitBaseLoop_turn hT, ih (s := setBase _ _ _ (setLimit _ _ _ s)) hT hlo hhi (by omega), limitCell_setBase,
      limitCell_setLimit s g _ g' (by omega) hl]
    by_cases hfirst : lo + j = l
    · subst hfirst
      rw [if_neg (by omega), Nat.add_sub_cancel_left]
      exact if_congr (by omega) rfl rfl
    · rw [if_neg (c := g = g' ∧ lo + j = l) (by omega)]
      exact if_congr (by omega) rfl rfl

/-- From the length `lo + j` on the loop writes BASE of the greater lengths, and at its end BASE of MIN_LEN. -/
theorem limitBaseLoop_baseCell :
    baseCell (limitBaseLoop g k (lo + j) (firstCode T lo j) (symbolsBelow T lo j) s) g' l =
      if g = g' ∧ (l = lo ∨ lo + j < l ∧ l ≤ hi) then BitVec.ofInt 32 (canonicalBase T lo (l - lo))
      else baseCell s g' l := by
  induction k generalizing j s with
  | zero =>
    rw [limitBaseLoop, baseCell_setBase (setLimit _ _ _ s) g _ g' (by omega) hl, baseCell_setLimit, hlo]
    by_cases hmin : lo = l
    · simp [hmin, canonicalBase, firstCode, symbolsBelow]
    · rw [if_neg (by omega), if_neg (by omega)]
  | succ k ih =>
    rw [limitBaseLoop_turn hT, ih (s := setBase _ _ _ (setLimit _ _ _ s)) hT hlo hhi (by omega),
      baseCell_setBase (setLimit _ _ _ s) g _ g' (by omega) hl, baseCell_setLimit]
    by_cases hnext : lo + (j + 1) = l
    · subst hnext
      rw [if_neg (by omega), Nat.add_sub_cancel_left]
      exact if_congr (by omega) rfl rfl
    · rw [if_neg (c := g = g' ∧ lo + (j + 1) = l) (by omega)]
      exact if_congr (by omega) rfl rfl

end

/-! ### LIMIT_BASE -/

/-- The state with LIMIT and BASE of the group built (R149). -/
def buildTables (s : State) : State :=
  limitBaseLoop s.loopG (maxLenAt s s.loopG - minLenAt s s.loopG) (minLenAt s s.loopG) 0 0 s

theorem buildTables_frame (s : State) :
    buildTables s = { s with limitTab := (buildTables s).limitTab, baseTab := (buildTables s).baseTab } :=
  limitBaseLoop_frame ..

theorem gotoNextGroup_eq (s : State) : gotoNextGroup s = { s with
    fLen := 0, fVal := 0
    pos := if s.loopG + 1 < s.groupCount.toNat then .lenStart else .symInit
    loopG := if s.loopG + 1 < s.groupCount.toNat then s.loopG + 1 else s.loopG } := by
  rw [gotoNextGroup]
  split <;> rfl

theorem limitCell_gotoNextGroup (s : State) (g l : Nat) : limitCell (gotoNextGroup s) g l = limitCell s g l := by
  rw [gotoNextGroup_eq]
  rfl

theorem baseCell_gotoNextGroup (s : State) (g l : Nat) : baseCell (gotoNextGroup s) g l = baseCell s g l := by
  rw [gotoNextGroup_eq]
  rfl

section

variable {s : State} {l : Nat} (g' : Nat) (hle : minLenAt s s.loopG ≤ maxLenAt s s.loopG)
  (h20 : maxLenAt s s.loopG ≤ 20) (hl : l ≤ 20)
include hle h20 hl

theorem limitCell_buildTables :
    limitCell (gotoNextGroup (buildTables s)) g' l =
      if s.loopG = g' ∧ minLenAt s s.loopG ≤ l ∧ l ≤ maxLenAt s s.loopG then
        BitVec.ofInt 32 (canonicalLimit (tempAt s) (minLenAt s s.loopG) (l - minLenAt s s.loopG))
      else limitCell s g' l := by
  have hk : minLenAt s s.loopG + 0 + (maxLenAt s s.loopG - minLenAt s s.loopG) = maxLenAt s s.loopG := by omega
  rw [limitCell_gotoNextGroup]
  exact limitBaseLoop_limitCell g' rfl rfl rfl hk h20 hl

theorem baseCell_buildTables :
    baseCell (gotoNextGroup (buildTables s)) g' l =
      if s.loopG = g' ∧ minLenAt s s.loopG ≤ l ∧ l ≤ maxLenAt s s.loopG then
        BitVec.ofInt 32 (canonicalBase (tempAt s) (minLenAt s s.loopG) (l - minLenAt s s.loopG))
      else baseCell s g' l := by
  have hk : minLenAt s s.loopG + 0 + (maxLenAt s s.loopG - minLenAt s s.loopG) = maxLenAt s s.loopG := by omega
  rw [baseCell_gotoNextGroup]
  refine (limitBaseLoop_baseCell g' rfl rfl rfl hk h20 hl).trans (if_congr ?_ rfl rfl)
  omega

end

section

variable {s : State} (h1 : 1 ≤ minLenAt s s.loopG) (hle : minLenAt s s.loopG ≤ maxLenAt s s.loopG)
  (h20 : maxLenAt s s.loopG ≤ 20)
  (htotal : symbolsBelow (tempAt s) (minLenAt s s.loopG) (maxLenAt s s.loopG + 1 - minLenAt s s.loopG) ≤ 258)
  {k : Nat} (hk : minLenAt s s.loopG + k ≤ maxLenAt s s.loopG)
include h1 hle h20 htotal hk

theorem firstCode_lt_of_total :
    firstCode (tempAt s) (minLenAt s s.loopG) k + tempAt s (minLenAt s s.loopG + k) < 2 ^ 31 :=
  firstCode_lt _ _ (by omega) ((symbolsBelow_mono _ _ (by omega)).trans htotal)

/-- LIMIT holds the greatest codeword value exactly. -/
theorem limitAt_buildTables :
    limitAt (gotoNextGroup (buildTables s)) s.loopG (minLenAt s s.loopG + k) =
      canonicalLimit (tempAt s) (minLenAt s s.loopG) k := by
  have hfits := firstCode_lt_of_total h1 hle h20 htotal hk
  rw [limitAt_eq, limitCell_buildTables _ hle h20 (by omega), if_pos (by omega), Nat.add_sub_cancel_left]
  refine BitVec.toInt_ofInt_eq_self (by decide) ?_ ?_ <;> simp only [canonicalLimit] <;> omega

/-- BASE holds the first codeword value less the shorter symbols exactly, which is never negative. -/
theorem baseAt_buildTables :
    baseAt (gotoNextGroup (buildTables s)) s.loopG (minLenAt s s.loopG + k) +
      symbolsBelow (tempAt s) (minLenAt s s.loopG) k = firstCode (tempAt s) (minLenAt s s.loopG) k := by
  have hfits := firstCode_lt_of_total h1 hle h20 htotal hk
  have hnonneg := symbolsBelow_le_firstCode (tempAt s) (minLenAt s s.loopG) k
  rw [baseAt_eq, baseCell_buildTables _ hle h20 (by omega), if_pos (by omega), Nat.add_sub_cancel_left, canonicalBase,
    ← Nat.cast_sub hnonneg, BitVec.ofInt_natCast, BitVec.toNat_ofNat]
  omega

end

/-- At a length where decoding stops, R172's index is not negative and below the number of symbols: the value is not above
LIMIT there, and at the length before the value read was above LIMIT, so the longer value is at or above the first. -/
theorem index_in_range {T : Nat → Nat} {lo k v base total : Nat} (hbase : base + symbolsBelow T lo k = firstCode T lo k)
    (htotal : symbolsBelow T lo (k + 1) ≤ total) (hlimit : (v : Int) ≤ canonicalLimit T lo k)
    (hbefore : ∀ j, k = j + 1 → canonicalLimit T lo j < ((v / 2 : Nat) : Int)) : base ≤ v ∧ v < base + total := by
  have hsum := symbolsBelow_succ T lo k
  rw [canonicalLimit] at hlimit
  have hfirst : firstCode T lo k ≤ v := by
    cases k with
    | zero => exact Nat.zero_le v
    | succ j =>
      have hj := hbefore j rfl
      rw [canonicalLimit] at hj
      rw [firstCode]
      omega
  omega

theorem exec_limitBase {s : State} (hg : s.loopG < 6) (hsym : s.symTotal.toNat ≤ 256) (h1 : 1 ≤ minLenAt s s.loopG)
    (hle : minLenAt s s.loopG ≤ maxLenAt s s.loopG) (h20 : maxLenAt s s.loopG ≤ 20) :
    exec .limitBase s = .next (gotoNextGroup (buildTables s)) :=
  congrArg (Act.out · s) ((tableGuard_inside hg hsym _).trans
    ((lenGuard_inside h1 (hle.trans h20) h20 _).trans (lenIx_inside (h1.trans hle) h20 _)))

/-- Settles O42: the loop of R149 in closed form, and the bounds of R173 from it. -/
theorem canonicalTablesIndexPermute : Obligations.CanonicalTablesIndexPermute := by
  unfold Obligations.CanonicalTablesIndexPermute
  intro s hg hsym h1 hle h20 htotal
  have h258 : symbolsBelow (tempAt s) (minLenAt s s.loopG) (maxLenAt s s.loopG + 1 - minLenAt s s.loopG) ≤ 258 := by omega
  have hlimit {k : Nat} (hk : minLenAt s s.loopG + k ≤ maxLenAt s s.loopG) := limitAt_buildTables h1 hle h20 h258 hk
  have hbase {k : Nat} (hk : minLenAt s s.loopG + k ≤ maxLenAt s s.loopG) := baseAt_buildTables h1 hle h20 h258 hk
  refine ⟨_, exec_limitBase hg hsym h1 hle h20, fun k hk => ⟨hlimit hk, hbase hk⟩, fun l v hmin hmax hv hbefore => ?_,
    fun g l hl hother => ?_, ?_⟩
  · obtain ⟨k, rfl⟩ := Nat.exists_eq_add_of_le hmin
    refine index_in_range (hbase hmax) ((symbolsBelow_mono _ _ (by omega)).trans_eq htotal) (hlimit hmax ▸ hv) ?_
    rintro j rfl
    rw [← hlimit (by omega)]
    exact hbefore (by omega)
  · rw [limitAt_eq, baseAt_eq, limitCell_buildTables g hle h20 hl, baseCell_buildTables g hle h20 hl,
      if_neg (by omega), if_neg (by omega)]
    exact ⟨rfl, rfl⟩
  · rw [gotoNextGroup_eq, buildTables_frame]

end Sys2Proof.Machine

/-! ## MTF_SYM stays a permutation (R170, R178, R179) -/

namespace Sys2Proof.Machine

/-- MTF_SYM[0..SYM_TOTAL-1] is a permutation of 0..SYM_TOTAL-1: it stays in that range, and no value stands twice. -/
structure MtfPermutes (s : State) : Prop where
  lt : ∀ k, k < s.symTotal.toNat → (mtfSymAt s k).toNat < s.symTotal.toNat
  inj : ∀ k l, k < s.symTotal.toNat → l < s.symTotal.toNat → mtfSymAt s k = mtfSymAt s l → k = l

theorem mtfWf_iff {s : State} : s.mtfWf ↔ s.symTotal.toNat ≤ 256 ∧ (s.ctl = .symbols → MtfPermutes s) :=
  and_congr_right' (imp_congr_right fun _ => ⟨fun ⟨hlt, hinj⟩ => ⟨hlt, hinj⟩, fun h => ⟨h.lt, h.inj⟩⟩)

/-- All that the permutation rests on: SYM_TOTAL, MTF_SYM and the draw of its unwritten entries. -/
def mtfParts (s : State) : BitVec 9 × Cells 8 × Nat := (s.symTotal, s.mtfSym, s.epoch)

/-- `t` has the list of `s`. -/
def KeepsMtf (s t : State) : Prop := mtfParts t = mtfParts s

section

variable {s t : State}

theorem KeepsMtf.symTotal (h : KeepsMtf s t) : t.symTotal = s.symTotal := congrArg Prod.fst h

theorem KeepsMtf.mtfSymAt (h : KeepsMtf s t) (k : Nat) : mtfSymAt t k = mtfSymAt s k :=
  congrArg (fun p : BitVec 9 × Cells 8 × Nat => memRead p.2.2 .mtfSym p.2.1 k) h

theorem MtfPermutes.congr (hs : MtfPermutes s) (h : KeepsMtf s t) : MtfPermutes t := by
  obtain ⟨hlt, hinj⟩ := hs
  constructor <;> simpa only [h.symTotal, h.mtfSymAt]

/-! ### Moving an entry to the front permutes the list -/

/-- The index whose entry stands at `k` after entry `j` is moved to the front (R178). -/
def frontIndex (j k : Nat) : Nat := if k = 0 then j else if k ≤ j then k - 1 else k

theorem frontIndex_lt {n j k : Nat} (hj : j < n) (hk : k < n) : frontIndex j k < n := by
  unfold frontIndex
  split_ifs <;> omega

theorem frontIndex_injective (j : Nat) : Function.Injective (frontIndex j) := by
  intro k l h
  unfold frontIndex at h
  split_ifs at h <;> omega

/-- The state with entry `j` of MTF_SYM moved to the front (R178). -/
def moveSymToFront (j : Nat) (s : State) : State := { s with mtfSym := moveToFront s.epoch .mtfSym s.mtfSym j }

theorem mtfSymAt_moveSymToFront (j k : Nat) (s : State) :
    mtfSymAt (moveSymToFront j s) k = mtfSymAt s (frontIndex j k) := by
  refine (memRead_moveToFront ..).trans ?_
  unfold frontIndex
  split_ifs <;> rfl

theorem MtfPermutes.moveSymToFront {j : Nat} (hs : MtfPermutes s) (hj : j < s.symTotal.toNat) :
    MtfPermutes (moveSymToFront j s) where
  lt k hk := by
    rw [mtfSymAt_moveSymToFront]
    exact hs.lt _ (frontIndex_lt hj hk)
  inj k l hk hl h := by
    rw [mtfSymAt_moveSymToFront, mtfSymAt_moveSymToFront] at h
    exact frontIndex_injective j (hs.inj _ _ (frontIndex_lt hj hk) (frontIndex_lt hj hl) h)

/-! ### SYM_INIT writes the identity list -/

/-- What SYM_INIT leaves: the identity list, zero counts and an empty DBUF (R170). -/
def freshSymbols (s : State) : State :=
  goto .groupSwitch { s with
    ctl := .symbols
    mtfSym := memWriteSeq s.mtfSym 0 ((List.range 256).map (BitVec.ofNat 8))
    byteCount := memWriteSeq s.byteCount 0 (List.replicate 256 0)
    dbufCount := 0
    selIdx := 0
    gsymLeft := 0
    runActive := false }

theorem exec_symInit (s : State) : exec .symInit s = .next (freshSymbols s) := rfl

theorem mtfSymAt_freshSymbols {k : Nat} (hk : k < 256) : mtfSymAt (freshSymbols s) k = BitVec.ofNat 8 k := by
  have hget : ((List.range 256).map (BitVec.ofNat 8))[k]? = some (BitVec.ofNat 8 k) := by
    rw [List.getElem?_map, List.getElem?_range hk, Option.map_some]
  calc
    mtfSymAt (freshSymbols s) k
      = memRead s.epoch .mtfSym (memWriteSeq s.mtfSym 0 ((List.range 256).map (BitVec.ofNat 8))) (0 + k) := by
        rw [Nat.zero_add, mtfSymAt, freshSymbols, goto_mtfSym, goto_epoch]
    _ = BitVec.ofNat 8 k := memRead_memWriteSeq_getElem? _ _ _ _ hget

theorem byteCountAt_freshSymbols {k : Nat} (hk : k < 256) : byteCountAt (freshSymbols s) k = 0 := by
  have hget : (List.replicate 256 (0 : BitVec 20))[k]? = some 0 := List.getElem?_replicate_of_lt hk
  calc
    byteCountAt (freshSymbols s) k
      = memRead s.epoch .byteCount (memWriteSeq s.byteCount 0 (List.replicate 256 0)) (0 + k) := by
        rw [Nat.zero_add, byteCountAt, freshSymbols, goto_byteCount, goto_epoch]
    _ = 0 := memRead_memWriteSeq_getElem? _ _ _ _ hget

theorem freshSymbols_permutes (hsym : s.symTotal.toNat ≤ 256) : MtfPermutes (freshSymbols s) := by
  have htotal : (freshSymbols s).symTotal = s.symTotal := by rw [freshSymbols, goto_symTotal]
  have hid : ∀ k, k < s.symTotal.toNat → (mtfSymAt (freshSymbols s) k).toNat = k := by
    intro k hk
    rw [mtfSymAt_freshSymbols (by omega), BitVec.toNat_ofNat]
    omega
  constructor
  · intro k hk
    rw [htotal] at hk ⊢
    rwa [hid k hk]
  · intro k l hk hl h
    rw [htotal] at hk hl
    rw [← hid k hk, h, hid l hl]

/-! ### Every other operation keeps the list -/

theorem KeepsMtf.refl : KeepsMtf s s := rfl

theorem KeepsMtf.trans {u : State} (h1 : KeepsMtf s t) (h2 : KeepsMtf t u) : KeepsMtf s u := Eq.trans h2 h1

theorem goto_keepsMtf (p : Pos) (h : KeepsMtf s t) : KeepsMtf s (goto p t) := h

theorem driveTurn_keepsMtf (s : State) : KeepsMtf s (driveTurn s) := by
  rw [driveTurn_frame]
  rfl

theorem sameButReading_keepsMtf (h : sameButReading s t) : KeepsMtf s t := by
  unfold sameButReading at h
  rw [h]
  rfl

theorem Act.Ensures.mono {P Q : State → Prop} {a : Act} (h : a.Ensures P) (hPQ : ∀ u, P u → Q u) :
    a.Ensures Q := by
  cases a with
  | go u | halt u => exact hPQ u h
  | hold | fault | refuse => trivial

theorem readBits_keepsMtf (n : Nat) (s : State) : (readBits n s).Ensures (KeepsMtf s) := by
  rcases readBits_frame n s with ⟨t, e, ht⟩ | e | ⟨t, c, e, ht, -⟩ | ⟨r, e⟩ <;> rw [e]
  · exact sameButReading_keepsMtf (sameButField_reading ht)
  · trivial
  · exact sameButReading_keepsMtf (raiseError_reading _ _ (sameButField_reading ht))
  · trivial

theorem execReadWide_keepsMtf (m : Nat) (s : State) : NextSatisfies (KeepsMtf s) (execReadWide m s) := by
  refine .ite (fun _ => .out ((readBits_keepsMtf _ s).bind fun u hu => ?_) .refl) fun _ => trivial
  exact Act.Ensures.mono (readBits_keepsMtf _ u) fun _ => hu.trans

theorem execFetchByte_keepsMtf (s : State) : NextSatisfies (KeepsMtf s) (execFetchByte s) := by
  refine .out ?_ .refl
  rcases refillOnce_cases s with ⟨-, e⟩ | ⟨b, ts, -, e⟩ | ⟨ts, -, e⟩ | ⟨ts, -, e⟩ <;> rw [e]
  · trivial
  all_goals rfl

theorem execHuffDecode_keepsMtf (s : State) : NextSatisfies (KeepsMtf s) (execHuffDecode s) := by
  refine .out (.guardIx fun _ => ?_) .refl
  rcases huffLoop_frame (Config.maxCodeBits + 2) { s with pos := .huff } with ⟨t, ht, e | e⟩ | e | ⟨f, e⟩ | ⟨r, e⟩ <;>
    rw [e]
  · exact sameButReading_keepsMtf ht
  · exact sameButReading_keepsMtf ht
  all_goals trivial

theorem runFlush_keepsMtf (s : State) : (runFlush s).Ensures (KeepsMtf s) := by
  rcases runFlush_cases s with ⟨-, e⟩ | ⟨-, -, e⟩ | ⟨-, -, ⟨-, e⟩ | ⟨-, e⟩⟩ <;> rw [e]
  · rfl
  · rfl
  · rfl
  · trivial

theorem emitByte_keepsMtf (b : Byte) (s : State) : (emitByte b s).Ensures (KeepsMtf s) := by
  rcases emitByte_cases b s with ⟨-, e⟩ | ⟨xs, -, e⟩ | ⟨xs, -, e⟩ <;> rw [e]
  · trivial
  all_goals rfl

theorem execEmitPend_keepsMtf (s : State) : NextSatisfies (KeepsMtf s) (execEmitPend s) :=
  .out ((emitByte_keepsMtf _ s).bind fun _ hu => hu) .refl

theorem execSymEob_keepsMtf (s : State) : NextSatisfies (KeepsMtf s) (execSymEob s) :=
  .out ((runFlush_keepsMtf s).bind fun _ hu => hu) .refl

theorem bucketLoop_keepsMtf (k c acc : Nat) (s : State) : KeepsMtf s (bucketLoop k c acc s) := by
  rw [bucketLoop_frame]
  rfl

theorem execChainBuild_keepsMtf (s : State) : NextSatisfies (KeepsMtf s) (execChainBuild s) := by
  refine .out (.guardIx fun _ => ?_) .refl
  rcases chainLoop_cases s.dbufCount.toNat 0 s with ⟨t, e, ht⟩ | ⟨f, e⟩ <;> rw [e]
  · rw [ht]
    rfl
  · trivial

theorem execChainStep_keepsMtf (s : State) : NextSatisfies (KeepsMtf s) (execChainStep s) := by
  refine .out (.guardIx fun _ => ?_) .refl
  split <;> rfl

theorem execLimitBase_keepsMtf (s : State) : NextSatisfies (KeepsMtf s) (execLimitBase s) := by
  refine .out (.tableGuard fun _ _ => .lenGuard fun _ _ => .lenIx fun _ => ?_) .refl
  rw [gotoNextGroup_eq, limitBaseLoop_frame]
  rfl

/-- The operations that write SYM_TOTAL, MTF_SYM or the draw. -/
def writesMtf : Instr → Bool
  | .map1 _ | .map2 _ | .symInit | .symLiteral _ | .start | .release | .reset => true
  | _ => false

/-- Every other operation keeps the list. -/
theorem exec_keepsMtf (s : State) (i : Instr) (hi : writesMtf i = false) : NextSatisfies (KeepsMtf s) (exec i s) := by
  cases i with
  | map1 | map2 | symInit | symLiteral | start | release | reset => cases hi
  | read | drain => exact .ite (fun _ => .ite (fun _ => rfl) fun _ => driveTurn_keepsMtf _) fun _ => rfl
  | drive => exact driveTurn_keepsMtf s
  | level | rand | ngroups | origCheck | blockEnd | eosCheck => exact .ite (fun _ => rfl) fun _ => rfl
  | nsel => exact .ite (fun _ => rfl) fun _ => .out (.guardIx fun _ => rfl) .refl
  | sel =>
    exact .ite (fun _ => rfl) fun _ =>
      .out (.guardIx fun _ => .guardIx fun _ => .ite (fun _ => rfl) fun _ => rfl) .refl
  | lenDeltaStop => exact .out (.lenCheck rfl (.guardIx fun _ => .ite (fun _ => rfl) fun _ => rfl)) .refl
  | lenDeltaInc | lenDeltaDec => exact .out (.lenCheck rfl rfl) .refl
  | minmax | permute => exact .out (.tableGuard fun _ _ => rfl) .refl
  | temp => exact .out (.tableGuard fun _ _ => .lenGuard fun _ _ => rfl) .refl
  | limitBase => exact execLimitBase_keepsMtf s
  | groupSwitch => exact .ite (fun _ => .ite (fun _ => rfl) fun _ => rfl) fun _ => rfl
  | readBits n => exact .out (readBits_keepsMtf n s) .refl
  | fetchByte => exact execFetchByte_keepsMtf s
  | readWide m => exact execReadWide_keepsMtf m s
  | huffDecode => exact execHuffDecode_keepsMtf s
  | symEob => exact execSymEob_keepsMtf s
  | runFlush => exact .out (runFlush_keepsMtf s) .refl
  | bucketStart => exact goto_keepsMtf .chainBuild (bucketLoop_keepsMtf 256 0 0 s)
  | chainBuild => exact execChainBuild_keepsMtf s
  | chainSeed => exact .out (.guardIx fun _ => rfl) .refl
  | chainStep => exact execChainStep_keepsMtf s
  | rle4 => exact .ite (fun _ => .out (.guardIx fun _ => rfl) .refl) fun _ => .refl
  | emitPend => exact execEmitPend_keepsMtf s
  | emit b => exact .out (emitByte_keepsMtf b s) .refl
  | _ => rfl

/-! ### The operations that write the list -/

theorem gotoNextMap2_symTotal (k : Nat) (s : State) : (gotoNextMap2 k s).symTotal = s.symTotal := by
  rw [gotoNextMap2_frame]

theorem gotoNextMap2_ctl (k : Nat) (s : State) : (gotoNextMap2 k s).ctl = s.ctl := by
  rw [gotoNextMap2_frame]

theorem execMap1_symTotal (m : BitVec 16) (s : State) :
    NextSatisfies (fun t => t.symTotal.toNat ≤ 256 ∧ t.ctl = s.ctl) (execMap1 m s) := by
  refine nextSatisfies_next.2 ⟨?_, gotoNextMap2_ctl _ _⟩
  rw [gotoNextMap2_symTotal]
  exact Nat.zero_le _

/-- MAP2 appends only where the bytes fit SYM_TO_BYTE, so SYM_TOTAL stays in 0..256 (R139). -/
theorem execMap2_symTotal (u : BitVec 16) (hs : s.symTotal.toNat ≤ 256) :
    NextSatisfies (fun t => t.symTotal.toNat ≤ 256 ∧ t.ctl = s.ctl) (execMap2 u s) := by
  refine .out (.guardIx fun hfit => Act.ensures_go.2 ⟨?_, gotoNextMap2_ctl _ _⟩) ⟨hs, rfl⟩
  rw [usedBytes_length] at hfit
  rw [gotoNextMap2_symTotal]
  exact (appendUsed_symTotal (Nat.le_of_lt_succ hfit)).trans_le (Nat.le_of_lt_succ hfit)

/-- A literal below SYM_TOTAL + 1 moves an entry of the permuted range to the front (R178, R179). -/
theorem execSymLiteral_permutes {sym : BitVec 9} (h1 : 1 ≤ sym.toNat) (hsym : sym.toNat ≤ s.symTotal.toNat)
    (hs : MtfPermutes s) :
    NextSatisfies (fun t => t.symTotal = s.symTotal ∧ MtfPermutes t) (execSymLiteral sym s) := by
  have hflush : (runFlush s).Ensures fun u => u.symTotal = s.symTotal ∧ MtfPermutes u :=
    Act.Ensures.mono (runFlush_keepsMtf s) fun _ hu => ⟨hu.symTotal, hs.congr hu⟩
  refine .out (hflush.bind fun u ⟨htotal, hperm⟩ => ?_) ⟨rfl, hs⟩
  have hfront := hperm.moveSymToFront (j := sym.toNat - 1) (by rw [htotal]; omega)
  rcases literal_cases sym.toNat u with ⟨-, e⟩ | ⟨-, ⟨-, e⟩ | ⟨-, -, e⟩ | ⟨-, -, e⟩⟩ <;> rw [e]
  · exact ⟨htotal, hperm.congr rfl⟩
  · trivial
  · trivial
  · exact ⟨htotal, hfront.congr rfl⟩

/-- The core issues a literal only for a symbol between the run digits and the end of block (R182). -/
theorem nextInstr_symLiteral {sym : BitVec 9} (h : nextInstr s = some (.symLiteral sym)) :
    1 ≤ sym.toNat ∧ sym.toNat ≤ s.symTotal.toNat := by
  have hpos : s.pos = .symbol := by
    cases nextInstr_nextOp h with
    | own hp => exact hp.symm
  simp only [nextInstr, hpos, nextSymbol, Option.some.injEq] at h
  split_ifs at h with h0 h1 hr heob
  obtain rfl := Instr.symLiteral.inj h
  have : s.sym.toNat ≠ 0 := fun h => h0 (BitVec.eq_of_toNat_eq h)
  omega

/-! ### What every step keeps -/

/-- The operations that write the list keep what `mtfWf` says of it: MAP1 and MAP2 run outside SYMBOLS, SYM_INIT writes
the identity list, and a literal moves an entry of the range. -/
theorem exec_mtfWf_of_writesMtf {i : Instr} (hw : writesMtf i = true) (hi : Runs s i) (hp : s.placeWf = true)
    (hs : s.mtfWf) (hlit : ∀ sym, i = .symLiteral sym → 1 ≤ sym.toNat ∧ sym.toNat ≤ s.symTotal.toNat)
    (he : exec i s = .next t) : t.mtfWf := by
  obtain ⟨hsym, hperm⟩ := mtfWf_iff.1 hs
  refine mtfWf_iff.2 ?_
  have hclear := hi.not_clearing
  cases i with
  | map1 m =>
    obtain ⟨hle, hctl⟩ := (execMap1_symTotal m s).of_next he
    exact ⟨hle, fun hc => by simp [hctl, hi.ctl_of_home hp rfl] at hc⟩
  | map2 u =>
    obtain ⟨hle, hctl⟩ := (execMap2_symTotal u hsym).of_next he
    exact ⟨hle, fun hc => by simp [hctl, hi.ctl_of_home hp rfl] at hc⟩
  | symInit =>
    obtain rfl := Host.Outcome.next.inj ((exec_symInit s).symm.trans he)
    exact ⟨hsym, fun _ => freshSymbols_permutes hsym⟩
  | symLiteral sym =>
    obtain ⟨h1, hle⟩ := hlit sym rfl
    obtain ⟨htotal, hmtf⟩ := (execSymLiteral_permutes h1 hle (hperm (hi.ctl_of_home hp rfl))).of_next he
    exact ⟨htotal ▸ hsym, fun _ => hmtf⟩
  | start | release | reset => simp [clearing] at hclear
  | _ => cases hw

/-- Every operation that a step issues keeps what `mtfWf` says. -/
theorem Runs.mtfWf {i : Instr} (hi : Runs s i) (hlit : ∀ sym, i = .symLiteral sym → nextInstr s = some i)
    (hp : s.placeWf = true) (hs : s.mtfWf) (he : exec i s = .next t) : t.mtfWf := by
  by_cases hw : writesMtf i = true
  · refine exec_mtfWf_of_writesMtf hw hi hp hs ?_ he
    rintro sym rfl
    exact nextInstr_symLiteral (hlit sym rfl)
  · obtain ⟨hsym, hperm⟩ := mtfWf_iff.1 hs
    have hkeep : KeepsMtf s t := (exec_keepsMtf s i (by simpa using hw)).of_next he
    refine mtfWf_iff.2 ⟨hkeep.symTotal ▸ hsym, fun ht => ?_⟩
    rcases (hi.ends he).moves.ctl_cases with hc | ⟨-, rfl⟩ | hc
    · exact (hperm (hc ▸ ht)).congr hkeep
    · exact absurd rfl hw
    · simp [ht] at hc

theorem execStart_mtfWf (hb : s.ctl.busy = false) (he : exec .start s = .next t) : t.mtfWf := by
  obtain rfl := Host.Outcome.next.inj ((if_neg (by simp [hb])).symm.trans he)
  exact ⟨Nat.zero_le _, nofun⟩

theorem resetCore_mtfWf (s : State) : (resetCore s).mtfWf := ⟨Nat.zero_le _, nofun⟩

/-- The core's own step, in which a literal is one that the core issued. -/
theorem runWhole_mtfWf {i : Instr} (hi : nextInstr s = some i) (hp : s.placeWf = true) (hs : s.mtfWf)
    (he : runWhole i s = .next t) : t.mtfWf := by
  refine (runWhole_induct (P := fun u => u.placeWf = true ∧ u.mtfWf) ?_ hi ⟨hp, hs⟩ he).2
  rintro j u v hj ⟨hplace, hmtf⟩ hv
  have hruns : Runs u j := .inl (nextInstr_nextOp hj)
  exact ⟨(hruns.ends hv).moves.placeWf hruns hplace, hruns.mtfWf (fun _ _ => hj) hplace hmtf hv⟩

theorem command_mtfWf {v : Word} (hp : s.placeWf = true) (hs : s.mtfWf) (he : exec (decodeCmd v) s = .next t) :
    t.mtfWf := by
  rcases command_cases he with ⟨i, hi, he⟩ | ⟨hb, he⟩ | rfl
  · exact Runs.mtfWf (.inr hi) (by rintro sym rfl; simp at hi) hp hs he
  · exact execStart_mtfWf hb he
  · exact resetCore_mtfWf s

end

/-- Settles O11: SYM_INIT writes the identity list, and a literal, which the core issues only for a symbol in the range,
permutes the list by moving one of its entries to the front. -/
theorem mtfListStaysAPermutation : Obligations.MtfListStaysAPermutation := by
  unfold Obligations.MtfListStaysAPermutation
  intro s t hp hs h
  rcases step_cases h with ⟨i, u, hi, he, rfl | ⟨rest, -, rfl⟩⟩ | ⟨v, rest, -, he⟩ | ⟨rest, -, he⟩ | ht
  · exact runWhole_mtfWf hi hp hs he
  · exact runWhole_mtfWf hi hp hs he
  · exact command_mtfWf (s := { s with host := rest }) hp hs he
  · obtain rfl := Host.Outcome.next.inj he
    exact resetCore_mtfWf _
  · rw [ht]
    exact hs

end Sys2Proof.Machine

/-! ## The symbols (R170 to R178) -/

namespace Sys2Proof.Machine

/-! ### SYM_INIT, the group switch and the run digits -/

/-- Settles O43: SYM_INIT writes all 256 entries of both memories. -/
theorem symbolDecodingStartsFresh : Obligations.SymbolDecodingStartsFresh := by
  unfold Obligations.SymbolDecodingStartsFresh
  refine fun s => ⟨freshSymbols s, exec_symInit s, fun k hk => ?_, ?_⟩
  · exact ⟨mtfSymAt_freshSymbols hk, byteCountAt_freshSymbols hk⟩
  · rw [freshSymbols]
    -- as variables, so that the writes of these 256 entries are not carried out
    generalize (List.range 256).map (BitVec.ofNat 8) = ids
    generalize List.replicate 256 (0 : BitVec 20) = zeros
    rfl

/-- Settles O44: the two tests of R171, each on both of its sides. -/
theorem groupSwitchesEveryFiftySymbols : Obligations.GroupSwitchesEveryFiftySymbols := by
  unfold Obligations.GroupSwitchesEveryFiftySymbols
  exact fun s => ⟨fun hleft => if_neg hleft, fun hleft hsel => (if_pos hleft).trans (if_neg (by omega)),
    fun hleft hsel => (if_pos hleft).trans (if_pos hsel)⟩

theorem runDigit_first {s : State} (h : s.runActive = false) (d : Nat) :
    runDigit d s = { s with runActive := true, runVal := 2 ^ d, runPos := 2 } := by
  simp [runDigit, h]

theorem runDigit_next {s : State} (h : s.runActive = true) (d : Nat) :
    runDigit d s = { s with runVal := s.runVal + s.runPos * 2 ^ d, runPos := s.runPos * 2 } := by
  simp [runDigit, h]

/-- Settles O46: a digit starts a run or adds to the pending one, with the weight 1 of RUNA or 2 of RUNB. -/
theorem runDigitsAccumulate : Obligations.RunDigitsAccumulate := by
  unfold Obligations.RunDigitsAccumulate
  intro s
  have hA : exec .symRunA s = .next (goto .groupSwitch (runDigit 0 s)) := rfl
  have hB : exec .symRunB s = .next (goto .groupSwitch (runDigit 1 s)) := rfl
  refine ⟨fun h => ?_, fun h => ?_⟩
  · rw [hA, hB, runDigit_first h, runDigit_first h]
    exact ⟨rfl, rfl⟩
  · rw [hA, hB, runDigit_next h, runDigit_next h, pow_zero, pow_one, Nat.mul_one]
    exact ⟨rfl, rfl⟩

/-! ### The pending run is flushed first -/

/-- The state with the pending run written out (R176). -/
def flushed (s : State) : State := appendBytes s.runVal (frontByte s) { s with runActive := false }

theorem flushed_dbufCount {s : State} (h : s.dbufCount.toNat + s.runVal ≤ 900000) :
    (flushed s).dbufCount.toNat = s.dbufCount.toNat + s.runVal :=
  appendBytes_dbufCount_toNat (s := { s with runActive := false }) (frontByte s) (Nat.lt_of_le_of_lt h (by omega))

theorem runFlush_idle {s : State} (h : s.runActive = false) : runFlush s = .go s := by
  simp [runFlush, h]

section

variable {s : State} (hrun : s.runActive = true)
include hrun

theorem runFlush_overflow (h : s.dbufSize.toNat < s.dbufCount.toNat + s.runVal) :
    runFlush s = .halt (raiseError .dataError .runFlush { s with runActive := false }) := by
  simp [runFlush, hrun, h]

theorem runFlush_fits (h : s.dbufCount.toNat + s.runVal ≤ s.dbufSize.toNat) (hsize : s.dbufSize.toNat ≤ 900000) :
    runFlush s = .go (flushed s) := by
  rw [runFlush, if_pos hrun]
  exact (if_neg (by omega)).trans (guardIx_of_lt (Nat.lt_succ_of_le (h.trans hsize)))

end

theorem exec_runFlush (s : State) : exec .runFlush s = (runFlush s).out s := rfl

/-- What SYM.LITERAL does behind the flush (R178). -/
def literalRest (sym : BitVec 9) (s : State) : Act := (literal sym.toNat s).bind fun u => .go (goto .groupSwitch u)

/-- What SYM.EOB does behind the flush (R177). -/
def eobRest (s : State) : Act := .go (goto .origCheck { s with ctl := .bwt })

theorem exec_symLiteral (sym : BitVec 9) (s : State) :
    exec (.symLiteral sym) s = ((runFlush s).bind (literalRest sym)).out s := rfl

theorem exec_symEob (s : State) : exec .symEob s = ((runFlush s).bind eobRest).out s := rfl

/-- Only a hold gives back the state that the operation started from. -/
theorem Act.out_congr {a : Act} (h : a ≠ .hold) (s t : State) : a.out s = a.out t := by
  cases a with
  | hold => exact absurd rfl h
  | go | halt | fault | refuse => rfl

theorem literalRest_ne_hold (sym : BitVec 9) (s : State) : literalRest sym s ≠ .hold := by
  unfold literalRest
  rcases literal_cases sym.toNat s with ⟨-, e⟩ | ⟨-, ⟨-, e⟩ | ⟨-, -, e⟩ | ⟨-, -, e⟩⟩ <;> rw [e] <;> nofun

/-- An operation that flushes first does, on a pending run that fits, what it does once the run is written out. -/
theorem flush_bind_out {k : State → Act} {s : State} (h : runFlush s = .go (flushed s)) (hk : k (flushed s) ≠ .hold) :
    ((runFlush s).bind k).out s = ((runFlush (flushed s)).bind k).out (flushed s) := by
  rw [h, runFlush_idle (s := flushed s) rfl]
  exact Act.out_congr hk ..

/-- Settles O48: RUN_FLUSH, SYM.EOB and a literal all begin with `RunFlush()`, which checks the room, then appends. -/
theorem pendingRunIsFlushedFirst : Obligations.PendingRunIsFlushedFirst := by
  unfold Obligations.PendingRunIsFlushedFirst
  refine fun s sym => ⟨fun hrun => ?_, fun hrun hover i hi => ?_, fun hrun hfit hsize => ?_⟩
  · rw [exec_runFlush, runFlush_idle hrun]
    rfl
  · rcases hi with rfl | rfl | rfl
    · rw [exec_runFlush, runFlush_overflow hrun hover]
      rfl
    · rw [exec_symEob, runFlush_overflow hrun hover]
      rfl
    · rw [exec_symLiteral, runFlush_overflow hrun hover]
      rfl
  · have hgo := runFlush_fits hrun hfit hsize
    refine ⟨flushed s, ?_, ?_, ?_, ?_, ?_, ?_, rfl, ?_, ?_⟩
    · rw [exec_runFlush, hgo]
      rfl
    · exact flushed_dbufCount (hfit.trans hsize)
    · exact fun a hlo hhi => (dbufAt_appendBytes ..).trans (if_pos ⟨hlo, hhi⟩)
    · exact fun a ha => (dbufAt_appendBytes ..).trans (if_neg (by dsimp only; omega))
    · exact (byteCountAt_appendBytes ..).trans (if_pos rfl)
    · exact fun c hc => (byteCountAt_appendBytes ..).trans (if_neg hc.symm)
    · exact flush_bind_out hgo nofun
    · exact flush_bind_out hgo (literalRest_ne_hold sym _)

/-! ### A literal -/

/-- The byte that entry `sym - 1` of MTF_SYM names (R178). -/
def literalByte (sym : Nat) (s : State) : Byte := symToByteAt s (mtfSymAt s (sym - 1)).toNat

/-- The state with the literal's entry at the front and its byte appended (R178). -/
def literalDone (sym : Nat) (s : State) : State := appendBytes 1 (literalByte sym s) (moveSymToFront (sym - 1) s)

theorem literal_full {sym : Nat} {s : State} (h : s.dbufSize.toNat ≤ s.dbufCount.toNat) :
    literal sym s = .halt (raiseError .dataError .literal s) := if_pos h

theorem literal_fits {sym : Nat} {s : State} (h : s.dbufCount.toNat < s.dbufSize.toNat)
    (hsize : s.dbufSize.toNat ≤ 900000) (hsym : sym ≤ 256) : literal sym s = .go (literalDone sym s) :=
  (if_neg (by omega)).trans ((guardIx_of_lt (by omega)).trans (guardIx_of_lt (h.trans_le hsize)))

theorem exec_symLiteral_idle {s : State} (h : s.runActive = false) (sym : BitVec 9) :
    exec (.symLiteral sym) s = (literalRest sym s).out s := by
  rw [exec_symLiteral, runFlush_idle h]
  rfl

theorem mtfSymAt_literalDone (sym k : Nat) (s : State) :
    mtfSymAt (literalDone sym s) k = mtfSymAt s (frontIndex (sym - 1) k) := mtfSymAt_moveSymToFront ..

theorem literalDone_dbufCount (sym : Nat) {s : State} (h : s.dbufCount.toNat < 900000) :
    (literalDone sym s).dbufCount.toNat = s.dbufCount.toNat + 1 :=
  appendBytes_dbufCount_toNat (s := moveSymToFront (sym - 1) s) (literalByte sym s)
    (Nat.lt_trans (Nat.succ_lt_succ h) (by omega))

/-- Settles O49: the check of the room, then the list by its index map and the appended byte by the laws of appending. -/
theorem literalAppendsAndMovesToFront : Obligations.LiteralAppendsAndMovesToFront := by
  unfold Obligations.LiteralAppendsAndMovesToFront
  refine fun s sym hrun => ⟨fun hfull => ?_, fun hfit hsize h2 h256 => ?_⟩
  · rw [exec_symLiteral_idle hrun, literalRest, literal_full hfull]
    rfl
  · refine ⟨goto .groupSwitch (literalDone sym.toNat s), ?_, ?_, ?_, ?_, ?_, ?_, ?_, ?_, ?_, rfl⟩
    · rw [exec_symLiteral_idle hrun, literalRest, literal_fits hfit hsize h256]
      rfl
    · exact mtfSymAt_literalDone ..
    · exact fun k hk hkj => (mtfSymAt_literalDone ..).trans (congrArg _ ((if_neg (by omega)).trans (if_pos hkj)))
    · exact fun k hk => (mtfSymAt_literalDone ..).trans (congrArg _ ((if_neg (by omega)).trans (if_neg (by omega))))
    · exact literalDone_dbufCount _ (hfit.trans_le hsize)
    · exact (dbufAt_appendBytes ..).trans (if_pos ⟨le_rfl, Nat.lt_succ_self _⟩)
    · exact fun a ha => (dbufAt_appendBytes ..).trans (if_neg fun h => ha (Nat.le_antisymm (Nat.le_of_lt_succ h.2) h.1))
    · exact (byteCountAt_appendBytes ..).trans (if_pos rfl)
    · exact fun c hc => (byteCountAt_appendBytes ..).trans (if_neg hc.symm)

/-! ### One codeword -/

theorem decodeHuff_start {f : Field} (h : f.len = 0) (lo hi : Nat) (limit : Int) :
    decodeHuff lo hi limit f = .more lo := if_pos h

section

variable {f : Field} {limit : Int} (hne : f.len ≠ 0)
include hne

theorem decodeHuff_stop (h : (f.val : Int) ≤ limit) (lo hi : Nat) : decodeHuff lo hi limit f = .run .huffDecode :=
  (if_neg hne).trans (if_neg (by omega))

theorem decodeHuff_tooLong (h : limit < (f.val : Int)) {hi : Nat} (hhi : f.len = hi) (lo : Nat) :
    decodeHuff lo hi limit f = .illegal .dataError .huff :=
  (if_neg hne).trans ((if_pos h).trans (if_pos hhi))

theorem decodeHuff_extend (h : limit < (f.val : Int)) {hi : Nat} (hhi : f.len ≠ hi) (lo : Nat) :
    decodeHuff lo hi limit f = .more 1 :=
  (if_neg hne).trans ((if_pos h).trans (if_neg hhi))

end

/-- The decoder's answer on the bits read of a codeword of the current group. -/
def codewordSoFar (s : State) : Decoded :=
  decodeHuff (minLenAt s s.curGroup.toNat) (maxLenAt s s.curGroup.toNat) (limitAt s s.curGroup.toNat s.fLen)
    (fieldRead s)

section

variable {s : State}

theorem huffSymbol_inside (hlo : baseAt s s.curGroup.toNat s.fLen ≤ s.fVal)
    (hhi : s.fVal < baseAt s s.curGroup.toNat s.fLen + 258) :
    huffSymbol s = .go (goto .symbol { s with
      sym := permuteAt s s.curGroup.toNat (s.fVal - baseAt s s.curGroup.toNat s.fLen) }) := by
  unfold huffSymbol
  dsimp only
  rw [if_neg (by simp only [Config.maxSymbols]; omega), Int.toNat_sub]

theorem huffSymbol_outside
    (h : s.fVal < baseAt s s.curGroup.toNat s.fLen ∨ baseAt s s.curGroup.toNat s.fLen + 258 ≤ s.fVal) :
    huffSymbol s = .halt (raiseError .dataError .huff s) :=
  if_pos (by simp only [Config.maxSymbols]; omega)

theorem huffLoop_run (fuel : Nat) (hlen : s.fLen ≤ 20) {i : Instr} (h : codewordSoFar s = .run i) :
    huffLoop (fuel + 1) s = huffSymbol s := by
  rw [codewordSoFar] at h
  rw [huffLoop_turn fuel hlen, h]

theorem huffLoop_illegal (fuel : Nat) (hlen : s.fLen ≤ 20) {c : ErrCode} {st : Stage}
    (h : codewordSoFar s = .illegal c st) : huffLoop (fuel + 1) s = .halt (raiseError c st s) := by
  rw [codewordSoFar] at h
  rw [huffLoop_turn fuel hlen, h]

/-- The state with the place at which HUFF_DECODE reads, wherever it is run (R172). -/
def atCodeword (s : State) : State := { s with pos := .huff }

variable (hg : s.curGroup.toNat < 6)
include hg

theorem nextInstr_codeword_more (hpos : s.pos = .huff) (hlen : s.fLen ≤ 20) {n : Nat} (h : codewordSoFar s = .more n) :
    nextInstr s = some (if s.accN.toNat < n then .fetchByte else .readBits n) := by
  have hdecode : decodeField (readCtx s) (fieldRead s) = .more n := by
    rw [← h]
    simp only [decodeField, readCtx, hpos, codewordSoFar]
  rw [nextInstr_element (by simp [hpos]) fun _ => ⟨hg, hlen⟩, nextElement, hdecode]
  rfl

/-- HUFF_DECODE is the loop of R172 at the place of a codeword. -/
theorem exec_huffDecode {a : Act} (h : huffLoop 22 (atCodeword s) = a) : exec .huffDecode s = a.out s := by
  rw [← h]
  exact execHuffDecode_eq hg

end

/-- Settles O45: the decoder's answer in each case of R172, and what HUFF_DECODE and the core's next operation make of
it. -/
theorem codewordNamesItsSymbol : Obligations.CodewordNamesItsSymbol := by
  unfold Obligations.CodewordNamesItsSymbol
  refine fun s hg => ⟨fun hpos hlen => ?_, fun hne hlen hval => ⟨fun hlo hhi => ?_, fun hout => ?_⟩,
    fun hne hlen hval => ⟨fun hmax => ?_, fun hmax hpos => ?_⟩, fun hlen => ?_⟩
  · exact nextInstr_codeword_more hg hpos (by omega) (decodeHuff_start hlen ..)
  · have hstop : codewordSoFar (atCodeword s) = .run .huffDecode := decodeHuff_stop hne hval ..
    exact exec_huffDecode hg
      ((huffLoop_run (s := atCodeword s) 21 hlen hstop).trans (huffSymbol_inside (s := atCodeword s) hlo hhi))
  · have hstop : codewordSoFar (atCodeword s) = .run .huffDecode := decodeHuff_stop hne hval ..
    exact exec_huffDecode hg
      ((huffLoop_run (s := atCodeword s) 21 hlen hstop).trans (huffSymbol_outside (s := atCodeword s) hout))
  · have hlong : codewordSoFar (atCodeword s) = .illegal .dataError .huff := decodeHuff_tooLong hne hval hmax _
    exact exec_huffDecode hg (huffLoop_illegal (s := atCodeword s) 21 hlen hlong)
  · exact nextInstr_codeword_more hg hpos hlen (decodeHuff_extend hne hval hmax _)
  · exact exec_huffDecode hg (huffLoop_outside 21 hlen)

end Sys2Proof.Machine

/-! ## The inverse BWT (R177, R200 to R204) -/

namespace Sys2Proof.Machine

/-! ### EOB and the origin check -/

/-- Settles O50: EOB with nothing to flush, and the two sides of the check. -/
theorem eobThenOriginCheck : Obligations.EobThenOriginCheck := by
  unfold Obligations.EobThenOriginCheck
  refine fun s => ⟨fun hrun => ?_, execOrigCheck_ok, execOrigCheck_error⟩
  rw [exec_symEob, runFlush_idle hrun]
  rfl

/-! ### The seed of the output walk -/

theorem wordNext_eq_extractLsb' (w : Word) : wordNext w = w.extractLsb' 8 24 := by
  apply BitVec.eq_of_toNat_eq
  simp only [wordNext, BitVec.toNat_setWidth, BitVec.toNat_ushiftRight, BitVec.extractLsb'_toNat]

/-- Settles O53: the origin pointer is inside DBUF, and a word's next position is its upper 24 bits. -/
theorem chainSeedSetsUpTheWalk : Obligations.ChainSeedSetsUpTheWalk := by
  unfold Obligations.ChainSeedSetsUpTheWalk
  intro s horig
  have hguard (k : Act) : guardIx .dbuf Config.dbufWords s.origPtr.toNat k = k := guardIx_of_lt horig
  rw [← wordNext_eq_extractLsb']
  exact congrArg (Act.out · s) (hguard _)

/-! ### The bucket starts (R201) -/

/-- The sum of the counts of the byte values below `c`. -/
def countsBelow (s : State) (c : Nat) : Nat := ((List.range c).map fun b => (byteCountAt s b).toNat).sum

theorem countsBelow_succ (s : State) (c : Nat) :
    countsBelow s (c + 1) = countsBelow s c + (byteCountAt s c).toNat :=
  List.sum_range_succ ..

/-- From `c` on the loop writes the sums, as long as the counts from `c` on are still those of `s`. -/
theorem byteCountAt_bucketLoop {s : State} (k c : Nat) {u : State}
    (hu : ∀ d, c ≤ d → byteCountAt u d = byteCountAt s d) (d : Nat) :
    byteCountAt (bucketLoop k c (countsBelow s c) u) d =
      if c ≤ d ∧ d < c + k then BitVec.ofNat 20 (countsBelow s d) else byteCountAt u d := by
  induction k generalizing c u with
  | zero => exact (if_neg (by omega)).symm
  | succ k ih =>
    have hwrite (e : Nat) :
        byteCountAt { u with byteCount := memWrite u.byteCount c (BitVec.ofNat 20 (countsBelow s c)) } e =
          if c = e then BitVec.ofNat 20 (countsBelow s c) else byteCountAt u e := memRead_memWrite ..
    rw [bucketLoop, hu c le_rfl, ← countsBelow_succ, ih (c + 1) fun e he => ?_, hwrite]
    · by_cases hcd : c = d
      · subst hcd
        rw [if_neg (by omega), if_pos rfl, if_pos (by omega)]
      · rw [if_neg hcd]
        exact if_congr (by omega) rfl rfl
    · rw [hwrite, if_neg (by omega), hu e (by omega)]

/-- The state with the bucket starts in BYTE_COUNT. -/
def bucketStarts (s : State) : State := bucketLoop 256 0 0 s

theorem exec_bucketStart (s : State) : exec .bucketStart s = .next (goto .chainBuild (bucketStarts s)) := rfl

theorem bucketStarts_frame (s : State) : bucketStarts s = { s with byteCount := (bucketStarts s).byteCount } :=
  bucketLoop_frame ..

theorem byteCountAt_goto (p : Pos) (s : State) (c : Nat) : byteCountAt (goto p s) c = byteCountAt s c := rfl

theorem byteCountAt_bucketStarts (s : State) (c : Nat) :
    byteCountAt (bucketStarts s) c = if c < 256 then BitVec.ofNat 20 (countsBelow s c) else byteCountAt s c := by
  have hloop := byteCountAt_bucketLoop (s := s) (u := s) 256 0 (fun _ _ => rfl) c
  exact hloop.trans (if_congr (by omega) rfl rfl)

/-- Settles O51: the loop of R201 in closed form, over all byte values. -/
theorem bucketStartsArePrefixSums : Obligations.BucketStartsArePrefixSums := by
  unfold Obligations.BucketStartsArePrefixSums
  refine fun s => ⟨_, exec_bucketStart s, fun c hc => ?_, fun c hc => ?_, ?_⟩
  · rw [byteCountAt_goto, byteCountAt_bucketStarts, if_pos hc, countsBelow]
  · rw [byteCountAt_goto, byteCountAt_bucketStarts, if_neg (by omega)]
  · have hframe := bucketStarts_frame s
    -- as a variable, so that the 256 turns of the loop are not carried out
    generalize bucketStarts s = u at hframe ⊢
    rw [hframe]
    rfl

/-! ### The slots of the stable sort (R202) -/

section

variable {s : State} {i j n : Nat}

theorem bytesOf_succ (s : State) (n : Nat) (b : Byte) :
    bytesOf s (n + 1) b = bytesOf s n b + if wordByte (dbufAt s n) = b then 1 else 0 := by
  rw [bytesOf_add]
  by_cases h : wordByte (dbufAt s n) = b <;> simp [h]

theorem bytesOf_mono (b : Byte) (h : i ≤ j) : bytesOf s i b ≤ bytesOf s j b :=
  monotone_nat_of_le_succ (fun n => (bytesOf_succ s n b).symm ▸ Nat.le_add_right ..) h

/-- Word `i` itself is counted from `i + 1` on. -/
theorem bytesOf_lt (h : i < j) : bytesOf s i (wordByte (dbufAt s i)) < bytesOf s j (wordByte (dbufAt s i)) :=
  calc
    bytesOf s i (wordByte (dbufAt s i)) < bytesOf s (i + 1) (wordByte (dbufAt s i)) := by
      rw [bytesOf_succ, if_pos rfl]
      exact Nat.lt_succ_self _
    _ ≤ bytesOf s j (wordByte (dbufAt s i)) := bytesOf_mono _ h

theorem bytesBelow_words_succ (s : State) (n c : Nat) :
    bytesBelow s (n + 1) c = bytesBelow s n c + if (wordByte (dbufAt s n)).toNat < c then 1 else 0 := by
  rw [bytesBelow, List.range_succ, List.filter_append, List.length_append, ← bytesBelow]
  by_cases h : (wordByte (dbufAt s n)).toNat < c <;> simp [h]

theorem bytesBelow_le (s : State) (n c : Nat) : bytesBelow s n c ≤ n := by
  simpa [bytesBelow] using
    List.length_filter_le (fun i => decide ((wordByte (dbufAt s i)).toNat < c)) (List.range n)

theorem bytesBelow_mono (s : State) (n : Nat) {c d : Nat} (h : c ≤ d) : bytesBelow s n c ≤ bytesBelow s n d := by
  refine (List.monotone_filter_right _ fun i hi => ?_).length_le
  simp only [decide_eq_true_eq] at hi ⊢
  omega

/-- The buckets are adjacent: byte `b`'s ends where the next begins. -/
theorem bytesBelow_succ (s : State) (n : Nat) (b : Byte) :
    bytesBelow s n (b.toNat + 1) = bytesBelow s n b.toNat + bytesOf s n b := by
  induction n with
  | zero => rfl
  | succ n ih =>
    rw [bytesBelow_words_succ, bytesBelow_words_succ, bytesOf_succ, ih]
    simp only [BitVec.toNat_eq]
    split_ifs <;> omega

theorem chainRank_eq (s : State) (n i : Nat) :
    chainRank s n i = bytesBelow s n (wordByte (dbufAt s i)).toNat + bytesOf s i (wordByte (dbufAt s i)) := rfl

/-- A word's slot is inside its byte's bucket. -/
theorem chainRank_lt_bucketEnd (h : i < n) : chainRank s n i < bytesBelow s n ((wordByte (dbufAt s i)).toNat + 1) := by
  rw [chainRank_eq, bytesBelow_succ]
  exact Nat.add_lt_add_left (bytesOf_lt h) _

theorem chainRank_lt (h : i < n) : chainRank s n i < n :=
  (chainRank_lt_bucketEnd h).trans_le (bytesBelow_le ..)

/-- The slots of a smaller byte lie in an earlier bucket. -/
theorem chainRank_lt_of_byte_lt (hi : i < n) (h : wordByte (dbufAt s i) < wordByte (dbufAt s j)) :
    chainRank s n i < chainRank s n j :=
  calc
    chainRank s n i < bytesBelow s n ((wordByte (dbufAt s i)).toNat + 1) := chainRank_lt_bucketEnd hi
    _ ≤ bytesBelow s n (wordByte (dbufAt s j)).toNat := bytesBelow_mono s n h
    _ ≤ chainRank s n j := Nat.le_add_right ..

/-- Words of one byte keep their order. -/
theorem chainRank_lt_of_byte_eq (hij : i < j) (h : wordByte (dbufAt s i) = wordByte (dbufAt s j)) :
    chainRank s n i < chainRank s n j := by
  rw [chainRank_eq, chainRank_eq, ← h]
  exact Nat.add_lt_add_left (bytesOf_lt hij) _

/-- No two words have the same slot. -/
theorem chainRank_ne (hij : i < j) (hj : j < n) : chainRank s n i ≠ chainRank s n j := by
  rcases BitVec.lt_trichotomy (wordByte (dbufAt s i)) (wordByte (dbufAt s j)) with h | h | h
  · exact (chainRank_lt_of_byte_lt (hij.trans hj) h).ne
  · exact (chainRank_lt_of_byte_eq hij h).ne
  · exact (chainRank_lt_of_byte_lt hj h).ne'

end

/-! ### One position is linked (R203) -/

/-- The next free slot of the bucket of word `i`. -/
def nextSlot (i : Nat) (s : State) : Nat := (byteCountAt s (wordByte (dbufAt s i)).toNat).toNat

/-- The state with position `i` written into that slot, and the slot taken (R203). -/
def linkPosition (i : Nat) (s : State) : State :=
  { s with
    dbuf := memWrite s.dbuf (nextSlot i s) (dbufAt s (nextSlot i s) ||| (BitVec.ofNat 32 i <<< 8))
    byteCount := memWrite s.byteCount (wordByte (dbufAt s i)).toNat (BitVec.ofNat 20 (nextSlot i s + 1)) }

theorem chainLink_inside {i : Nat} {s : State} (h : nextSlot i s < 900000) : chainLink i s = .go (linkPosition i s) :=
  guardIx_of_lt h

theorem dbufAt_linkPosition (i : Nat) (s : State) (a : Nat) :
    dbufAt (linkPosition i s) a =
      if nextSlot i s = a then dbufAt s (nextSlot i s) ||| (BitVec.ofNat 32 i <<< 8) else dbufAt s a :=
  memRead_memWrite ..

theorem byteCountAt_linkPosition (i : Nat) (s : State) (c : Nat) :
    byteCountAt (linkPosition i s) c =
      if (wordByte (dbufAt s i)).toNat = c then BitVec.ofNat 20 (nextSlot i s + 1) else byteCountAt s c :=
  memRead_memWrite ..

theorem wordByte_link (w p : Word) : wordByte (w ||| (p <<< 8)) = wordByte w := by
  ext k
  simp [wordByte]

theorem wordNext_link (w p : Word) : wordNext (w ||| (p <<< 8)) = wordNext w ||| p.setWidth 24 := by
  ext k hk
  have hpos : 8 + k < 32 := by omega
  simp [wordNext, hpos, hk, ← BitVec.getLsbD_eq_getElem]

/-- Writing a position of 24 bits into an empty slot. -/
theorem wordNext_link_empty {w : Word} {i : Nat} (hw : wordNext w = 0) (hi : i < 2 ^ 24) :
    (wordNext (w ||| (BitVec.ofNat 32 i <<< 8))).toNat = i := by
  rw [wordNext_link, hw, BitVec.ofNat_eq_ofNat, BitVec.zero_or, BitVec.setWidth_ofNat_of_le (by decide),
    BitVec.toNat_ofNat, Nat.mod_eq_of_lt hi]

/-! ### The loop of R203 -/

/-- `u` is reached from `s` by linking the first `i` of the `n` positions: each bucket's next slot stands behind the words
linked from it, the linked slots hold their positions, and the other slots are still empty. -/
structure Linked (s : State) (n i : Nat) (u : State) : Prop where
  slots : ∀ b : Byte, (byteCountAt u b.toNat).toNat = bytesBelow s n b.toNat + bytesOf s i b
  bytes : ∀ a, wordByte (dbufAt u a) = wordByte (dbufAt s a)
  linked : ∀ k, k < i → (wordNext (dbufAt u (chainRank s n k))).toNat = k
  empty : ∀ k, i ≤ k → k < n → wordNext (dbufAt u (chainRank s n k)) = 0
  beyond : ∀ a, n ≤ a → dbufAt u a = dbufAt s a

section

variable {s u : State} {n i : Nat} (hu : Linked s n i u)
include hu

/-- The slot that the loop takes for word `i` is its place in the stable sort. -/
theorem Linked.nextSlot_eq : nextSlot i u = chainRank s n i := by
  rw [nextSlot, hu.bytes, hu.slots, chainRank_eq]

variable (hi : i < n) (hn : n ≤ 900000)
include hi hn

theorem Linked.succ : Linked s n (i + 1) (linkPosition i u) where
  slots b := by
    have hlt : chainRank s n i < n := chainRank_lt hi
    rw [byteCountAt_linkPosition, hu.nextSlot_eq, hu.bytes, bytesOf_succ]
    by_cases hb : wordByte (dbufAt s i) = b
    · rw [if_pos (congrArg _ hb), if_pos hb, BitVec.toNat_ofNat, Nat.mod_eq_of_lt (by omega), chainRank_eq, hb]
      rfl
    · rw [if_neg fun h => hb (BitVec.eq_of_toNat_eq h), if_neg hb, hu.slots]
      rfl
  bytes a := by
    rw [dbufAt_linkPosition]
    split
    · next h => rw [wordByte_link, h, hu.bytes]
    · exact hu.bytes a
  linked k hk := by
    rw [dbufAt_linkPosition, hu.nextSlot_eq]
    rcases Nat.lt_succ_iff_lt_or_eq.1 hk with hk | rfl
    · rw [if_neg (chainRank_ne hk hi).symm]
      exact hu.linked k hk
    · rw [if_pos rfl]
      exact wordNext_link_empty (hu.empty k le_rfl hi) (by omega)
  empty k hk hkn := by
    rw [dbufAt_linkPosition, hu.nextSlot_eq, if_neg (chainRank_ne hk hkn)]
    exact hu.empty k (Nat.le_of_succ_le hk) hkn
  beyond a ha := by
    have hlt : chainRank s n i < n := chainRank_lt hi
    rw [dbufAt_linkPosition, hu.nextSlot_eq, if_neg (by omega)]
    exact hu.beyond a ha

omit hi in
/-- The rest of the loop links the rest of the positions. -/
theorem Linked.chainLoop {k : Nat} (hk : i + k = n) : ∃ t, Machine.chainLoop k i u = .go t ∧ Linked s n n t := by
  induction k generalizing i u with
  | zero => exact ⟨u, rfl, hk ▸ hu⟩
  | succ k ih =>
    have hi : i < n := by omega
    have hslot : nextSlot i u < 900000 := hu.nextSlot_eq ▸ (chainRank_lt hi).trans_le hn
    rw [Machine.chainLoop, chainLink_inside hslot, Act.bind_go]
    exact ih (hu.succ hi hn) (by omega)

end

theorem linked_zero {s : State} {n : Nat} (hnext : ∀ i, i < n → wordNext (dbufAt s i) = 0)
    (hstart : ∀ c, c < 256 → (byteCountAt s c).toNat = bytesBelow s n c) : Linked s n 0 s where
  slots b := hstart b.toNat b.isLt
  bytes _ := rfl
  linked _ hk := absurd hk (Nat.not_lt_zero _)
  empty _ _ hk := hnext _ (chainRank_lt hk)
  beyond _ _ := rfl

theorem exec_chainBuild {s u : State} (hn : s.dbufCount.toNat ≤ 900000)
    (h : chainLoop s.dbufCount.toNat 0 s = .go u) : exec .chainBuild s = .next (goto .chainSeed u) := by
  have hguard (k : Act) : guardIx .dbuf (Config.dbufWords + 1) s.dbufCount.toNat k = k :=
    guardIx_of_lt (Nat.lt_succ_of_le hn)
  change execChainBuild s = _
  rw [execChainBuild, hguard, h]
  rfl

/-- Settles O52: the loop of R203 takes for each position its place in the stable sort, and no place twice. -/
theorem chainIsTheStableSort : Obligations.ChainIsTheStableSort := by
  unfold Obligations.ChainIsTheStableSort
  intro s hn hnext hstart
  obtain ⟨u, hloop, hu⟩ := (linked_zero hnext hstart).chainLoop hn (Nat.zero_add _)
  have hframe : u = { s with dbuf := u.dbuf, byteCount := u.byteCount } := by
    rcases chainLoop_cases s.dbufCount.toNat 0 s with ⟨t, ht, hframe⟩ | ⟨f, hf⟩
    · obtain rfl := Act.go.inj (hloop.symm.trans ht)
      exact hframe
    · exact absurd (hloop.symm.trans hf) nofun
  refine ⟨goto .chainSeed u, exec_chainBuild hn hloop, fun i hi => ⟨chainRank_lt hi, hu.linked i hi, hu.bytes i⟩,
    hu.beyond, ?_⟩
  rw [hframe]
  rfl

end Sys2Proof.Machine

/-! ## How ERROR is left and DONE is reached (R219, R249, R283) -/

namespace Sys2Proof.Machine

/-! ### The last operation of a step -/

theorem NextOp.busy {s : State} {i : Instr} (h : NextOp s i) (hs : s.placeWf = true) : s.ctl.busy = true :=
  placeCtl_busy (h.placeCtl hs)

/-- The state behind a list of operations is the one before it, or behind the last operation that was run. -/
theorem runOn_last {is : List Instr} {s t : State} (hs : s.placeWf = true) (h : runOn is s = .next t) :
    t = s ∨ ∃ i ∈ is, ∃ u : State, u.placeWf = true ∧ NextOp u i ∧ exec i u = .next t := by
  induction is generalizing s with
  | nil => exact .inl (Host.Outcome.next.inj h).symm
  | cons i is ih =>
    unfold runOn at h
    split at h
    · next hi =>
      have hop := nextInstr_nextOp hi
      split at h
      · next u he =>
        rcases ih ((Runs.ends (.inl hop) he).moves.placeWf (.inl hop) hs) h with rfl | ⟨j, hj, hlast⟩
        · exact .inr ⟨i, List.mem_cons_self, s, hs, hop, he⟩
        · exact .inr ⟨j, List.mem_cons_of_mem i hj, hlast⟩
      · next o hn => exact absurd h (hn t)
    · exact .inl (Host.Outcome.next.inj h).symm

theorem runWhole_last {i : Instr} {s t : State} (hs : s.placeWf = true) (hi : NextOp s i)
    (h : runWhole i s = .next t) :
    exec i s = .next t ∨ ∃ j ∈ restOfStep i, ∃ u : State, u.placeWf = true ∧ NextOp u j ∧ exec j u = .next t := by
  unfold runWhole at h
  split at h
  · next u he =>
    refine (runOn_last ((Runs.ends (.inl hi) he).moves.placeWf (.inl hi) hs) h).imp_left ?_
    rintro rfl
    exact he
  · next o hn => exact absurd h (hn t)

/-! ### ERROR is left by START, RELEASE and reset alone (R283) -/

theorem Moves.stays_in_error {i : Instr} {s t : State} (h : Moves i s t) (hi : Runs s i) (hp : s.placeWf = true)
    (hs : s.ctl = .error) : t.ctl = .error := by
  cases h with
  | stays h => exact h.ctl.trans hs
  | goes hx => exact absurd hs (hi.ctl_ne_error hp hx)
  | raises _ hc => exact hc

theorem decodeCmd_not_clearing {v : Word} (h : ¬ (decodeCmd v = .start ∨ decodeCmd v = .release)) :
    decodeCmd v ∈ [.nop, .read, .drain, .reserved5, .reserved6, .reserved7] := by
  rcases decodeCmd_cases v with hv | hv | hv | hv | hv | hv | hv | hv <;> simp [hv] at h ⊢

theorem command_leaves_error {v : Word} {s t : State} (hp : s.placeWf = true) (hs : s.ctl = .error)
    (h : exec (decodeCmd v) s = .next t) (ht : t.ctl ≠ .error) : decodeCmd v = .start ∨ decodeCmd v = .release := by
  by_contra hv
  have hi : Runs s (decodeCmd v) := .inr (decodeCmd_not_clearing hv)
  exact ht ((hi.ends h).moves.stays_in_error hi hp hs)

/-- A step of a core in ERROR that leaves it is START, RELEASE or the reset input: the core itself runs nothing there. -/
theorem step_leaves_error {s t : State} (hp : s.placeWf = true) (hs : s.ctl = .error) (h : step s = .next t)
    (ht : t.ctl ≠ .error) :
    (∃ rest v, s.host = .write 0 4 v :: rest ∧ (decodeCmd v = .start ∨ decodeCmd v = .release)) ∨
      ∃ rest, s.host = .reset :: rest := by
  rcases step_cases h with ⟨i, u, hi, -, hu⟩ | ⟨v, rest, hhost, he⟩ | ⟨rest, hhost, -⟩ | htouched
  · have hbusy : s.ctl.busy = true := by
      rcases hu with rfl | ⟨rest, -, rfl⟩ <;> exact (nextInstr_nextOp hi).busy hp
    rw [hs] at hbusy
    cases hbusy
  · exact .inl ⟨rest, v, hhost, command_leaves_error (s := { s with host := rest }) hp hs he ht⟩
  · exact .inr ⟨rest, hhost⟩
  · rw [htouched] at ht
    exact absurd hs ht

/-! ### DONE is reached by the end-of-stream check alone (R219, R249) -/

theorem exits_done (c : Ctl) (i : Instr) : ∀ x ∈ exits c i, x.2 = .done → c = .done ∨ ∃ crc, i = .eosCheck crc := by
  cases i with
  | read | drain =>
    unfold exits
    cases c.acceptsRead <;> simp [driveExits]
  | _ => simp [exits, driveExits]

theorem Moves.reaches_done {i : Instr} {s t : State} (h : Moves i s t) (hs : s.ctl ≠ .done) (ht : t.ctl = .done) :
    ∃ crc, i = .eosCheck crc := by
  cases h with
  | stays h => exact absurd (h.ctl.symm.trans ht) hs
  | goes hx => exact (exits_done _ _ _ hx ht).resolve_left hs
  | raises _ hc => cases hc.symm.trans ht

theorem execEosCheck_done {crc : Word} {s t : State} (h : exec (.eosCheck crc) s = .next t) (ht : t.ctl = .done) :
    crc = s.totalCrc := by
  by_contra hne
  obtain rfl := Host.Outcome.next.inj ((if_pos hne).symm.trans h)
  cases ht

theorem nextInstr_eosCheck {s : State} (h : s.pos = .eosCheck) : nextInstr s = some (.eosCheck s.streamCrc) := by
  simp only [nextInstr, h]

theorem nextInstr_eosCheck_place {s : State} {crc : Word} (h : nextInstr s = some (.eosCheck crc)) :
    s.pos = .eosCheck ∧ crc = s.streamCrc := by
  have hpos : s.pos = .eosCheck := by
    cases nextInstr_nextOp h with
    | own hp => exact hp.symm
  rw [nextInstr_eosCheck hpos] at h
  cases h
  exact ⟨hpos, rfl⟩

theorem eosCheck_not_mem_restOfStep (i : Instr) (crc : Word) : .eosCheck crc ∉ restOfStep i := by
  unfold restOfStep
  split_ifs <;> simp

/-- The core's own step reaches DONE by EOS_CHECK, which is no later operation of a step. -/
theorem runWhole_reaches_done {i : Instr} {s t : State} (hp : s.placeWf = true) (hi : nextInstr s = some i)
    (h : runWhole i s = .next t) (ht : t.ctl = .done) : s.pos = .eosCheck ∧ s.streamCrc = s.totalCrc := by
  have hlast {j : Instr} {u : State} (hu : u.placeWf = true) (hj : NextOp u j) (he : exec j u = .next t) :
      ∃ crc, j = .eosCheck crc := by
    refine (Runs.ends (.inl hj) he).moves.reaches_done (fun hc => ?_) ht
    have hbusy := hj.busy hu
    rw [hc] at hbusy
    cases hbusy
  have hop := nextInstr_nextOp hi
  rcases runWhole_last hp hop h with he | ⟨j, hj, u, hu, hju, he⟩
  · obtain ⟨crc, rfl⟩ := hlast hp hop he
    obtain ⟨hpos, rfl⟩ := nextInstr_eosCheck_place hi
    exact ⟨hpos, execEosCheck_done he ht⟩
  · obtain ⟨crc, rfl⟩ := hlast hu hju he
    exact absurd hj (eosCheck_not_mem_restOfStep i crc)

theorem command_not_done {v : Word} {s t : State} (hs : s.ctl ≠ .done) (h : exec (decodeCmd v) s = .next t) :
    t.ctl ≠ .done := by
  intro ht
  rcases command_cases h with ⟨i, hi, he⟩ | ⟨hb, he⟩ | rfl
  · obtain ⟨crc, rfl⟩ := (Runs.ends (.inr hi) he).moves.reaches_done hs ht
    simp at hi
  · obtain ⟨-, hstarting, -⟩ := execStart_result hb he
    cases hstarting.symm.trans ht
  · cases ht

theorem step_reaches_done {s t : State} (hp : s.placeWf = true) (hs : s.ctl ≠ .done) (h : step s = .next t)
    (ht : t.ctl = .done) : s.pos = .eosCheck ∧ s.streamCrc = s.totalCrc := by
  rcases step_cases h with ⟨i, u, hi, he, hu⟩ | ⟨v, rest, -, he⟩ | ⟨rest, -, he⟩ | htouched
  · rcases hu with rfl | ⟨rest, -, rfl⟩
    · exact runWhole_reaches_done hp hi he ht
    · exact runWhole_reaches_done (s := { s with host := rest }) hp hi he ht
  · exact absurd ht (command_not_done (s := { s with host := rest }) hs he)
  · obtain rfl := Host.Outcome.next.inj he
    cases ht
  · rw [htouched] at ht
    exact absurd ht hs

/-- Settles O15: an operation keeps a core in ERROR there, and the exits of EOS_CHECK alone lead to DONE. -/
theorem errorLeftAndDoneReachedOnlySo : Obligations.ErrorLeftAndDoneReachedOnlySo := by
  unfold Obligations.ErrorLeftAndDoneReachedOnlySo
  exact fun s t hp h => ⟨fun hs => step_leaves_error hp hs h, fun hs => step_reaches_done hp hs h⟩

end Sys2Proof.Machine

/-! ## The output engine (R210 to R220, R247) -/

namespace Sys2Proof.Machine

/-! ### The CRC by table (R215, R216) -/

/-- One turn of the bit-serial division by the generator 0x04C11DB7, the top bit read by its number. -/
theorem crcShift_eq (c : Word) : crcShift c = if c.getLsbD 31 then (c <<< 1) ^^^ 0x04C11DB7 else c <<< 1 := by
  rw [crcShift, BitVec.msb_eq_getLsbD_last]

theorem crcShifts_eq_foldl (n : Nat) (c : Word) : crcShifts n c = (List.range n).foldl (fun c _ => crcShift c) c := by
  induction n generalizing c with
  | zero => rfl
  | succ n ih => rw [crcShifts, ih, List.range_succ_eq_map, List.foldl_cons, List.foldl_map]

theorem crcShifts_serial (n : Nat) (c : Word) : crcShifts n c =
    (List.range n).foldl (fun c _ => if c.getLsbD 31 then (c <<< 1) ^^^ 0x04C11DB7 else c <<< 1) c := by
  simp only [crcShifts_eq_foldl, crcShift_eq]

theorem crcShift_xor (c d : Word) : crcShift (c ^^^ d) = crcShift c ^^^ crcShift d := by
  have hcancel (x y g : Word) : x ^^^ y = (x ^^^ g) ^^^ (y ^^^ g) :=
    calc x ^^^ y = (x ^^^ y) ^^^ (g ^^^ g) := by rw [BitVec.xor_self, BitVec.xor_zero]
      _ = (x ^^^ g) ^^^ (y ^^^ g) := by ac_rfl
  unfold crcShift
  rw [BitVec.msb_xor, BitVec.shiftLeft_xor_distrib]
  cases c.msb <;> cases d.msb
  · rfl
  · exact BitVec.xor_assoc ..
  · exact (BitVec.xor_assoc ..).trans ((congrArg _ (BitVec.xor_comm ..)).trans (BitVec.xor_assoc ..).symm)
  · exact hcancel ..

/-- The division is linear. -/
theorem crcShifts_xor (n : Nat) (c d : Word) : crcShifts n (c ^^^ d) = crcShifts n c ^^^ crcShifts n d := by
  induction n generalizing c d with
  | zero => rfl
  | succ n ih => simp only [crcShifts, crcShift_xor, ih]

/-- Without a 1 among its upper `n` bits a word is only shifted. -/
theorem crcShifts_of_lt {n : Nat} {c : Word} (h : c.toNat * 2 ^ n < 2 ^ 32) : crcShifts n c = c <<< n := by
  induction n generalizing c with
  | zero => exact (BitVec.shiftLeft_zero c).symm
  | succ n ih =>
    rw [Nat.pow_succ] at h
    have hle : c.toNat ≤ c.toNat * 2 ^ n := Nat.le_mul_of_pos_right _ (Nat.two_pow_pos n)
    have hc : 2 * c.toNat < 2 ^ 32 := by linarith
    have hshift : (c <<< 1).toNat = 2 * c.toNat := by
      rw [BitVec.toNat_shiftLeft, Nat.shiftLeft_eq]
      omega
    have hih := ih (c := c <<< 1) (by rw [hshift]; linarith)
    rw [crcShifts, crcShift, BitVec.msb_eq_false_iff_two_mul_lt.2 hc, if_neg Bool.false_ne_true, hih, Nat.add_comm,
      BitVec.shiftLeft_add]

/-- A word is its lower 24 bits and its top byte. -/
theorem word_eq_low_xor_top (c : Word) :
    c = (c.setWidth 24).setWidth 32 ^^^ (((c >>> 24).setWidth 8).setWidth 32 <<< 24) := by
  apply BitVec.eq_of_getLsbD_eq
  intro i hi
  by_cases h : i < 24
  · simp [h, hi]
  · have htop : i - 24 < 8 := by omega
    have hadd : 24 + (i - 24) = i := by omega
    simp [h, hi, htop, hadd]

theorem crcShifts_low (c : Word) : crcShifts 8 ((c.setWidth 24).setWidth 32) = c <<< 8 := by
  have hlow : ((c.setWidth 24).setWidth 32).toNat = c.toNat % 2 ^ 24 := by
    rw [BitVec.toNat_setWidth_of_le (by decide), BitVec.toNat_setWidth]
  rw [crcShifts_of_lt (by omega)]
  apply BitVec.eq_of_toNat_eq
  rw [BitVec.toNat_shiftLeft, BitVec.toNat_shiftLeft, hlow, Nat.shiftLeft_eq, Nat.shiftLeft_eq]
  omega

/-- The byte at the top goes through the table, and the rest of the CRC is only shifted. -/
theorem crcUpdate_eq_crcShifts (crc : Word) (b : Byte) :
    crcUpdate crc b = crcShifts 8 (crc ^^^ (b.setWidth 32 <<< 24)) := by
  have hsplit : crc ^^^ (b.setWidth 32 <<< 24) =
      (crc.setWidth 24).setWidth 32 ^^^ (((crc >>> 24).setWidth 8 ^^^ b).setWidth 32 <<< 24) := by
    rw [BitVec.setWidth_xor, BitVec.shiftLeft_xor_distrib, ← BitVec.xor_assoc, ← word_eq_low_xor_top]
  rw [hsplit, crcShifts_xor, crcShifts_low]
  rfl

/-- Settles O56: the table is the division of the top byte, and the division is linear. -/
theorem crcTableMatchesSerialDivision : Obligations.CrcTableMatchesSerialDivision := by
  unfold Obligations.CrcTableMatchesSerialDivision
  refine ⟨fun i => crcShifts_serial 8 _, fun crc b => ⟨rfl, ?_⟩, by decide, by decide, by decide, by decide, by decide⟩
  exact (crcUpdate_eq_crcShifts crc b).trans (crcShifts_serial 8 _)

/-! ### The chain step (R211 to R213) -/

section

variable {s : State}

theorem exec_chainStep (h : s.wPos.toNat < 900000) :
    exec .chainStep s = .next (goto .drive (if s.wRun = 3 then chainCount s else chainByte s)) :=
  congrArg (Act.out · s) (guardIx_of_lt h)

theorem exec_rle4_count (h : s.wPos.toNat < 900000) (hrun : s.wRun = 3) :
    exec .rle4 s = .next (goto .drive (chainCount s)) :=
  (if_pos hrun).trans (congrArg (Act.out · s) (guardIx_of_lt h))

theorem chainCount_eq : chainCount s = { s with
    wRemain := s.wRemain - 1, wPos := (dbufAt s s.wPos.toNat).extractLsb' 8 24
    pend := (dbufAt s s.wPos.toNat).setWidth 8, pendByte := s.wCur.setWidth 8, wCur := 0x100, wRun := 0 } := by
  rw [← wordNext_eq_extractLsb']
  rfl

theorem chainByte_eq : chainByte s = { s with
    wRemain := s.wRemain - 1, wPos := (dbufAt s s.wPos.toNat).extractLsb' 8 24
    pend := 1, pendByte := (dbufAt s s.wPos.toNat).setWidth 8
    wRun := if ((dbufAt s s.wPos.toNat).setWidth 8).setWidth 9 = s.wCur then s.wRun + 1 else 0
    wCur := ((dbufAt s s.wPos.toNat).setWidth 8).setWidth 9 } := by
  have hbyte : ((wordByte (dbufAt s s.wPos.toNat)).setWidth 9).setWidth 8 = wordByte (dbufAt s s.wPos.toNat) :=
    (BitVec.setWidth_setWidth_of_le _ (by decide)).trans (BitVec.setWidth_eq _)
  rw [← wordNext_eq_extractLsb', chainByte, hbyte]
  rfl

end

/-- Settles O54: both cases read the word at W_POS, and W_RUN tells which it is. -/
theorem chainStepOrCount : Obligations.ChainStepOrCount := by
  unfold Obligations.ChainStepOrCount
  intro s hpos
  refine ⟨fun hrun => ⟨?_, if_neg hrun⟩, fun hrun i hi => ?_⟩
  · rw [exec_chainStep hpos, if_neg hrun, chainByte_eq]
    rfl
  · have hexec : exec i s = .next (goto .drive (chainCount s)) := by
      rcases hi with rfl | rfl
      · rw [exec_chainStep hpos, if_pos hrun]
      · exact exec_rle4_count hpos hrun
    rw [hexec, chainCount_eq]
    rfl

/-! ### Emitting a byte (R214, R215, R220) -/

section

variable {s : State} {xs : List Answer}

theorem emitByte_hold (h : s.outAns = []) (b : Byte) : emitByte b s = .hold := by
  rw [emitByte, h]

theorem emitByte_accept (h : s.outAns = .accept :: xs) (b : Byte) :
    emitByte b s = .go { s with outAns := xs, out := s.out ++ [b], dataCrc := crcUpdate s.dataCrc b } := by
  rw [emitByte, h]

theorem emitByte_fail (h : s.outAns = .fail :: xs) (b : Byte) :
    emitByte b s = .halt (raiseError .ioError .output { s with outAns := xs }) := by
  rw [emitByte, h]

theorem exec_emit (b : Byte) (s : State) : exec (.emit b) s = (emitByte b s).out s := rfl

/-- The pending copy is counted. -/
def countCopy (s : State) : State := { s with pend := s.pend - 1, count := s.count + 1, outBytes := s.outBytes + 1 }

theorem exec_emitPend (s : State) :
    exec .emitPend s = ((emitByte s.pendByte s).bind fun u => .go (goto .drive (countCopy u))).out s := rfl

end

/-- Settles O55: EMIT and EMIT_PEND in each of the three answers of the port. -/
theorem emitDeliversOneByte : Obligations.EmitDeliversOneByte := by
  unfold Obligations.EmitDeliversOneByte
  refine fun s b xs => ⟨fun h => ?_, fun h => ?_, fun h i hi => ?_⟩
  · rw [exec_emit, exec_emitPend, emitByte_hold h, emitByte_hold h]
    exact ⟨rfl, rfl⟩
  · rw [exec_emit, exec_emitPend, emitByte_accept h, emitByte_accept h]
    exact ⟨rfl, rfl⟩
  · rcases hi with rfl | rfl
    · rw [exec_emit, emitByte_fail h]
      rfl
    · rw [exec_emitPend, emitByte_fail h]
      rfl

/-! ### The end of a block and of the stream (R217 to R219) -/

theorem combineCrc_eq (total crc : Word) : combineCrc total crc = total.rotateLeft 1 ^^^ crc := rfl

/-- Settles O57: the block is closed first, then the check on both of its sides. -/
theorem blockEndChecksTheBlockCrc : Obligations.BlockEndChecksTheBlockCrc := by
  unfold Obligations.BlockEndChecksTheBlockCrc
  intro s
  rw [← combineCrc_eq]
  exact ⟨fun h => if_neg (not_not_intro h), fun h => if_pos h⟩

/-- Settles O58: the store, then the check on both of its sides. -/
theorem endOfStreamChecksTheTotalCrc : Obligations.EndOfStreamChecksTheTotalCrc := by
  unfold Obligations.EndOfStreamChecksTheTotalCrc
  exact fun s c => ⟨rfl, fun h => if_neg (not_not_intro h), fun h => if_pos h, nextInstr_eosCheck⟩

/-! ### The command loop (R210, R247, R248) -/

theorem exec_drive (s : State) : exec .drive s = .next (driveTurn s) := rfl

/-- Settles O59: the five cases of a turn in their order. -/
theorem driveTestsInOrder : Obligations.DriveTestsInOrder := by
  unfold Obligations.DriveTestsInOrder
  intro s
  rw [exec_drive]
  rcases driveTurn_cases s with ⟨hend, e⟩ | ⟨hend, ⟨hlimit, e⟩ | ⟨hlimit, ⟨hnone, e⟩ | ⟨hloaded, hpend, e⟩ |
    ⟨hloaded, hpend, e⟩⟩⟩
  · rw [if_pos hend, e]
    rfl
  · rw [if_neg hend, if_pos hlimit, e]
    rfl
  · rw [if_neg hend, if_neg hlimit, if_pos hnone, e]
    rfl
  · rw [if_neg hend, if_neg hlimit, if_neg (by simp [hloaded]), if_pos hpend, e]
    rfl
  · rw [if_neg hend, if_neg hlimit, if_neg (by simp [hloaded]), if_neg (not_not_intro hpend), e]
    rfl

end Sys2Proof.Machine

/-! ## The mode and the limit decide pauses alone (R247, R248, R253) -/

namespace Sys2Proof.Machine

/-- `s` with another MODE and another LIMIT. -/
def withLimit (m : Bool) (l : Word) (s : State) : State := { s with mode := m, limit := l }

/-- The answer `a`, from a core with another MODE and another LIMIT. -/
def Act.withLimit (m : Bool) (l : Word) : Act → Act
  | .go s => .go (Machine.withLimit m l s)
  | .halt s => .halt (Machine.withLimit m l s)
  | .hold => .hold
  | .fault f => .fault f
  | .refuse r => .refuse r

/-- The same outcome, of a core with another MODE and another LIMIT. -/
def outcomeWithLimit (m : Bool) (l : Word) : Host.Outcome State Fault Refusal → Host.Outcome State Fault Refusal
  | .next s => .next (withLimit m l s)
  | .fault f => .fault f
  | .refused r => .refused r

/-- Two answers differ in the mode and the limit alone. -/
def Act.Agree (m : Bool) (l : Word) (a b : Act) : Prop := a.withLimit m l = b

/-- Two outcomes differ in the mode and the limit alone. -/
def OutcomesAgree (m : Bool) (l : Word) (o q : Host.Outcome State Fault Refusal) : Prop :=
  outcomeWithLimit m l o = q

/-! ### How answers are put together -/

section

variable {m : Bool} {l : Word}

theorem OutcomesAgree.next {s t : State} (h : withLimit m l s = t) : OutcomesAgree m l (.next s) (.next t) :=
  congrArg Host.Outcome.next h

theorem OutcomesAgree.ite {p : Prop} [Decidable p] {o o' q q' : Host.Outcome State Fault Refusal}
    (ho : OutcomesAgree m l o o') (hq : OutcomesAgree m l q q') :
    OutcomesAgree m l (if p then o else q) (if p then o' else q') := by
  split
  · exact ho
  · exact hq

theorem OutcomesAgree.out {s : State} {a b : Act} (h : a.Agree m l b) :
    OutcomesAgree m l (a.out s) (b.out (withLimit m l s)) := by
  subst h
  cases a <;> rfl

namespace Act.Agree

theorem go {s t : State} (h : Machine.withLimit m l s = t) : Act.Agree m l (.go s) (.go t) :=
  congrArg Act.go h

theorem bind {a b : Act} {j k : State → Act} (h : a.Agree m l b)
    (hk : ∀ u, (j u).Agree m l (k (Machine.withLimit m l u))) : (a.bind j).Agree m l (b.bind k) := by
  subst h
  cases a with
  | go u => exact hk u
  | halt | hold | fault | refuse => rfl

theorem ite {p : Prop} [Decidable p] {a a' b b' : Act} (ha : a.Agree m l a') (hb : b.Agree m l b') :
    (if p then a else b).Agree m l (if p then a' else b') := by
  split
  · exact ha
  · exact hb

variable {s : State} {id : MemId} {n i : Nat} {a b : Act} (h : a.Agree m l b)
include h

theorem guardIx : (guardIx id n i a).Agree m l (guardIx id n i b) := .ite h rfl

theorem lenIx : (lenIx id n a).Agree m l (lenIx id n b) := .ite h.guardIx rfl

theorem tableGuard : (tableGuard s a).Agree m l (tableGuard (Machine.withLimit m l s) b) := h.guardIx.guardIx

theorem lenGuard : (lenGuard s a).Agree m l (lenGuard (Machine.withLimit m l s) b) := h.guardIx.lenIx

theorem lenCheck : (lenCheck s a).Agree m l (lenCheck (Machine.withLimit m l s) b) := .ite rfl h

end Act.Agree

end

/-! ### Operations called by several meanings -/

section

variable {m : Bool} {l : Word} {s : State}

theorem refillOnce_agree : (refillOnce s).Agree m l (refillOnce (withLimit m l s)) := by
  unfold refillOnce fetchToken
  rw [show (withLimit m l s).inPort = s.inPort from rfl]
  rcases s.inPort with _ | ⟨_ | _ | _, ts⟩ <;> rfl

theorem refill_agree (n fuel : Nat) : (refill n fuel s).Agree m l (refill n fuel (withLimit m l s)) := by
  induction fuel generalizing s with
  | zero => rfl
  | succ fuel ih => exact .ite (.bind refillOnce_agree fun u => ih) rfl

theorem readBits_agree (n : Nat) : (readBits n s).Agree m l (readBits n (withLimit m l s)) :=
  .ite (.bind (refill_agree n 3) fun _ => rfl) rfl

theorem withLimit_gotoNextMap2 (k : Nat) : withLimit m l (gotoNextMap2 k s) = gotoNextMap2 k (withLimit m l s) := by
  unfold gotoNextMap2
  rw [show (withLimit m l s).mapUsed = s.mapUsed from rfl]
  split <;> rfl

theorem withLimit_gotoNextGroup : withLimit m l (gotoNextGroup s) = gotoNextGroup (withLimit m l s) := by
  unfold gotoNextGroup
  exact apply_ite (withLimit m l) _ _ _

theorem withLimit_limitBaseLoop (g k n : Nat) (pp hh : Int) :
    withLimit m l (limitBaseLoop g k n pp hh s) = limitBaseLoop g k n pp hh (withLimit m l s) := by
  induction k generalizing n pp hh s with
  | zero => rfl
  | succ k ih => exact ih _ _ _

theorem withLimit_bucketLoop (k c acc : Nat) :
    withLimit m l (bucketLoop k c acc s) = bucketLoop k c acc (withLimit m l s) := by
  induction k generalizing c acc s with
  | zero => rfl
  | succ k ih => exact ih _ _

theorem execBucketStart_agree : OutcomesAgree m l (execBucketStart s) (execBucketStart (withLimit m l s)) := by
  unfold execBucketStart
  rw [← withLimit_bucketLoop]
  -- as a variable, so that its 256 turns are not carried out
  generalize bucketLoop 256 0 0 s = u
  rfl

theorem chainLoop_agree (k i : Nat) : (chainLoop k i s).Agree m l (chainLoop k i (withLimit m l s)) := by
  induction k generalizing i s with
  | zero => rfl
  | succ k ih => exact .bind (.guardIx rfl) fun u => ih (i + 1)

theorem runFlush_agree : (runFlush s).Agree m l (runFlush (withLimit m l s)) :=
  .ite (.ite rfl (.guardIx rfl)) rfl

theorem literal_agree (sym : Nat) : (literal sym s).Agree m l (literal sym (withLimit m l s)) :=
  .ite rfl (.guardIx (.guardIx rfl))

theorem huffSymbol_agree : (huffSymbol s).Agree m l (huffSymbol (withLimit m l s)) := .ite rfl rfl

theorem huffLoop_agree (fuel : Nat) : (huffLoop fuel s).Agree m l (huffLoop fuel (withLimit m l s)) := by
  induction fuel generalizing s with
  | zero => rfl
  | succ fuel ih =>
    refine .guardIx ?_
    -- the decoder reads neither MODE nor LIMIT, so `hd` is its answer to both cores
    split <;> rename_i hd <;> erw [hd]
    · exact .bind (readBits_agree _) fun u => ih
    · rfl
    · exact huffSymbol_agree
    · rfl

theorem execChainStep_agree : OutcomesAgree m l (execChainStep s) (execChainStep (withLimit m l s)) := by
  refine .out (.guardIx (.go ?_))
  rw [apply_ite (goto .drive), apply_ite (goto .drive)]
  exact apply_ite (withLimit m l) _ _ _

theorem emitByte_agree (b : Byte) : (emitByte b s).Agree m l (emitByte b (withLimit m l s)) := by
  unfold emitByte
  rw [show (withLimit m l s).outAns = s.outAns from rfl]
  split <;> rfl

theorem execSymInit_agree : OutcomesAgree m l (execSymInit s) (execSymInit (withLimit m l s)) := by
  unfold execSymInit
  -- as variables, so that the writes of these 256 entries are not carried out
  generalize (List.range 256).map (BitVec.ofNat 8) = ids
  generalize List.replicate 256 (0 : BitVec 20) = zeros
  rfl

/-! ### Every operation that does not use the limit -/

/-- The operations that set or test MODE and LIMIT: READ, DRAIN and the turn of the command loop (R243, R244, R247), and
what resets the core (R245, R300). -/
def usesLimit : List Instr := [.read, .drain, .drive, .release, .reset]

theorem exec_agree {i : Instr} (hi : i ∉ usesLimit) : OutcomesAgree m l (exec i s) (exec i (withLimit m l s)) := by
  cases i with
  | read | drain | drive | release | reset => exact absurd (by simp [usesLimit]) hi
  | nop | reserved5 | reserved6 | reserved7 | sig | magicData | magicEos | symRunA | symRunB => rfl
  | crcDataBlock c | crcEndOfStream c => rfl
  | origptr p => rfl
  | lenStart t => rfl
  | errorEntry c st => rfl
  | start | origCheck | blockEnd => exact .ite rfl rfl
  | groupSwitch => exact .ite (.ite rfl rfl) rfl
  | level b => exact .ite rfl rfl
  | rand r => exact .ite rfl rfl
  | ngroups n => exact .ite rfl rfl
  | eosCheck c => exact .ite rfl rfl
  | map1 u => exact .next (withLimit_gotoNextMap2 0)
  | map2 u => exact .out (.guardIx (.go (withLimit_gotoNextMap2 _)))
  | nsel n => exact .ite rfl (.out (.guardIx rfl))
  | sel j => exact .ite rfl (.out (.guardIx (.guardIx (.ite rfl rfl))))
  | lenDeltaStop => exact .out (.lenCheck (.guardIx (.ite rfl rfl)))
  | lenDeltaInc | lenDeltaDec => exact .out (.lenCheck rfl)
  | symLiteral sym => exact .out (.bind runFlush_agree fun u => .bind (literal_agree _) fun v => rfl)
  | symEob => exact .out (.bind runFlush_agree fun u => rfl)
  | readBits n => exact .out (readBits_agree n)
  | fetchByte => exact .out refillOnce_agree
  | readWide n => exact .ite (.out (.bind (readBits_agree _) fun u => readBits_agree _)) rfl
  | minmax | permute => exact .out (.tableGuard rfl)
  | temp => exact .out (.tableGuard (.lenGuard rfl))
  | limitBase =>
    refine .out (.tableGuard (.lenGuard (.lenIx (.go ?_))))
    exact withLimit_gotoNextGroup.trans (congrArg gotoNextGroup (withLimit_limitBaseLoop ..))
  | symInit => exact execSymInit_agree
  | huffDecode => exact .out (.guardIx (huffLoop_agree _))
  | runFlush => exact .out runFlush_agree
  | bucketStart => exact execBucketStart_agree
  | chainBuild => exact .out (.guardIx (.bind (chainLoop_agree _ _) fun u => rfl))
  | chainSeed => exact .out (.guardIx rfl)
  | chainStep => exact execChainStep_agree
  | rle4 => exact .ite (.out (.guardIx rfl)) rfl
  | emitPend => exact .out (.bind (emitByte_agree _) fun u => rfl)
  | emit b => exact .out (emitByte_agree b)

/-! ### The steps of the core -/

theorem nextInstr_withLimit : nextInstr (withLimit m l s) = nextInstr s := rfl

/-- The turn of the command loop, where neither limit is reached. -/
theorem driveTurn_withLimit (hs : ¬ (s.mode = true ∧ s.count = s.limit)) (hm : ¬ (m = true ∧ s.count = l)) :
    withLimit m l (driveTurn s) = driveTurn (withLimit m l s) := by
  have hm' : ¬ ((withLimit m l s).mode = true ∧ (withLimit m l s).count = (withLimit m l s).limit) := hm
  unfold driveTurn
  rw [if_neg hs, if_neg hm']
  iterate 3 rw [apply_ite (withLimit m l)]
  rfl

/-- The core's next operation uses the limit in the turn of the command loop alone. -/
theorem NextOp.usesLimit {i : Instr} (h : NextOp s i) (hi : i ∈ usesLimit) : i = .drive ∧ s.pos = .drive := by
  cases h with
  | own hp hne =>
    simp only [Machine.usesLimit, List.mem_cons, List.not_mem_nil, or_false] at hi
    rcases hi with rfl | rfl | rfl | rfl | rfl
    case inr.inr.inl => exact ⟨rfl, hp.symm⟩
    all_goals exact absurd hp.symm hne
  | fetch | read | illegal => simp [Machine.usesLimit] at hi

theorem runOn_agree {is : List Instr} (his : ∀ i ∈ is, i ∉ usesLimit) :
    OutcomesAgree m l (runOn is s) (runOn is (withLimit m l s)) := by
  induction is generalizing s with
  | nil => rfl
  | cons i is ih =>
    obtain ⟨hi, hrest⟩ := List.forall_mem_cons.1 his
    unfold runOn
    rw [nextInstr_withLimit]
    refine .ite ?_ rfl
    rw [← exec_agree hi]
    cases exec i s with
    | next u => exact ih hrest
    | fault | refused => rfl

theorem restOfStep_not_usesLimit (i : Instr) : ∀ j ∈ restOfStep i, j ∉ usesLimit := by
  unfold restOfStep
  split_ifs <;> simp [usesLimit]

theorem runWhole_agree {i : Instr} (h : OutcomesAgree m l (exec i s) (exec i (withLimit m l s))) :
    OutcomesAgree m l (runWhole i s) (runWhole i (withLimit m l s)) := by
  unfold runWhole
  rw [← h]
  cases exec i s with
  | next u => exact runOn_agree (restOfStep_not_usesLimit i)
  | fault | refused => rfl

theorem step_agree (hh : s.host = [])
    (hdrive : s.pos = .drive → ¬ (s.mode = true ∧ s.count = s.limit) ∧ ¬ (m = true ∧ s.count = l)) :
    OutcomesAgree m l (step s) (step (withLimit m l s)) := by
  rw [step_host_silent hh, step_host_silent (s := withLimit m l s) hh, nextInstr_withLimit]
  cases hi : nextInstr s with
  | none => rfl
  | some i =>
    refine runWhole_agree ?_
    by_cases huse : i ∈ usesLimit
    · obtain ⟨rfl, hpos⟩ := (nextInstr_nextOp hi).usesLimit huse
      obtain ⟨hs, hm⟩ := hdrive hpos
      exact .next (driveTurn_withLimit hs hm)
    · exact exec_agree huse

end

/-- Settles O18: every operation but the turn of the command loop gives the same answer with any mode and limit, and that
turn does where neither limit is reached. -/
theorem limitOnlyDecidesPauses : Obligations.LimitOnlyDecidesPauses := by
  unfold Obligations.LimitOnlyDecidesPauses
  intro s m l hh hdrive
  refine (step_agree hh hdrive).symm.trans ?_
  cases step s <;> rfl

end Sys2Proof.Machine

/-! ## The host's commands (R240 to R246, R250) -/

namespace Sys2Proof.Machine

theorem Ctl.busy_of_mem {c : Ctl} (h : c ∈ [Ctl.starting, .blockHeader, .symbols, .bwt, .output]) : c.busy = true := by
  cases c <;> simp [busy] at h ⊢

theorem Ctl.not_busy_of_mem {c : Ctl} (h : c ∈ [Ctl.idle, .paused, .done, .error]) : c.busy = false := by
  cases c <;> simp [busy] at h ⊢

theorem Ctl.acceptsRead_iff {c : Ctl} : c.acceptsRead = true ↔ c = .paused ∨ c = .done := by
  cases c <;> simp [acceptsRead]

theorem Ctl.not_acceptsRead_of_busy {c : Ctl} (h : c.busy = true) : c.acceptsRead = false := by
  cases c <;> simp [busy, acceptsRead] at h ⊢

section

variable {s t : State}

/-! ### Refused commands -/

theorem exec_start_busy (h : s.ctl.busy = true) : exec .start s = .next (refuseCmd s) := if_pos h

theorem exec_release_busy (h : s.ctl.busy = true) : exec .release s = .next (refuseCmd s) := if_pos h

theorem exec_read_refused (h : s.len = 0 ∨ s.ctl.acceptsRead = false) : exec .read s = .next (refuseCmd s) :=
  if_neg (by rcases h with h | h <;> simp [h])

theorem exec_drain_refused (h : s.ctl.acceptsRead = false) : exec .drain s = .next (refuseCmd s) := if_neg (by simp [h])

/-- While the core is busy a command is NOP or is refused. -/
theorem exec_command_busy (v : Word) (h : s.ctl.busy = true) :
    exec (decodeCmd v) s = .next s ∨ exec (decodeCmd v) s = .next (refuseCmd s) := by
  have hread := Ctl.not_acceptsRead_of_busy h
  rcases decodeCmd_cases v with hv | hv | hv | hv | hv | hv | hv | hv <;> rw [hv]
  · exact .inl rfl
  · exact .inr (exec_start_busy h)
  · exact .inr (exec_read_refused (.inr hread))
  · exact .inr (exec_drain_refused hread)
  · exact .inr (exec_release_busy h)
  all_goals exact .inr rfl

/-! ### READ and DRAIN accepted -/

/-- An accepted READ or DRAIN ends at once in DONE, and makes the loop's first turn in PAUSED (R247, R250). -/
def enterLoop (s : State) : State := if s.ctl = .done then s else driveTurn s

/-- The registers that an accepted READ sets (R243). -/
def acceptRead (s : State) : State := { s with cmdRej := false, mode := true, limit := s.len, count := 0 }

/-- The registers that an accepted DRAIN sets (R244). -/
def acceptDrain (s : State) : State := { s with cmdRej := false, mode := false, count := 0 }

theorem exec_read_accepted (hlen : s.len ≠ 0) (h : s.ctl.acceptsRead = true) :
    exec .read s = .next (enterLoop (acceptRead s)) :=
  (if_pos ⟨hlen, h⟩).trans (apply_ite Host.Outcome.next _ _ _).symm

theorem exec_drain_accepted (h : s.ctl.acceptsRead = true) : exec .drain s = .next (enterLoop (acceptDrain s)) :=
  (if_pos h).trans (apply_ite Host.Outcome.next _ _ _).symm

theorem enterLoop_done (h : s.ctl = .done) : enterLoop s = s := if_pos h

theorem enterLoop_paused (h : s.ctl = .paused) : enterLoop s = driveTurn s := if_neg (by simp [h])

theorem enterLoop_cmdRej (s : State) : (enterLoop s).cmdRej = s.cmdRej := by
  unfold enterLoop
  split
  · rfl
  · rw [driveTurn_frame]

/-- The turn of the loop where the limit is not reached. -/
theorem driveTurn_below_limit (h : ¬ (s.mode = true ∧ s.count = s.limit)) :
    driveTurn s =
      if s.blkLoaded = false then { s with ctl := .blockHeader, pos := .magic, fLen := 0, fVal := 0 }
      else { s with
        ctl := .output, fLen := 0, fVal := 0
        pos := if s.pend = 0 ∧ s.wRemain = 0 then .blockEnd else if s.pend ≠ 0 then .emitPend else .chainStep } := by
  rcases driveTurn_cases s with ⟨⟨hloaded, hend⟩, e⟩ | ⟨hend, ⟨hlimit, -⟩ | ⟨-, ⟨hnone, e⟩ | ⟨hloaded, hpend, e⟩ |
    ⟨hloaded, hpend, e⟩⟩⟩
  · rw [e, if_neg (by simp [hloaded]), if_pos hend]
    rfl
  · exact absurd hlimit h
  · rw [e, if_pos hnone]
    rfl
  · rw [e, if_neg (by simp [hloaded]), if_neg fun h => hpend h.1, if_pos hpend]
    rfl
  · rw [e, if_neg (by simp [hloaded]), if_neg (by simpa [hloaded] using hend), if_neg (not_not_intro hpend)]
    rfl

end

/-- Settles O22: one lemma for each way a command is refused or accepted. -/
theorem commandsAcceptedByTheTable : Obligations.CommandsAcceptedByTheTable := by
  unfold Obligations.CommandsAcceptedByTheTable
  intro s
  refine ⟨rfl, fun h => ?_, fun h => ?_, fun h => ?_, fun h => exec_read_refused (.inl h), fun h => ?_, rfl, rfl, rfl⟩
  · have hidle : ¬ s.ctl.busy = true := by simp [Ctl.not_busy_of_mem h]
    exact ⟨⟨_, if_neg hidle, rfl⟩, ⟨_, if_neg hidle, rfl⟩⟩
  · have hbusy := Ctl.busy_of_mem h
    exact ⟨exec_start_busy hbusy, exec_release_busy hbusy⟩
  · have haccept : s.ctl.acceptsRead = true := Ctl.acceptsRead_iff.2 (by simpa using h)
    exact ⟨fun hlen => ⟨_, exec_read_accepted hlen haccept, enterLoop_cmdRej _⟩,
      ⟨_, exec_drain_accepted haccept, enterLoop_cmdRej _⟩⟩
  · have hrefuse : s.ctl.acceptsRead = false := by
      rw [← Bool.not_eq_true, Ctl.acceptsRead_iff]
      rintro (hc | hc) <;> simp [hc] at h
    exact ⟨exec_read_refused (.inr hrefuse), exec_drain_refused hrefuse⟩

/-- Settles O25: COUNT is 0 and a latched LEN is not, so the first turn of the loop does not pause. -/
theorem readAndDrainEnterTheLoop : Obligations.ReadAndDrainEnterTheLoop := by
  unfold Obligations.ReadAndDrainEnterTheLoop
  intro s hs
  have haccept := Ctl.acceptsRead_iff.2 (.inl hs)
  refine ⟨fun hlen => ?_, ?_⟩
  · have hlimit : ¬ ((acceptRead s).mode = true ∧ (acceptRead s).count = (acceptRead s).limit) := fun h => hlen h.2.symm
    rw [exec_read_accepted hlen haccept, enterLoop_paused (s := acceptRead s) hs, driveTurn_below_limit hlimit]
    rfl
  · have hlimit : ¬ ((acceptDrain s).mode = true ∧ (acceptDrain s).count = (acceptDrain s).limit) := nofun
    rw [exec_drain_accepted haccept, enterLoop_paused (s := acceptDrain s) hs, driveTurn_below_limit hlimit]
    rfl

/-- Settles O26: in DONE the loop is not entered. -/
theorem readInDoneEndsAtOnce : Obligations.ReadInDoneEndsAtOnce := by
  unfold Obligations.ReadInDoneEndsAtOnce
  intro s hs
  have haccept := Ctl.acceptsRead_iff.2 (.inr hs)
  refine ⟨fun hlen => ?_, ?_⟩
  · rw [exec_read_accepted hlen haccept, enterLoop_done (s := acceptRead s) hs]
    rfl
  · rw [exec_drain_accepted haccept, enterLoop_done (s := acceptDrain s) hs]
    rfl

/-! ## What the host can do to a busy core (R240, R261) -/

/-- Settles O17: an access is refused, a command has no effect but CMD_REJ, and the other accesses store LEN or answer the
host. -/
theorem hostCannotDisturbABusyCore : Obligations.HostCannotDisturbABusyCore := by
  unfold Obligations.HostCannotDisturbABusyCore
  rintro s t a rest hb hh (⟨off, size, v, rfl⟩ | ⟨off, size, rfl⟩) h
  · by_cases hok : size = 4 ∧ off % 4 = 0
    · obtain ⟨rfl, hoff⟩ := hok
      by_cases hcmd : off = 0
      · subst hcmd
        rw [step_command hh] at h
        rcases exec_command_busy (s := { s with host := rest }) v hb with e | e <;> rw [e] at h <;> cases h <;> rfl
      · rw [step_write hh hoff hcmd, writeRegister] at h
        split at h <;> cases h <;> rfl
    · rw [step_access_refused (.inr hh) (by omega)] at h
      cases h
  · by_cases hok : size = 4 ∧ off % 4 = 0
    · obtain ⟨rfl, hoff⟩ := hok
      rw [step_read hh hoff, readRegister] at h
      split at h <;> cases h <;> rfl
    · rw [step_access_refused (v := 0) (.inl hh) (by omega)] at h
      cases h

/-! ## The transitions of the control state (R251) -/

theorem ctlStep_self (c : Ctl) : ctlStep c c = true := by cases c <;> rfl

theorem ctlStep_error {c : Ctl} (h : c.busy = true) : ctlStep c .error = true := by
  cases c <;> simp [Ctl.busy] at h <;> rfl

theorem ctlStep_starting {c : Ctl} (h : c.busy = false) : ctlStep c .starting = true := by
  cases c <;> simp [Ctl.busy] at h <;> rfl

theorem driveExits_ctlStep : ∀ x ∈ driveExits, ctlStep .paused x.2 = true := by decide

/-- An operation of the place goes on by the table, and never to IDLE. -/
theorem exits_ctlStep {i : Instr} {c : Ctl} (hc : placeCtl (home i) = some c) :
    ∀ x ∈ exits c i, ctlStep c x.2 = true ∧ x.2 ≠ .idle := by
  cases i <;> cases hc <;> simp [exits, driveExits, ctlStep]

section

variable {s t : State} {i : Instr}

theorem NextOp.home_eq (h : NextOp s i) (hi : home i ≠ .idle) : home i = s.pos := by
  cases h with
  | own hp => exact hp
  | fetch | read | illegal => exact absurd rfl hi

/-! ### The core's own step -/

theorem NextOp.ctlStep (h : NextOp s i) (hs : s.placeWf = true) (he : exec i s = .next t) :
    Machine.ctlStep s.ctl t.ctl = true ∧ t.ctl ≠ .idle := by
  have hbusy := h.busy hs
  cases (Runs.ends (.inl h) he).moves with
  | stays hsame =>
    rw [hsame.ctl]
    exact ⟨ctlStep_self _, by rintro hc; simp [hc, Ctl.busy] at hbusy⟩
  | goes hx =>
    have hc := h.placeCtl hs
    cases h with
    | own hp => exact exits_ctlStep (hp ▸ hc) _ hx
    | fetch | read | illegal => simp [exits] at hx
  | raises _ hc =>
    rw [hc]
    exact ⟨ctlStep_error hbusy, by simp⟩

/-- The operations behind another in one step are those of the inverse BWT (R206). -/
theorem restOfStep_bwt {j : Instr} (h : j ∈ restOfStep i) :
    placeCtl (home i) = some .bwt ∧ placeCtl (home j) = some .bwt := by
  unfold restOfStep at h
  split_ifs at h with horig hbucket hbuild
  · subst horig
    simp only [List.mem_cons, List.not_mem_nil, or_false] at h
    rcases h with rfl | rfl | rfl <;> exact ⟨rfl, rfl⟩
  · subst hbucket
    simp only [List.mem_cons, List.not_mem_nil, or_false] at h
    rcases h with rfl | rfl <;> exact ⟨rfl, rfl⟩
  · subst hbuild
    obtain rfl := List.mem_singleton.1 h
    exact ⟨rfl, rfl⟩
  · cases h

theorem NextOp.ctl_eq {c : Ctl} (h : NextOp s i) (hs : s.placeWf = true)
    (hc : Machine.placeCtl (home i) = some c) :
    s.ctl = c := by
  have hhome : home i ≠ .idle := by rintro hi; simp [hi, Machine.placeCtl] at hc
  rw [h.home_eq hhome, h.placeCtl hs] at hc
  exact Option.some.inj hc

/-- The last operation of a step starts in the control state of the step. -/
theorem runWhole_ctlStep (hs : s.placeWf = true) (hi : nextInstr s = some i) (h : runWhole i s = .next t) :
    ctlStep s.ctl t.ctl = true ∧ t.ctl ≠ .idle := by
  have hop := nextInstr_nextOp hi
  rcases runWhole_last hs hop h with he | ⟨j, hj, u, hu, hju, he⟩
  · exact hop.ctlStep hs he
  · obtain ⟨hfirst, hlast⟩ := restOfStep_bwt hj
    rw [hop.ctl_eq hs hfirst, ← hju.ctl_eq hu hlast]
    exact hju.ctlStep hu he

/-! ### A command -/

theorem enterLoop_ctlStep (h : s.ctl.acceptsRead = true) : ctlStep s.ctl (enterLoop s).ctl = true := by
  rcases Ctl.acceptsRead_iff.1 h with hc | hc
  · rw [enterLoop_paused hc, hc]
    exact driveExits_ctlStep _ (driveTurn_exits s)
  · rw [enterLoop_done hc]
    exact ctlStep_self _

theorem exec_read_ctlStep (h : exec .read s = .next t) : ctlStep s.ctl t.ctl = true := by
  by_cases haccept : s.len ≠ 0 ∧ s.ctl.acceptsRead = true
  · obtain ⟨hlen, hread⟩ := haccept
    obtain rfl := Host.Outcome.next.inj ((exec_read_accepted hlen hread).symm.trans h)
    exact enterLoop_ctlStep (s := acceptRead s) hread
  · obtain rfl := Host.Outcome.next.inj ((if_neg haccept).symm.trans h)
    exact ctlStep_self _

theorem exec_drain_ctlStep (h : exec .drain s = .next t) : ctlStep s.ctl t.ctl = true := by
  by_cases hread : s.ctl.acceptsRead = true
  · obtain rfl := Host.Outcome.next.inj ((exec_drain_accepted hread).symm.trans h)
    exact enterLoop_ctlStep (s := acceptDrain s) hread
  · obtain rfl := Host.Outcome.next.inj ((if_neg hread).symm.trans h)
    exact ctlStep_self _

theorem command_ctlStep {v : Word} (h : exec (decodeCmd v) s = .next t) : ctlStep s.ctl t.ctl = true := by
  rcases command_cases h with ⟨i, hi, he⟩ | ⟨hb, he⟩ | rfl
  · rcases Runs.command_cases hi with rfl | rfl | rfl | rfl | rfl | rfl
    case inr.inl => exact exec_read_ctlStep he
    case inr.inr.inl => exact exec_drain_ctlStep he
    all_goals
      cases he
      exact ctlStep_self _
  · obtain ⟨-, hc, -⟩ := execStart_result hb he
    rw [hc]
    exact ctlStep_starting hb
  · cases s.ctl <;> rfl

theorem command_ctl_busy {v : Word} (hb : s.ctl.busy = true) (h : exec (decodeCmd v) s = .next t) : t.ctl = s.ctl := by
  rcases exec_command_busy v hb with e | e <;> cases e.symm.trans h <;> rfl

end

/-- Settles O14: the last operation of the core's own step goes to one of its exits, and a busy core refuses every command
that could make it IDLE. -/
theorem transitionsAreOnlyThese : Obligations.TransitionsAreOnlyThese := by
  unfold Obligations.TransitionsAreOnlyThese
  intro s t hs h
  rcases step_cases h with ⟨i, u, hi, he, hu⟩ | ⟨v, rest, -, he⟩ | ⟨rest, hhost, he⟩ | htouched
  · have hstep : ctlStep s.ctl t.ctl = true ∧ t.ctl ≠ .idle := by
      rcases hu with rfl | ⟨rest, -, rfl⟩
      · exact runWhole_ctlStep hs hi he
      · exact runWhole_ctlStep (s := { s with host := rest }) hs hi he
    obtain ⟨hctl, hidle⟩ := hstep
    exact ⟨hctl, fun _ ht => absurd ht hidle⟩
  · refine ⟨command_ctlStep (s := { s with host := rest }) he, fun hb ht => ?_⟩
    have hidle : s.ctl = .idle := (command_ctl_busy (s := { s with host := rest }) hb he).symm.trans ht
    rw [hidle] at hb
    cases hb
  · cases he
    exact ⟨by cases s.ctl <;> rfl, fun _ _ => ⟨rest, hhost⟩⟩
  · rw [htouched]
    refine ⟨ctlStep_self _, fun hb ht => ?_⟩
    have hidle : s.ctl = .idle := ht
    rw [hidle] at hb
    cases hb

end Sys2Proof.Machine

/-! ## Raising an error (R280) -/

namespace Sys2Proof.Machine

theorem exec_errorEntry (c : ErrCode) (st : Stage) (s : State) :
    exec (.errorEntry c st) s = .next (raiseError c st s) := rfl

/-- Of the map of R69, STATUS alone shows the control state and the error record. -/
theorem regValue_raiseError {off : Nat} (c : ErrCode) (st : Stage) (s : State) (hstatus : off ≠ 0x08) :
    regValue (raiseError c st s) off = regValue s off := by
  rw [regValue, regValue, if_neg hstatus, if_neg hstatus]
  rfl

/-- Settles O60: ERROR_ENTRY is `raiseError`, which leaves no place, and STATUS alone reads what it writes. -/
theorem errorEntryRecordsAndEnds : Obligations.ErrorEntryRecordsAndEnds := by
  unfold Obligations.ErrorEntryRecordsAndEnds
  intro s c st
  have hbusy : (raiseError c st s).ctl.busy = false := by
    rw [raiseError_ctl]
    rfl
  exact ⟨raiseError c st s, exec_errorEntry c st s, rfl, hbusy, fun _ => regValue_raiseError c st s⟩

end Sys2Proof.Machine
